-- ==== Sys2Proof/Word.lean ====
section
/-! DEFINITION. The widths of the block's values (00_scope R6, R9; 30_encoding R51).

Bit 0 is the least significant bit of every value and every number is unsigned (R9), so each width is a plain
`BitVec` and Lean's `BitVec` lemmas apply to it. -/

namespace Sys2Proof

/-- A byte: an SPD answer (R32), the registers RP and CT (R35), a density count (R15). -/
abbrev Byte := BitVec 8

/-- A socket's geometry code in RP (R54). -/
abbrev Nibble := BitVec 4

/-- A command code, bits 7:5 of CT (R59). -/
abbrev Code := BitVec 3

/-- The preserved bits 4:0 of CT (R59, R68). -/
abbrev CtLow := BitVec 5

/-- A 16-bit value: ST (R23) and DIMM_START (R17). -/
abbrev Word16 := BitVec 16

/-- A physical byte address (R36) or a byte offset added to one (R62). -/
abbrev Addr := BitVec 32

end Sys2Proof
end

