-- ==== Sys2Proof/Syntax.lean ====
section
/-! DEFINITION. The closed set of eight operations (30_encoding R63) and the names their operands take.

One constructor of `Instr` for each row of spec/opcode_table.json. The operands of `RDDESC` are fixed by the step it
stands at (40_descriptor_reader R73). The other seven operations have none. The preserved bits `lllll` of the CT rows
are the register's and not an operand (43_command_sequencer R110, R115; log 19). -/

namespace Sys2Proof

/-- The two memory sockets (R6: NSOCK = 2), in socket order (R9). -/
inductive Socket where
  | s0
  | s1
  deriving DecidableEq, Repr

/-- The two places the descriptors are read (00_scope glossary; R64): `geometry` is call site G, before `ENCRP`;
`timing` is call site T, before `ENCST`. -/
inductive CallSite where
  | geometry
  | timing
  deriving DecidableEq, Repr

/-- The five commands (R60, R109). -/
inductive Command where
  | nop
  | pre
  | ref
  | mrs
  | norm
  deriving DecidableEq, Repr

/-- The four commands that `DELIVER` sends by address-bus reads (R111); normal operation is not one of them (R119). -/
inductive AddrCommand where
  | nop
  | pre
  | ref
  | mrs
  deriving DecidableEq, Repr

/-- A delivered command as one of the five. -/
def AddrCommand.toCommand : AddrCommand → Command
  | .nop => .nop
  | .pre => .pre
  | .ref => .ref
  | .mrs => .mrs

/-- The operations of the block (R63). -/
inductive Instr where
  /-- `RDDESC i` at call site `cs` (R73). -/
  | rddesc (i : Socket) (cs : CallSite)
  /-- `ENCRP` (R83). -/
  | encrp
  /-- `ENCST` (R96). -/
  | encst
  /-- `CMD.NOP` (R115). -/
  | cmdNop
  /-- `CMD.PRE` (R116). -/
  | cmdPre
  /-- `CMD.REF` (R117). -/
  | cmdRef
  /-- `CMD.MRS` (R118). -/
  | cmdMrs
  /-- `CMD.NORM` (R119). -/
  | cmdNorm
  deriving DecidableEq, Repr

/-- The two forms of encoding (R63): `seq`, a step index alone, and `ct`, the CT byte with the code in bits 7:5. -/
inductive Format where
  | seq
  | ct
  deriving DecidableEq, Repr

/-- The command a `CMD.*` operation sends; the three `SEQ` operations send none (R63). -/
def Instr.command? : Instr → Option Command
  | .rddesc _ _ => none
  | .encrp => none
  | .encst => none
  | .cmdNop => some .nop
  | .cmdPre => some .pre
  | .cmdRef => some .ref
  | .cmdMrs => some .mrs
  | .cmdNorm => some .norm

/-- The form an operation is encoded in (the `format` of its opcode-table row). -/
def Instr.format (i : Instr) : Format :=
  if i.command?.isSome then .ct else .seq

end Sys2Proof
end

