-- ==== Sys2Proof/Config.lean ====
section
/-! DEFINITION. The constants the spec fixes (00_scope R6), the configuration record CFG (R7) and the free values.

CFG is plain data. The machine's State carries one (log 1), so a statement over every state is a statement over every
configuration, as R7 asks. A free value is a constant with no body: no proof can know it. -/

namespace Sys2Proof

/-! ## What the source fixes (R6) -/

/-- The largest per-side density count the encoder passes to the table (R6, R85). -/
def Config.maxDensity : Nat := 32

/-- DENSITY_UNIT_MB: the megabytes of one density count (R6, R15, R52). -/
def Config.densityUnitMb : Nat := 4

/-- What a dual-sided module adds to its translated nibble (R6, R88). -/
def Config.dualAdd : Nibble := 2#4

/-- The nibble the encoder must never produce (R6, R67). -/
def Config.reservedNibble : Nibble := 2#4

/-- One megabyte in bytes (R9, R112). -/
def Config.megabyte : Nat := 2 ^ 20

/-- Auto-refresh commands in a run (R6). -/
def Config.nRefresh : Nat := 8

/-- The CAS latency the mode-register-set offset is for (R6, R120); a constant, and no operation takes another. -/
def Config.cas : Nat := 3

/-! ## Free values

Each is uninterpreted. The index is `State.freeIdx` (log 12), or the density count for a table entry. -/

/-- Which admitted nibble an open entry of DENSITY_TO_NIBBLE holds (R56, N4; log 3). -/
opaque Config.openNibble : Nat → Nat

/-- Bits 15:1 of a strength word the source does not give (R102; log 4). -/
opaque Config.openStrength : Nat → BitVec 15

/-- The answer to an `SpdRead` of which nothing is known: `some b` a byte, `none` the answer FAIL (R32, U17; log 10). -/
opaque Config.freeSpdAnswer : Nat → Option Byte

/-- By how much a `Wait` overshoots, and how long any other primitive takes (R19, R113, U16; log 11). -/
opaque Config.freeElapsed : Nat → Nat

/-- The ten bits of a descriptor register after a reset input (R27, R166, U15; log 9). -/
opaque Config.freeDescriptor : Nat → BitVec 10

/-- DIMM_START after a reset input (R27, R166, U15; log 9). -/
opaque Config.freeDimmStart : Nat → Word16

/-! ## The configuration record (R7) -/

/-- The test on a sidedness byte, `u8` to Bool, as plain data (R78; log 23). -/
inductive SidedTest where
  /-- `b > 1`, the bank-count test (R77): the default. -/
  | aboveOne
  /-- `(b | 0x0F) = 0xFF`, the variant known from outside the source (R78, G6). -/
  | highBitsOnes
  /-- Any other test: byte `b` is dual-sided exactly when bit `b` of the table is 1. -/
  | table (t : BitVec 256)
  deriving DecidableEq, Repr

/-- An entry of DENSITY_TO_NIBBLE (R56; log 3). -/
inductive NibbleEntry where
  /-- The configuration gives the entry. -/
  | known (n : Nibble)
  /-- The configuration leaves the entry open: any nibble that R8 items 1 and 5 admit, a free value. -/
  | openEntry
  /-- The count has no valid entry: REF's own reading of its table (R56, U5), admitted in no other configuration
  (R8 item 1; log 29). A run that consults it is refused by name. -/
  | invalid
  deriving DecidableEq, Repr

/-- The open bits of the six strength words the source does not give (R102), bit for bit; the three given words and the
given bits are in `Cfg.strength` (R99 to R101; log 4). -/
structure StrengthOpen where
  /-- STRENGTH[A][S], bits 15:1. -/
  absentSingle : BitVec 15
  /-- STRENGTH[A][D], bits 15:1. -/
  absentDual : BitVec 15
  /-- STRENGTH[S][A], bits 15:10. -/
  singleAbsentHigh : BitVec 6
  /-- STRENGTH[S][A], bits 7:1. -/
  singleAbsentLow : BitVec 7
  /-- STRENGTH[S][D], bits 15:1. -/
  singleDual : BitVec 15
  /-- STRENGTH[D][S], bits 15:1. -/
  dualSingle : BitVec 15
  /-- STRENGTH[D][D], bits 15:1. -/
  dualDual : BitVec 15
  deriving DecidableEq, Repr

/-- READ_WIDTH (R7): 1, 2, 4 or 8 bytes. -/
inductive ReadWidth where
  | one
  | two
  | four
  | eight
  deriving DecidableEq, Repr

/-- REG_BIND (R7, R35): where the three controller registers live on the platform. No rule of the block reads it: the
access is an excluded service (R4 item b). DESIGN CHOICE, safe: the spec says "platform address" and leaves open what one
is (N12, D30); here it is one bare natural for each register, an offset within a register space that is not named, so that
REF's "PCI 0:0.0" stands nowhere (log 27). -/
structure RegBind where
  rp : Nat
  ct : Nat
  st : Nat
  deriving DecidableEq, Repr

/-- The configuration record CFG of R7, one field for each parameter, under the parameter's name. -/
structure Cfg where
  /-- SPD_BASE. -/
  spdBase : Nat
  /-- OFF_TYPE. -/
  offType : Nat
  /-- OFF_DENSITY. -/
  offDensity : Nat
  /-- OFF_BANKS. -/
  offBanks : Nat
  /-- TYPE_SDRAM. -/
  typeSdram : Byte
  /-- SIDED_OFF_GEOM. -/
  sidedOffGeom : Nat
  /-- SidedGeom. -/
  sidedGeom : SidedTest
  /-- DENSITY_TO_NIBBLE[0..32]. -/
  densityToNibble : Vector NibbleEntry 33
  /-- SIZE_TOTAL[0..15], megabytes. -/
  sizeTotalTable : Vector Nat 16
  /-- SIZE_BANK0[0..15], megabytes. -/
  sizeBank0Table : Vector Nat 16
  /-- The open part of STRENGTH. -/
  strengthOpen : StrengthOpen
  /-- CODE_NOP. -/
  codeNop : Code
  /-- CODE_PRE. -/
  codePre : Code
  /-- CODE_REF. -/
  codeRef : Code
  /-- CODE_MRS. -/
  codeMrs : Code
  /-- CODE_NORM. -/
  codeNorm : Code
  /-- CMD_OFFSET[NOP]. -/
  cmdOffsetNop : Addr
  /-- CMD_OFFSET[PRE]. -/
  cmdOffsetPre : Addr
  /-- CMD_OFFSET[REF]. -/
  cmdOffsetRef : Addr
  /-- MRS_OFF0, the socket 0 offset at CAS latency `Config.cas`. -/
  mrsOff0 : Addr
  /-- MRS_COMPL_MASK. -/
  mrsComplMask : Addr
  /-- DELAY_NOP. -/
  delayNop : Nat
  /-- DELAY_PRE. -/
  delayPre : Nat
  /-- DELAY_REF. -/
  delayRef : Nat
  /-- DELAY_MRS. -/
  delayMrs : Nat
  /-- DELAY_NORM. -/
  delayNorm : Nat
  /-- READ_WIDTH. -/
  readWidth : ReadWidth
  /-- REG_BIND. -/
  regBind : RegBind
  /-- How many device indices the provider has (R8 item 11; log 5). -/
  spdDevices : Nat
  /-- How many register offsets a device of the provider has (R8 item 11; log 5). -/
  spdOffsets : Nat
  deriving DecidableEq, Repr

end Sys2Proof
end

