-- ==== Sys2Proof/Machine/Reference.lean ====
section
/-! DEFINITION. The reference configuration REF (00_scope R7; 93_implementation_defined section G), the test for it, and the
configuration of the reset state, which is REF with its open parts left free.

Every number here that the source does not fix is PRESUMED, from general knowledge (log 2). -/

namespace Sys2Proof

/-- The open bits of the strength words under REF: free values, since REF supplies nothing more (R7, U14; log 4). -/
def StrengthOpen.free : StrengthOpen where
  absentSingle := Config.openStrength 0
  absentDual := Config.openStrength 1
  singleAbsentHigh := (Config.openStrength 2).extractLsb' 0 6
  singleAbsentLow := (Config.openStrength 3).extractLsb' 0 7
  singleDual := Config.openStrength 4
  dualSingle := Config.openStrength 5
  dualDual := Config.openStrength 6

/-- No open bit set: what stands for the open bits where they are not compared. -/
def StrengthOpen.clear : StrengthOpen where
  absentSingle := 0
  absentDual := 0
  singleAbsentHigh := 0
  singleAbsentLow := 0
  singleDual := 0
  dualSingle := 0
  dualDual := 0

/-- DENSITY_TO_NIBBLE with the five entries known under REF and `e` for every other count (R56, G7). -/
def densityTable (e : NibbleEntry) : Vector NibbleEntry 33 :=
  #v[e, e, .known 0x1#4, e, .known 0x4#4, e, e, e,
     .known 0x7#4, e, e, e, e, e, e, e,
     .known 0xA#4, e, e, e, e, e, e, e,
     e, e, e, e, e, e, e, e,
     .known 0xD#4]

/-- REF (R7): the other counts of its density table have no valid entry (R56, U5). -/
def Cfg.ref : Cfg where
  spdBase := 0x50
  offType := 2
  offDensity := 31
  offBanks := 5
  typeSdram := 4#8
  sidedOffGeom := 5
  sidedGeom := .aboveOne
  densityToNibble := densityTable .invalid
  sizeTotalTable := #v[0, 8, 0, 16, 16, 24, 32, 32, 48, 64, 64, 96, 128, 128, 192, 256]
  sizeBank0Table := #v[0, 0, 0, 8, 0, 16, 16, 0, 32, 32, 0, 64, 64, 0, 128, 128]
  strengthOpen := .free
  codeNop := 4#3
  codePre := 5#3
  codeRef := 7#3
  codeMrs := 6#3
  codeNorm := 1#3
  cmdOffsetNop := 0#32
  cmdOffsetPre := 0#32
  cmdOffsetRef := 0#32
  mrsOff0 := 0x1D0#32
  mrsComplMask := 0x1FF8#32
  delayNop := 200
  delayPre := 1
  delayRef := 1
  delayMrs := 2
  delayNorm := 1
  readWidth := .four
  regBind := { rp := 0x52, ct := 0x53, st := 0x92 }
  spdDevices := 128
  spdOffsets := 256

/-- REF with the sidedness variant at call site G (R78, G6). -/
def Cfg.refVariant : Cfg :=
  { Cfg.ref with sidedOffGeom := 127, sidedGeom := .highBitsOnes }

/-- The part of a configuration to which REF gives values: all but the open strength words (R7, U14) and the model's own
provider ranges (log 5). -/
def Cfg.givenPart (c : Cfg) : Cfg :=
  { c with strengthOpen := .clear, spdDevices := 0, spdOffsets := 0 }

/-- CFG = REF (R7, U5), with the default sidedness or the variant that R7 lists beside it (log 29). -/
def Cfg.isRef (c : Cfg) : Bool :=
  c.givenPart = Cfg.ref.givenPart || c.givenPart = Cfg.refVariant.givenPart

/-- The configuration of the reset state: REF, with the density counts that REF has no entry for left open (log 3). -/
def Cfg.boot : Cfg :=
  { Cfg.ref with densityToNibble := densityTable .openEntry }

end Sys2Proof
end

