-- ==== Sys2Proof/Machine/Tables.lean ====
section
/-! DEFINITION. The ROM space (20_memory R37; 10_state R25): lookups in the constant tables and parameters of CFG.

Every lookup is combinational, has no event and is total on its index range. -/

namespace Sys2Proof

/-- SIZE_TOTAL[n] in megabytes (R57). -/
def Cfg.sizeTotal (c : Cfg) (n : Nibble) : Nat := c.sizeTotalTable.get n.toFin

/-- SIZE_BANK0[n] in megabytes (R57). -/
def Cfg.sizeBank0 (c : Cfg) (n : Nibble) : Nat := c.sizeBank0Table.get n.toFin

/-- The entry of DENSITY_TO_NIBBLE at a clamped count (R56). -/
def Cfg.densityEntry (c : Cfg) (d : Fin 33) : NibbleEntry := c.densityToNibble.get d

/-- The nibbles an open entry may hold: those of R8 item 1 with no bank-0 size, R8 item 5. -/
def Cfg.openCandidates (c : Cfg) : List Nibble :=
  [1#4, 3#4, 4#4, 5#4, 6#4, 7#4, 8#4, 9#4, 10#4, 11#4, 12#4, 13#4].filter (c.sizeBank0 · = 0)

/-- The nibble an open entry holds: some admitted one, which no proof can know (R56; log 3). -/
def Cfg.openNibble (c : Cfg) (d : Fin 33) : Nibble :=
  c.openCandidates.getD (Config.openNibble d.val % c.openCandidates.length) 13#4

/-- DENSITY_TO_NIBBLE[d], or none where the configuration marks the count invalid (R56, R87, U5). -/
def Cfg.densityNibble? (c : Cfg) (d : Fin 33) : Option Nibble :=
  match c.densityEntry d with
  | .known n => some n
  | .openEntry => some (c.openNibble d)
  | .invalid => none

/-- The code of a command (R60). -/
def Cfg.code (c : Cfg) : Command → Code
  | .nop => c.codeNop
  | .pre => c.codePre
  | .ref => c.codeRef
  | .mrs => c.codeMrs
  | .norm => c.codeNorm

/-- The settling delay after a command (R7, R113). -/
def Cfg.delay (c : Cfg) : Command → Nat
  | .nop => c.delayNop
  | .pre => c.delayPre
  | .ref => c.delayRef
  | .mrs => c.delayMrs
  | .norm => c.delayNorm

/-- The mode-register-set offset of a socket, at CAS latency `Config.cas` (R66, R120). -/
def Cfg.mrsOffset (c : Cfg) : Socket → Addr
  | .s0 => c.mrsOff0
  | .s1 => c.mrsOff0 ^^^ c.mrsComplMask

/-- OFFSET(x, i), the command-specific address offset (R65, R66, R114). -/
def Cfg.offset (c : Cfg) (x : AddrCommand) (i : Socket) : Addr :=
  match x with
  | .nop => c.cmdOffsetNop
  | .pre => c.cmdOffsetPre
  | .ref => c.cmdOffsetRef
  | .mrs => c.mrsOffset i

/-- READ_WIDTH in bytes (R7). -/
def ReadWidth.bytes : ReadWidth → Nat
  | .one => 1
  | .two => 2
  | .four => 4
  | .eight => 8

/-- A test on a sidedness byte (R77, R78). -/
def SidedTest.holds : SidedTest → Byte → Bool
  | .aboveOne, b => 1 < b.toNat
  | .highBitsOnes, b => (b ||| 0x0F#8) == 0xFF#8
  | .table t, b => t.getLsbD b.toNat

/-- The class of a socket (R12). -/
inductive SocketClass where
  /-- A: no recognised module. -/
  | absent
  /-- S: a single-sided module. -/
  | single
  /-- D: a dual-sided module. -/
  | dual
  deriving DecidableEq, Repr

/-- STRENGTH[c0][c1] (R98): the words of R99, and the open words of R102 with bit 0 (R100) and bits 9:8 (R101) as given. -/
def Cfg.strength (c : Cfg) (c0 c1 : SocketClass) : Word16 :=
  match c0, c1 with
  | .absent, .absent => 0x0000#16
  | .dual, .absent => 0x3356#16
  | .single, .single => 0x55C6#16
  | .absent, .single => c.strengthOpen.absentSingle ++ 0#1
  | .absent, .dual => c.strengthOpen.absentDual ++ 0#1
  | .single, .absent => c.strengthOpen.singleAbsentHigh ++ 3#2 ++ c.strengthOpen.singleAbsentLow ++ 0#1
  | .single, .dual => c.strengthOpen.singleDual ++ 1#1
  | .dual, .single => c.strengthOpen.dualSingle ++ 1#1
  | .dual, .dual => c.strengthOpen.dualDual ++ 1#1

end Sys2Proof
end

