-- ==== Sys2Proof/WellFormed.lean ====
section
/-! DEFINITION. What makes a configuration admitted (00_scope R8), a descriptor meaningful (10_state R15), an image of
the SPD space canonical, and an operation well formed (30_encoding R63, R64).

`Cfg.Admitted` states the items of R8 as the spec words them. The check a step makes is `Cfg.violation`
(Machine/Admission), and Laws/Admission proves that the two agree. -/

namespace Sys2Proof

/-- The admission constraints, by name (R8, U18). Item 10 has no name here: `StrengthOpen` cannot express a table that
breaks it (log 4). -/
inductive Constraint where
  /-- Item 1: an entry of DENSITY_TO_NIBBLE outside 1, 3 to 13, or a count without an entry where CFG is not REF. -/
  | densityRange
  /-- Item 2: DENSITY_TO_NIBBLE[32] or [16]. -/
  | densityPins
  /-- Item 3: a size at nibble 0 or 2. -/
  | sizeSentinels
  /-- Item 4: a size at nibble 0xC or 0xD. -/
  | sizePins
  /-- Item 5: a bank-0 size without a total, or at a single-sided nibble. -/
  | sizeConsistency
  /-- Item 6: a base or an address that would not fit. -/
  | addressRange
  /-- Item 6 for the second rank's address, which R112 says never wraps (D13; log 24). -/
  | secondRankRange
  /-- Item 7: two equal command codes. -/
  | codesDistinct
  /-- Item 8: an offset that is no multiple of READ_WIDTH. -/
  | offsetsAligned
  /-- Item 9: delays out of order. -/
  | delayOrder
  /-- Item 11: a device index or offset the provider does not have. -/
  | providerRange
  deriving DecidableEq, Repr

/-- A nibble R8 item 1 admits in DENSITY_TO_NIBBLE. -/
def Nibble.Encodable (n : Nibble) : Prop := n = 1#4 ∨ (3 ≤ n.toNat ∧ n.toNat ≤ 13)

/-- The largest of the offsets (R8 item 6). -/
def Cfg.maxOffset (c : Cfg) : Nat :=
  max (max c.cmdOffsetNop.toNat c.cmdOffsetPre.toNat)
    (max c.cmdOffsetRef.toNat (max (c.mrsOffset .s0).toNat (c.mrsOffset .s1).toNat))

/-- The configuration is admitted (R8). -/
structure Cfg.Admitted (c : Cfg) : Prop where
  densityRange : (∀ d n, c.densityEntry d = .known n → n.Encodable) ∧
    ∀ d, c.densityEntry d = .invalid → c.isRef = true
  densityPins : c.densityEntry 32 = .known 0xD#4 ∧ c.densityEntry 16 = .known 0xA#4
  sizeSentinels : c.sizeTotal 0#4 = 0 ∧ c.sizeTotal 2#4 = 0 ∧ c.sizeBank0 0#4 = 0 ∧ c.sizeBank0 2#4 = 0
  sizePins : c.sizeTotal 0xD#4 = 128 ∧ c.sizeBank0 0xD#4 = 0 ∧ c.sizeTotal 0xC#4 = 128 ∧ c.sizeBank0 0xC#4 = 64
  sizeConsistency : (∀ n, c.sizeBank0 n ≠ 0 → c.sizeTotal n ≠ 0) ∧
    ∀ d n, c.densityEntry d = .known n → c.sizeBank0 n = 0
  addressRange : ∀ a b, (c.sizeTotal a + c.sizeTotal b) * 2 ^ 20 + c.maxOffset + c.readWidth.bytes ≤ 2 ^ 32 ∧
    c.sizeTotal a + c.sizeTotal b < 2 ^ 16
  secondRankRange : ∀ a b, (c.sizeTotal a + c.sizeBank0 b) * 2 ^ 20 + c.maxOffset + c.readWidth.bytes ≤ 2 ^ 32
  codesDistinct : [c.codeNop, c.codePre, c.codeRef, c.codeMrs, c.codeNorm].Nodup
  offsetsAligned : ∀ x i, c.readWidth.bytes ∣ (c.offset x i).toNat
  delayOrder : c.delayMrs < c.delayNop ∧ c.delayRef < c.delayMrs ∧ c.delayPre = c.delayRef ∧ 1 ≤ c.delayRef
  providerRange : c.spdBase + 1 < c.spdDevices ∧ c.offType < c.spdOffsets ∧ c.offDensity < c.spdOffsets ∧
    c.offBanks < c.spdOffsets ∧ c.sidedOffGeom < c.spdOffsets

/-- A cell of the SPD space: (device index, register offset) and the byte there (R52, R72). -/
abbrev SpdCell := (Nat × Nat) × Byte

/-- The place of a cell comes before the place of another: by device, then by offset. -/
def SpdCell.before (a b : SpdCell) : Bool :=
  a.1.1 < b.1.1 || (a.1.1 == b.1.1 && a.1.2 < b.1.2)

/-- An image of the SPD space is canonical: its places strictly rise, so that equal images are equal lists (log 10). -/
def spdImageWf : List SpdCell → Bool
  | a :: b :: rest => a.before b && spdImageWf (b :: rest)
  | _ => true

/-- The steps of the sequence ROM at which an operation stands (R64). -/
def Instr.steps : Instr → List (Fin 18)
  | .rddesc .s0 .geometry => [0]
  | .rddesc .s1 .geometry => [1]
  | .encrp => [2]
  | .rddesc .s0 .timing => [3]
  | .rddesc .s1 .timing => [4]
  | .encst => [5]
  | .cmdNop => [6]
  | .cmdPre => [7]
  | .cmdRef => [8, 9, 10, 11, 12, 13, 14, 15]
  | .cmdMrs => [16]
  | .cmdNorm => [17]

/-- An operation is well formed when it stands somewhere in the sequence ROM (R64, R134). -/
def Instr.wellFormed (i : Instr) : Bool := !i.steps.isEmpty

end Sys2Proof
end

