-- ==== Sys2Proof/Decode.lean ====
section
/-! DEFINITION. The encodings of the operations (30_encoding R59, R60, R63, R64) and their decoder and encoder.

The block has no instruction words (R51): an operation is a position in the sequence ROM, and a `CMD.*` operation also
stands in the CT byte it writes. A byte is read in one of the two formats of the opcode table. -/

namespace Sys2Proof

/-- The sequence ROM (R64): the operation at each step. -/
def seqRom (p : Fin 18) : Instr :=
  match p.val with
  | 0 => .rddesc .s0 .geometry
  | 1 => .rddesc .s1 .geometry
  | 2 => .encrp
  | 3 => .rddesc .s0 .timing
  | 4 => .rddesc .s1 .timing
  | 5 => .encst
  | 6 => .cmdNop
  | 7 => .cmdPre
  | 16 => .cmdMrs
  | 17 => .cmdNorm
  | _ => .cmdRef

/-- The operation that sends a command (R63). -/
def Instr.ofCommand : Command → Instr
  | .nop => .cmdNop
  | .pre => .cmdPre
  | .ref => .cmdRef
  | .mrs => .cmdMrs
  | .norm => .cmdNorm

/-- Why bytes encode no operation. -/
inductive DecodeError where
  /-- There is no byte. -/
  | noByte
  /-- A step index above 17 (R14, R64). -/
  | noSuchStep
  /-- A command code other than the five (R69, U3). -/
  | reservedCode
  deriving DecidableEq, Repr

/-- The command code of a CT byte, bits 7:5 (R59). -/
def ctCode (b : Byte) : Code := b.extractLsb' 5 3

/-- The preserved bits of a CT byte, bits 4:0 (R59). -/
def ctLow (b : Byte) : CtLow := b.extractLsb' 0 5

/-- A CT byte from its two fields, `CT = cmd || low` (R59). -/
def ctByte (code : Code) (low : CtLow) : Byte := code ++ low

/-- The command a code selects (R60), if it is one of the five. -/
def Cfg.commandOf? (c : Cfg) (k : Code) : Option Command :=
  [Command.nop, .pre, .ref, .mrs, .norm].find? (c.code · = k)

/-- Reads a step index (R64). -/
def decodeSeq (b : Byte) : Except DecodeError Instr :=
  if h : b.toNat < 18 then .ok (seqRom ⟨b.toNat, h⟩) else .error .noSuchStep

/-- Reads a CT byte (R59, R60); the bits 4:0 belong to the register and not to the operation (R68). -/
def decodeCt (c : Cfg) (b : Byte) : Except DecodeError Instr :=
  match c.commandOf? (ctCode b) with
  | some x => .ok (.ofCommand x)
  | none => .error .reservedCode

/-- The decoder: the first byte, read in a format, and the bytes after it. -/
def decode (c : Cfg) (f : Format) : List Byte → Except DecodeError (Instr × List Byte)
  | [] => .error .noByte
  | b :: rest =>
    match f with
    | .seq => (decodeSeq b).map (·, rest)
    | .ct => (decodeCt c b).map (·, rest)

/-- The first step at which an operation stands (R64). -/
def Instr.firstStep (i : Instr) : Fin 18 := i.steps.headD 0

/-- The encoder: the step index of a `SEQ` operation, the CT byte of a `CMD.*` operation with the preserved bits `low`
that the register holds (R59, R64, R110). -/
def encode (c : Cfg) (low : CtLow) (i : Instr) : List Byte :=
  match i.command? with
  | none => [BitVec.ofNat 8 i.firstStep.val]
  | some x => [ctByte (c.code x) low]

/-- The format a word of the opcode table is written in: below 32 a five-bit step index, else a CT byte. Under REF no
command has the code 0, so the two do not meet (log 17). -/
def tableFormat (w : Nat) : Format := if w < 32 then .seq else .ct

/-- The operation this decoder reads from a row of the opcode table, whose command codes are those of REF (log 17). -/
def decodeTableWord (_nbits w : Nat) : Option Instr :=
  if w < 256 then
    match decode Cfg.ref (tableFormat w) [BitVec.ofNat 8 w] with
    | .ok (i, _) => some i
    | .error _ => none
  else none

end Sys2Proof
end

