-- ==== Sys2Proof/Machine/State.lean ====
section
/-! DEFINITION. The state of the machine (10_state R13), its reset value (R27) and the reasons a step can stop.

State is plain data. Beside the spec's state it holds the configuration (log 1), what the environment will answer
(log 10, log 11, log 14), whether the block is stuck (log 28) and the index of the next free value (log 12). -/

namespace Sys2Proof.Machine

/-- PH, the phase register, the block's program counter (R14). -/
inductive Phase where
  | idle
  | step (n : Fin 18)
  | done
  deriving DecidableEq, Repr

/-- A descriptor register (R15): the density is the raw count, uncapped (R76; 90_conflicts C2). -/
structure Descriptor where
  present : Bool
  dual : Bool
  density : Byte
  deriving DecidableEq, Repr

/-- EMPTY, the descriptor with all three fields 0 (R15). -/
def Descriptor.empty : Descriptor := { present := false, dual := false, density := 0#8 }

/-- The invariant of R15: an absent socket's descriptor is EMPTY. -/
def Descriptor.wf (d : Descriptor) : Bool := d.present || d = Descriptor.empty

/-- The answer to an `SpdRead` (R32). -/
inductive SpdAnswer where
  | byte (b : Byte)
  | fail
  deriving DecidableEq, Repr

/-- A controller register with a value of its own width (R10, R35). -/
inductive RegVal where
  | rp (v : Byte)
  | ct (v : Byte)
  | st (v : Word16)
  deriving DecidableEq, Repr

/-- The events of the trace, one for each primitive (R10, R11). -/
inductive Event where
  /-- `S(dev, off) = a`. -/
  | spd (dev off : Nat) (a : SpdAnswer)
  /-- `RR(r) = v`. -/
  | regRead (v : RegVal)
  /-- `RW(r, v)`. -/
  | regWrite (v : RegVal)
  /-- `M(addr)`; the data read has no place in it (R50). -/
  | mem (addr : Addr)
  /-- `W(d)`. -/
  | wait (d : Nat)
  /-- `DG(i)`. -/
  | diag (i : Socket)
  deriving DecidableEq, Repr

/-- Where the answers to `SpdRead`s come from (R26, R32, R72; log 10). -/
inductive SpdSource where
  /-- Nothing is known: each answer is a free value (U17). -/
  | free
  /-- A list of answers in order (R72); when it is used up a read is never answered (R163). -/
  | inOrder (answers : List SpdAnswer)
  /-- A stable image (R26, R72): an unlisted place answers FAIL. -/
  | image (cells : List SpdCell)
  deriving DecidableEq, Repr

/-- Where the overshoot of each `Wait` comes from (R113, R157; log 11). -/
inductive DelaySource where
  /-- Nothing is known: each overshoot is a free value (U16). -/
  | free
  /-- A list of overshoots in order; when it is used up a `Wait` never ends (R163). -/
  | inOrder (overshoots : List Nat)
  deriving DecidableEq, Repr

/-- What the host does before the next step of the block (R133, R166; log 14). -/
inductive HostInput where
  /-- START (R133). -/
  | start
  /-- Reset of the block, between operations or while the block is stuck (R166). -/
  | reset
  /-- Reset of the block in the middle of its next operation, after the first `k` primitives of it (R10, R166; log 13). -/
  | resetWithin (k : Nat)
  /-- The host lets the block make one step of its own. -/
  | run
  deriving DecidableEq, Repr

/-- The service that the operation at PH waits for without end (R163). -/
inductive Stall where
  /-- A `SpdRead` that is never answered (R32). -/
  | spdRead
  /-- A `Wait` that never ends (R113). -/
  | wait
  deriving DecidableEq, Repr

/-- The machine's state (R13). -/
structure State where
  /-- CFG, the configuration record (R7, R25); no step writes it (log 1). -/
  cfg : Cfg
  /-- PH (R14). -/
  ph : Phase
  /-- D[0] (R15). -/
  d0 : Descriptor
  /-- D[1] (R15). -/
  d1 : Descriptor
  /-- DIMM_START, in megabytes (R17). -/
  dimmStart : Word16
  /-- OVS[0] (R18). -/
  ovs0 : Bool
  /-- OVS[1] (R18). -/
  ovs1 : Bool
  /-- RP (R21). -/
  rp : Byte
  /-- CT (R22). -/
  ct : Byte
  /-- ST (R23). -/
  st : Word16
  /-- NOW, a ghost (R19). -/
  now : Nat
  /-- TR, a ghost, oldest event first (R20). -/
  tr : List Event
  /-- What the block is stuck on, in the middle of the operation at PH, if it is (R163; log 28). -/
  stall : Option Stall
  /-- The answers to come of the Bus Transaction Provider (log 10). -/
  spd : SpdSource
  /-- The overshoots to come of the delay service (log 11). -/
  delays : DelaySource
  /-- The host's inputs to come (log 14). -/
  host : List HostInput
  /-- The index of the next free value; the model's own field (log 12). -/
  freeIdx : Nat
  deriving DecidableEq, Repr

/-- The reasons to stop with a fault: none. The block raises no fault (R143), and the two situations it is stuck in are
states and no faults (R163; `State.stall`). Safe: nobody raises what does not exist. -/
inductive Fault
  deriving DecidableEq, Repr

/-- What the model declines by name. -/
inductive Refusal where
  /-- Raised by `exec` for an instruction with no meaning yet. Safe: nothing is claimed of it. -/
  | notModelled (mnemonic : String)
  /-- Raised by a step under a configuration that fails an admission constraint (R8, U18). Safe: the spec refuses it. -/
  | cfgNotAdmitted (k : Constraint)
  /-- Raised by `ENCRP` for a present module whose clamped count the configuration marks invalid, as REF's own table does
  (R56, U5). Safe: the spec refuses the run. -/
  | densityNotInTable (d : Fin 33)
  deriving DecidableEq, Repr

/-- The machine right after reset (R27, R166, R168), with nothing known of the environment. The fields the spec leaves
unspecified hold values the model names (log 2, log 6, log 7, log 8, log 12). -/
def State.reset : State where
  cfg := Cfg.boot
  ph := .idle
  d0 := .empty
  d1 := .empty
  dimmStart := 0#16
  ovs0 := false
  ovs1 := false
  rp := 0#8
  ct := 0#8
  st := 0#16
  now := 0
  tr := []
  stall := none
  spd := .free
  delays := .free
  host := []
  freeIdx := 0

end Sys2Proof.Machine
end

