-- ==== Sys2Proof/Machine/Operands.lean ====
section
/-! DEFINITION. The operand forms: the device index, the sidedness byte of a call site, the nibbles of RP, the physical
address, the clamp and the derived views of a descriptor. -/

namespace Sys2Proof.Machine

/-- The number of a socket (R6). -/
def socketIndex : Socket → Nat
  | .s0 => 0
  | .s1 => 1

/-- The device index of a socket's module, `SPD_BASE + i` (R33, R74). -/
def device (c : Cfg) (i : Socket) : Nat := c.spdBase + socketIndex i

/-- Where the sidedness byte of a call site stands (R77, R78). -/
def sidedOffset (c : Cfg) : CallSite → Nat
  | .geometry => c.sidedOffGeom
  | .timing => c.offBanks

/-- The test a call site makes on it (R77, R78). -/
def sidedTest (c : Cfg) : CallSite → SidedTest
  | .geometry => c.sidedGeom
  | .timing => .aboveOne

/-- The nibble of a socket in an RP byte (R55). -/
def nibbleOf (rp : Byte) : Socket → Nibble
  | .s0 => rp.extractLsb' 0 4
  | .s1 => rp.extractLsb' 4 4

/-- The RP byte of two nibbles, `RP = n1 || n0` (R54, R89). -/
def packRp (n0 n1 : Nibble) : Byte := n1 ++ n0

/-- A PHYS address, `base_mb * 2^20 + offset` (R62, R112). -/
def physAddr (baseMb : Nat) (off : Addr) : Addr := BitVec.ofNat 32 (baseMb * Config.megabyte) + off

/-- The clamp of R85, `min(c, 32)`, as an index of DENSITY_TO_NIBBLE. -/
def clampDensity (c : Byte) : Fin 33 := ⟨min c.toNat Config.maxDensity, by simp [Config.maxDensity]⟩

/-- `size_class`, the capped count of a descriptor (R16). -/
def Descriptor.sizeClass (d : Descriptor) : Nat := (clampDensity d.density).val

/-- The megabytes of one side of a module by its raw count (R15, R52). -/
def Descriptor.rawSideMb (d : Descriptor) : Nat := Config.densityUnitMb * d.density.toNat

/-- The megabytes of one side that a module is encoded with, at most 128 (R6, R56, R85). -/
def Descriptor.sideMb (d : Descriptor) : Nat := Config.densityUnitMb * d.sizeClass

/-- The class of a socket from its descriptor (R12, R97). -/
def Descriptor.socketClass (d : Descriptor) : SocketClass :=
  if d.present then (if d.dual then .dual else .single) else .absent

/-- The flag `size` of a socket (R12, R97; 90_conflicts C3). -/
def Descriptor.size (d : Descriptor) : Bool := d.present

/-- The flag `ds` of a socket (R12, R97). -/
def Descriptor.ds (d : Descriptor) : Bool := d.present && d.dual

/-- The flag `ss` of a socket, which is `single` (R12, R16, R97). -/
def Descriptor.ss (d : Descriptor) : Bool := d.present && !d.dual

/-- The descriptor register of a socket. -/
def State.desc (s : State) : Socket → Descriptor
  | .s0 => s.d0
  | .s1 => s.d1

/-- The oversize flag of a socket. -/
def State.ovs (s : State) : Socket → Bool
  | .s0 => s.ovs0
  | .s1 => s.ovs1

end Sys2Proof.Machine
end

