-- ==== Sys2Proof/Machine/Ops.lean ====
section
/-! DEFINITION. The named operations over the registers and the environment: the updates of State, the advance of PH
(10_state R14) and the primitives of 00_scope R10, each of which appends one event to TR and takes time.

There is no exception to take and none to return from (60_exceptions R143, R152, R153), so no operation for either
stands here. -/

namespace Sys2Proof.Machine

/-- How a step or a meaning ends. -/
abbrev Result := Host.Outcome State Fault Refusal

/-! ## Updates of one register -/

/-- Writes PH. -/
def State.setPh (s : State) (p : Phase) : State := { s with ph := p }

/-- Writes D[i]. -/
def State.setDesc (s : State) (i : Socket) (d : Descriptor) : State :=
  match i with
  | .s0 => { s with d0 := d }
  | .s1 => { s with d1 := d }

/-- Writes DIMM_START. -/
def State.setDimmStart (s : State) (v : Word16) : State := { s with dimmStart := v }

/-- Writes RP. -/
def State.setRp (s : State) (v : Byte) : State := { s with rp := v }

/-- Writes CT. -/
def State.setCt (s : State) (v : Byte) : State := { s with ct := v }

/-- Writes ST. -/
def State.setSt (s : State) (v : Word16) : State := { s with st := v }

/-- Writes what the block is stuck on. -/
def State.setStall (s : State) (v : Option Stall) : State := { s with stall := v }

/-- What the provider answers from now on. -/
def State.setSpd (s : State) (v : SpdSource) : State := { s with spd := v }

/-- What the delay service does from now on. -/
def State.setDelays (s : State) (v : DelaySource) : State := { s with delays := v }

/-- The host's inputs from now on. -/
def State.setHost (s : State) (v : List HostInput) : State := { s with host := v }

/-! ## The program counter -/

/-- `PH + 1`, with `17 + 1 = DONE`; IDLE moves only on START and DONE nowhere until reset (R14). -/
def Phase.next : Phase → Phase
  | .idle => .idle
  | .step n => if h : n.val + 1 < 18 then .step ⟨n.val + 1, h⟩ else .done
  | .done => .done

/-- The block is stuck on a service in the middle of the operation at PH: it has no further step (R163; log 28). -/
def State.stallOn (s : State) (why : Stall) : State := s.setStall (some why)

/-- `PH <- PH + 1`, the end of every operation (R14). -/
def State.advance (s : State) : State := s.setPh s.ph.next

/-! ## The primitives (R10) -/

/-- Appends an event to TR and lets time pass (R11, R19, R20). -/
def State.record (s : State) (e : Event) (elapsed : Nat) : State :=
  { s with tr := s.tr ++ [e], now := s.now + elapsed, freeIdx := s.freeIdx + 1 }

/-- A primitive other than `Wait`: it takes some time, at least zero, that is free (R19, R113; log 11). -/
def State.primitive (s : State) (e : Event) : State := s.record e (Config.freeElapsed s.freeIdx)

/-- An answer of which nothing is known (U17; log 10). -/
def freeAnswer (n : Nat) : SpdAnswer :=
  match Config.freeSpdAnswer n with
  | some b => .byte b
  | none => .fail

/-- The answer of a stable image at a place: the byte listed there, else FAIL (R72). -/
def imageAnswer (cells : List SpdCell) (dev off : Nat) : SpdAnswer :=
  match cells.find? (·.1 = (dev, off)) with
  | some cell => .byte cell.2
  | none => .fail

/-- The provider after `n` more answers (R32, R72). -/
def SpdSource.after (src : SpdSource) (n : Nat) : SpdSource :=
  match src with
  | .free => .free
  | .inOrder l => .inOrder (l.drop n)
  | .image cells => .image cells

/-- The delay service after one `Wait` (R113). -/
def DelaySource.after (src : DelaySource) : DelaySource :=
  match src with
  | .free => .free
  | .inOrder l => .inOrder l.tail

/-- The provider's answer at a place and what it answers from then on; none when it never answers (R32, R163). -/
def State.spdTurn (s : State) (dev off : Nat) : Option (SpdAnswer × SpdSource) :=
  match s.spd with
  | .free => some (freeAnswer s.freeIdx, .free)
  | .inOrder [] => none
  | .inOrder (a :: rest) => some (a, .inOrder rest)
  | .image cells => some (imageAnswer cells dev off, .image cells)

/-- `SpdRead(dev, off)` (R10, R32), then `k` with the answer; stuck, with no event for the read, when it is never answered
(R163; log 28). -/
def spdRead (dev off : Nat) (s : State) (k : SpdAnswer → State → Result) : Result :=
  match s.spdTurn dev off with
  | some (a, src) => k a ((s.setSpd src).primitive (.spd dev off a))
  | none => .next (s.stallOn .spdRead)

/-- `RegRead(RP)`: the value last written, or the start value (R10, R24). -/
def readRp (s : State) : Byte × State := (s.rp, s.primitive (.regRead (.rp s.rp)))

/-- `RegRead(CT)` (R10, R24). -/
def readCt (s : State) : Byte × State := (s.ct, s.primitive (.regRead (.ct s.ct)))

/-- `RegWrite(RP, v)`, the whole byte (R10, R24, R35). -/
def writeRp (v : Byte) (s : State) : State := (s.setRp v).primitive (.regWrite (.rp v))

/-- `RegWrite(CT, v)`, the whole byte (R10, R24, R35). -/
def writeCt (v : Byte) (s : State) : State := (s.setCt v).primitive (.regWrite (.ct v))

/-- `RegWrite(ST, v)`, all sixteen bits in one access (R10, R24, R41). -/
def writeSt (v : Word16) (s : State) : State := (s.setSt v).primitive (.regWrite (.st v))

/-- `MemRead(addr, READ_WIDTH)`: the event alone, since the data is discarded (R10, R42, R50). -/
def memRead (addr : Addr) (s : State) : State := s.primitive (.mem addr)

/-- The overshoot of a `Wait` and what comes after it; none when it never ends (R113, R163). -/
def State.delayTurn (s : State) : Option (Nat × DelaySource) :=
  match s.delays with
  | .free => some (Config.freeElapsed s.freeIdx, .free)
  | .inOrder [] => none
  | .inOrder (o :: rest) => some (o, .inOrder rest)

/-- `Wait(d)`: NOW advances by some `e >= d` (R19, R113), then `k`; stuck, with no event for the `Wait`, when it never ends
(R163; log 28). -/
def wait (d : Nat) (s : State) (k : State → Result) : Result :=
  match s.delayTurn with
  | some (o, src) => k ((s.setDelays src).record (.wait d) (d + o))
  | none => .next (s.stallOn .wait)

end Sys2Proof.Machine
end

