-- ==== Sys2Proof/Machine/Commands.lean ====
section
/-! DEFINITION. The Command Sequencer: `SETCMD`, `DELIVER` and the five `CMD.*` operations (43_command_sequencer R109 to
R132). -/

namespace Sys2Proof.Machine

/-- `SETCMD(code)` (R110): a read of CT, then a write of the code above the five bits read. -/
def setCmd (code : Code) (s : State) : State :=
  let (v, s) := readCt s
  writeCt (ctByte code (ctLow v)) s

/-- The first rank's read of a socket, made when its span is nonzero (R111, R124). -/
def readFirstRank (x : AddrCommand) (i : Socket) (n : Nibble) (s : State) : State :=
  if s.cfg.sizeTotal n ≠ 0 then memRead (physAddr s.dimmStart.toNat (s.cfg.offset x i)) s else s

/-- The second rank's read, made when the bank-0 size is nonzero, whatever the span (R111, R122). -/
def readSecondRank (x : AddrCommand) (i : Socket) (n : Nibble) (s : State) : State :=
  if s.cfg.sizeBank0 n ≠ 0 then
    memRead (physAddr (s.dimmStart.toNat + s.cfg.sizeBank0 n) (s.cfg.offset x i)) s
  else s

/-- `DIMM_START <- DIMM_START + size`, by the full module size (R121). -/
def advanceBase (n : Nibble) (s : State) : State :=
  s.setDimmStart (s.dimmStart + BitVec.ofNat 16 (s.cfg.sizeTotal n))

/-- One socket's turn of `DELIVER` (R111), with RP read live (R123). -/
def deliverSocket (x : AddrCommand) (i : Socket) (s : State) : State :=
  let (rp, s) := readRp s
  let n := nibbleOf rp i
  advanceBase n (readSecondRank x i n (readFirstRank x i n s))

/-- `DELIVER(x)` (R111): DIMM_START starts at 0 (R131), then the sockets in order. -/
def deliver (x : AddrCommand) (s : State) : State :=
  deliverSocket x .s1 (deliverSocket x .s0 (s.setDimmStart 0#16))

/-- The common shape of a delivered command (R109): `SETCMD`, `DELIVER`, `Wait`, `PH <- PH + 1`. -/
def deliveredCommand (x : AddrCommand) (s : State) : Result :=
  wait (s.cfg.delay x.toCommand) (deliver x (setCmd (s.cfg.code x.toCommand) s)) fun s => .next s.advance

/-- `CMD.NOP` (R115). -/
def execCmdNop (s : State) : Result := deliveredCommand .nop s

/-- `CMD.PRE` (R116). -/
def execCmdPre (s : State) : Result := deliveredCommand .pre s

/-- `CMD.REF` (R117). -/
def execCmdRef (s : State) : Result := deliveredCommand .ref s

/-- `CMD.MRS` (R118). -/
def execCmdMrs (s : State) : Result := deliveredCommand .mrs s

/-- `CMD.NORM` (R119): the register write and the `Wait`, with nothing delivered. -/
def execCmdNorm (s : State) : Result :=
  wait s.cfg.delayNorm (setCmd s.cfg.codeNorm s) fun s => .next s.advance

end Sys2Proof.Machine
end

