-- ==== Sys2Proof/Machine/Flags.lean ====
section
/-! DEFINITION. The block's only flags, the sticky oversize flags (10_state R18), and the diagnostic they go with
(41_geometry_encoder R86). There are no condition codes (R18). -/

namespace Sys2Proof.Machine

/-- Sets OVS[i]; only a reset clears it (R18). -/
def State.setOvs (s : State) (i : Socket) : State :=
  match i with
  | .s0 => { s with ovs0 := true }
  | .s1 => { s with ovs1 := true }

/-- Whether a density count is above the cap, an unsigned comparison (R85, R86). -/
def oversized (c : Byte) : Bool := Config.maxDensity < c.toNat

/-- `Diag(OVERSIZE, i)` and `OVS[i] <- 1` (R86). -/
def diagOversize (i : Socket) (s : State) : State := (s.primitive (.diag i)).setOvs i

end Sys2Proof.Machine
end

