-- ==== Sys2Proof/Machine/Geometry.lean ====
section
/-! DEFINITION. The Geometry Encoder: `ENCRP` (41_geometry_encoder R83 to R95). -/

namespace Sys2Proof.Machine

/-- The nibble of a present module, from its clamped count (R85, R87) and its sidedness (R88); none where the
configuration marks the count invalid (U5). -/
def presentNibble? (c : Cfg) (d : Descriptor) : Option Nibble :=
  (c.densityNibble? (clampDensity d.density)).map fun n => if d.dual then n + Config.dualAdd else n

/-- One socket's turn of `ENCRP` (R83): nibble 0 for an absent socket (R84), else the clamp with its diagnostic
(R85, R86) and the translation, then `k` with the nibble. -/
def encodeSocket (i : Socket) (s : State) (k : Nibble → State → Result) : Result :=
  if (s.desc i).present then
    match presentNibble? s.cfg (s.desc i) with
    | some n => k n (if oversized (s.desc i).density then diagOversize i s else s)
    | none => .refused (.densityNotInTable (clampDensity (s.desc i).density))
  else k 0#4 s

/-- `ENCRP` (R83): socket 0, then socket 1, then one write of the packed byte (R89, R90). -/
def execEncrp (s : State) : Result :=
  encodeSocket .s0 s fun n0 s =>
    encodeSocket .s1 s fun n1 s =>
      .next (writeRp (packRp n0 n1) s).advance

end Sys2Proof.Machine
end

