-- ==== Sys2Proof/Machine/Reader.lean ====
section
/-! DEFINITION. The Module Descriptor Reader: `RDDESC` (40_descriptor_reader R73 to R82). -/

namespace Sys2Proof.Machine

/-- The end of an `RDDESC`: `D[i] <- d ; PH <- PH + 1`. -/
def finishRddesc (i : Socket) (d : Descriptor) (s : State) : State := (s.setDesc i d).advance

/-- `RDDESC i` at call site `cs` (R73): the type (R75), the density (R76) and the sidedness byte (R77, R78), with EMPTY
at the first answer that is FAIL or a foreign type (R79). -/
def execRddesc (i : Socket) (cs : CallSite) (s : State) : Result :=
  spdRead (device s.cfg i) s.cfg.offType s fun t s =>
    if t = .byte s.cfg.typeSdram then
      spdRead (device s.cfg i) s.cfg.offDensity s fun dn s =>
        match dn with
        | .fail => .next (finishRddesc i .empty s)
        | .byte density =>
          spdRead (device s.cfg i) (sidedOffset s.cfg cs) s fun b s =>
            match b with
            | .fail => .next (finishRddesc i .empty s)
            | .byte sided =>
              .next (finishRddesc i
                { present := true, dual := (sidedTest s.cfg cs).holds sided, density := density } s)
    else .next (finishRddesc i .empty s)

end Sys2Proof.Machine
end

