-- ==== Sys2Proof/Machine/Strength.lean ====
section
/-! DEFINITION. The Strength/Timing Encoder: `ENCST` (42_strength_encoder R96 to R108). -/

namespace Sys2Proof.Machine

/-- The strength/timing word of the two descriptors, a function of their classes alone (R96, R98). -/
def strengthWord (s : State) : Word16 := s.cfg.strength s.d0.socketClass s.d1.socketClass

/-- `ENCST` (R96): one write of the whole word (R104). -/
def execEncst (s : State) : Result := .next (writeSt (strengthWord s) s).advance

end Sys2Proof.Machine
end

