-- ==== Sys2Proof/Machine/Dispatch.lean ====
section
/-! DEFINITION. The dispatch of an operation to its meaning (30_encoding R63), one arm for each constructor. -/

namespace Sys2Proof.Machine

def exec (i : Instr) (s : State) : Host.Outcome State Fault Refusal :=
  match i with
  | .rddesc k cs => Sys2Proof.Machine.execRddesc k cs s
  | .encrp => Sys2Proof.Machine.execEncrp s
  | .encst => Sys2Proof.Machine.execEncst s
  | .cmdNop => Sys2Proof.Machine.execCmdNop s
  | .cmdPre => Sys2Proof.Machine.execCmdPre s
  | .cmdRef => Sys2Proof.Machine.execCmdRef s
  | .cmdMrs => Sys2Proof.Machine.execCmdMrs s
  | .cmdNorm => Sys2Proof.Machine.execCmdNorm s

end Sys2Proof.Machine
end

