-- ==== Sys2Proof/Machine/Admission.lean ====
section
/-! DEFINITION. The check of a configuration against the admission constraints (00_scope R8, 93 U18), by name.

Each item is a Bool that can be evaluated. Laws/Admission proves that the whole check agrees with `Cfg.Admitted`. -/

namespace Sys2Proof

/-- All nibbles, for a check over a size table. -/
def allNibbles : List Nibble := (List.finRange 16).map BitVec.ofFin

/-- R8 item 1, one entry: an admitted nibble. REF alone may leave a count with none (R56, U5; log 29). -/
def NibbleEntry.inRange (c : Cfg) : NibbleEntry → Bool
  | .known n => n == 1#4 || (3 ≤ n.toNat && n.toNat ≤ 13)
  | .openEntry => true
  | .invalid => c.isRef

/-- R8 item 5, one entry: a single-sided nibble has no bank-0 size. A count without a nibble has none to constrain. -/
def NibbleEntry.singleSided (c : Cfg) : NibbleEntry → Bool
  | .known n => c.sizeBank0 n == 0
  | .openEntry => true
  | .invalid => true

/-- The largest SIZE_TOTAL. -/
def Cfg.maxTotal (c : Cfg) : Nat := (allNibbles.map c.sizeTotal).foldr max 0

/-- The largest SIZE_BANK0. -/
def Cfg.maxBank0 (c : Cfg) : Nat := (allNibbles.map c.sizeBank0).foldr max 0

/-- R8 item 1. -/
def Cfg.okDensityRange (c : Cfg) : Bool := (List.finRange 33).all fun d => (c.densityEntry d).inRange c

/-- R8 item 2. -/
def Cfg.okDensityPins (c : Cfg) : Bool :=
  c.densityEntry 32 == .known 0xD#4 && c.densityEntry 16 == .known 0xA#4

/-- R8 item 3. -/
def Cfg.okSizeSentinels (c : Cfg) : Bool :=
  c.sizeTotal 0#4 == 0 && c.sizeTotal 2#4 == 0 && c.sizeBank0 0#4 == 0 && c.sizeBank0 2#4 == 0

/-- R8 item 4. -/
def Cfg.okSizePins (c : Cfg) : Bool :=
  c.sizeTotal 0xD#4 == 128 && c.sizeBank0 0xD#4 == 0 && c.sizeTotal 0xC#4 == 128 && c.sizeBank0 0xC#4 == 64

/-- R8 item 5. -/
def Cfg.okSizeConsistency (c : Cfg) : Bool :=
  (allNibbles.all fun n => c.sizeBank0 n == 0 || c.sizeTotal n != 0) &&
    (List.finRange 33).all fun d => (c.densityEntry d).singleSided c

/-- R8 item 6: the two largest totals fit, so every two do. -/
def Cfg.okAddressRange (c : Cfg) : Bool :=
  (c.maxTotal + c.maxTotal) * 2 ^ 20 + c.maxOffset + c.readWidth.bytes ≤ 2 ^ 32 &&
    c.maxTotal + c.maxTotal < 2 ^ 16

/-- R8 item 6 for the second rank's address (R112, D13; log 24). -/
def Cfg.okSecondRankRange (c : Cfg) : Bool :=
  (c.maxTotal + c.maxBank0) * 2 ^ 20 + c.maxOffset + c.readWidth.bytes ≤ 2 ^ 32

/-- R8 item 7. -/
def Cfg.okCodesDistinct (c : Cfg) : Bool :=
  decide [c.codeNop, c.codePre, c.codeRef, c.codeMrs, c.codeNorm].Nodup

/-- R8 item 8. -/
def Cfg.okOffsetsAligned (c : Cfg) : Bool :=
  [c.cmdOffsetNop, c.cmdOffsetPre, c.cmdOffsetRef, c.mrsOffset .s0, c.mrsOffset .s1].all
    fun o => o.toNat % c.readWidth.bytes == 0

/-- R8 item 9; DELAY_NORM is a natural, so its bound always holds. -/
def Cfg.okDelayOrder (c : Cfg) : Bool :=
  c.delayMrs < c.delayNop && c.delayRef < c.delayMrs && c.delayPre == c.delayRef && 1 ≤ c.delayRef

/-- R8 item 11, against the provider's ranges (log 5). -/
def Cfg.okProviderRange (c : Cfg) : Bool :=
  c.spdBase + 1 < c.spdDevices && c.offType < c.spdOffsets && c.offDensity < c.spdOffsets &&
    c.offBanks < c.spdOffsets && c.sidedOffGeom < c.spdOffsets

/-- Whether a constraint holds of a configuration. -/
def Cfg.ok (c : Cfg) : Constraint → Bool
  | .densityRange => c.okDensityRange
  | .densityPins => c.okDensityPins
  | .sizeSentinels => c.okSizeSentinels
  | .sizePins => c.okSizePins
  | .sizeConsistency => c.okSizeConsistency
  | .addressRange => c.okAddressRange
  | .secondRankRange => c.okSecondRankRange
  | .codesDistinct => c.okCodesDistinct
  | .offsetsAligned => c.okOffsetsAligned
  | .delayOrder => c.okDelayOrder
  | .providerRange => c.okProviderRange

/-- The constraints in the order R8 lists them. -/
def allConstraints : List Constraint :=
  [.densityRange, .densityPins, .sizeSentinels, .sizePins, .sizeConsistency, .addressRange, .secondRankRange,
    .codesDistinct, .offsetsAligned, .delayOrder, .providerRange]

/-- The first constraint a configuration fails, if it fails one (U18). -/
def Cfg.violation (c : Cfg) : Option Constraint := allConstraints.find? (fun k => !c.ok k)

end Sys2Proof
end

