-- ==== Sys2Proof/Machine/HostPort.lean ====
section
/-! DEFINITION. The host's side of the block: START (44_top_sequence R133), reset (70 R166), the output DONE (R138), what
the block does next (R134) and the placing of an operation where the next step finds it. -/

namespace Sys2Proof.Machine

/-- START (R133): in IDLE, `TR <- empty` and `PH <- 0`; ignored elsewhere (U10). -/
def State.start (s : State) : State :=
  match s.ph with
  | .idle => { s with ph := .step 0, tr := [] }
  | .step _ => s
  | .done => s

/-- The descriptor of ten free bits (R15, R27; log 9). -/
def freeDescriptor (n : Nat) : Descriptor :=
  let b := Config.freeDescriptor n
  { present := b.getLsbD 9, dual := b.getLsbD 8, density := b.extractLsb' 0 8 }

/-- Reset of the block in any state (R166, R167): RP, CT and ST stay, the block is stuck no more, and the clock does not go
back (log 8); D[0], D[1] and DIMM_START are left unspecified, which is a free value for each (log 9). -/
def State.blockReset (s : State) : State :=
  { s with
    ph := .idle
    ovs0 := false
    ovs1 := false
    tr := []
    stall := none
    now := s.now + Config.freeElapsed s.freeIdx
    d0 := freeDescriptor s.freeIdx
    d1 := freeDescriptor (s.freeIdx + 1)
    dimmStart := Config.freeDimmStart s.freeIdx
    freeIdx := s.freeIdx + 2 }

/-- What a reset leaves standing of one event: the register written, the answer or the delay used up, the time waited. -/
def State.replayEvent (s : State) (e : Event) : State :=
  match e with
  | .spd _ _ _ => s.setSpd (s.spd.after 1)
  | .regRead _ => s
  | .regWrite (.rp v) => s.setRp v
  | .regWrite (.ct v) => s.setCt v
  | .regWrite (.st v) => s.setSt v
  | .mem _ => s
  | .wait d => { s.setDelays s.delays.after with now := s.now + d }
  | .diag _ => s

/-- The same of a list of events. -/
def State.replay (s : State) (es : List Event) : State := es.foldl State.replayEvent s

/-- A reset after the first `k` events of an operation that would have led from `s` to `t`: the run cut short has issued a
prefix of its events and nothing more (R166; log 13). -/
def State.resetAfter (s : State) (k : Nat) (t : State) : State :=
  { s.replay ((t.tr.drop s.tr.length).take k) with freeIdx := t.freeIdx }.blockReset

/-- A reset within an operation that ends so from `s`. -/
def resetDuring (k : Nat) (s : State) (r : Result) : Result :=
  match r with
  | .next t => .next (s.resetAfter k t)
  | .fault f => .fault f
  | .refused why => .refused why

/-- The block's one output to its host (R138). -/
def State.doneOut (s : State) : Bool := s.ph = .done

/-- The operation PH selects (R64, R134); IDLE and DONE select none (R14, R138). -/
def State.fetch (s : State) : Option Instr :=
  match s.ph with
  | .idle => none
  | .step n => some (seqRom n)
  | .done => none

/-- What happens next. -/
inductive Turn where
  /-- The configuration is declined (R8, U18). -/
  | decline (k : Constraint)
  /-- The machine is in this state next, with no operation: a host input was taken, or the block rests. -/
  | become (s : State)
  /-- The block executes an operation from this state. -/
  | execute (i : Instr) (s : State)
  /-- The block begins an operation from this state, and a reset comes after `k` primitives. -/
  | cut (k : Nat) (i : Instr) (s : State)

/-- The operation the block goes on with: the one at PH, none in IDLE and DONE (R133, R134, R138), and none when the block
is stuck (R163). -/
def State.pending (s : State) : Option Instr :=
  match s.stall with
  | none => s.fetch
  | some _ => none

/-- The block's own turn: its pending operation, else rest. -/
def State.ownTurn (s : State) : Turn :=
  match s.pending with
  | some i => .execute i s
  | none => .become s

/-- A reset of the block within its pending operation, else where it rests (R166). -/
def State.cutTurn (s : State) (k : Nat) : Turn :=
  match s.pending with
  | some i => .cut k i s
  | none => .become s.blockReset

/-- The next turn: a configuration that is not admitted is declined (log 5), else the host's next input is taken
(log 14), else the block moves. -/
def State.turn (s : State) : Turn :=
  match s.cfg.violation with
  | some k => .decline k
  | none =>
    match s.host with
    | [] => s.ownTurn
    | .run :: rest => (s.setHost rest).ownTurn
    | .start :: rest => .become (s.setHost rest).start
    | .reset :: rest => .become (s.setHost rest).blockReset
    | .resetWithin k :: rest => (s.setHost rest).cutTurn k

/-- Puts the operation a word encodes where the next step executes it (log 18): no host input is pending, the block is not
stuck, PH is at the step the word names, or at the first step of the command a CT byte names, whose preserved bits CT then holds. -/
def placeWord (s : State) (nbits w : Nat) : State :=
  match decodeTableWord nbits w, tableFormat w with
  | none, _ => s
  | some _, .seq => ((s.setHost []).setStall none).setPh (.step (Fin.ofNat 18 w))
  | some i, .ct =>
    (((s.setHost []).setStall none).setPh (.step i.firstStep)).setCt
      (ctByte (ctCode s.ct) (ctLow (BitVec.ofNat 8 w)))

end Sys2Proof.Machine
end

