-- ==== Sys2Proof/Machine/Step.lean ====
section
/-! DEFINITION. One step of the machine (44_top_sequence R134, R140): one operation, one host input, or rest. -/

namespace Sys2Proof.Machine

/-- One step (R134, R140; log 13). -/
def step (s : State) : Host.Outcome State Fault Refusal :=
  match s.turn with
  | .decline k => .refused (.cfgNotAdmitted k)
  | .become s' => .next s'
  | .execute i s' => exec i s'
  | .cut k i s' => resetDuring k s' (exec i s')

/-- The state in which the next step executes the operation that a word of the opcode table encodes (log 18). -/
def State.withFetchWord (s : State) (nbits w : Nat) : State := placeWord s nbits w

end Sys2Proof.Machine
end

