-- ==== Sys2Proof/Safety.lean ====
section
/-! DEFINITION. The terms claims are stated in: what the environment grants, projections of the trace (00_scope R11),
what a run has done at each phase, and the invariants every step keeps. Nothing here is part of a meaning. -/

namespace Sys2Proof.Machine

/-! ## What the environment grants (R32, R163) -/

/-- The provider answers `n` more reads. -/
def SpdSource.grants (src : SpdSource) (n : Nat) : Prop :=
  match src with
  | .free => True
  | .inOrder l => n ≤ l.length
  | .image _ => True

/-- The answer to the read made after `k` others, where the provider grants it. -/
def State.answer (s : State) (k dev off : Nat) : SpdAnswer :=
  match s.spd with
  | .free => freeAnswer (s.freeIdx + k)
  | .inOrder l => l.getD k .fail
  | .image cells => imageAnswer cells dev off

/-- The next `Wait` ends. -/
def DelaySource.grants (src : DelaySource) : Prop :=
  match src with
  | .free => True
  | .inOrder l => l ≠ []

/-- The next `n` `Wait`s end. -/
def DelaySource.grantsAll (src : DelaySource) (n : Nat) : Prop :=
  match src with
  | .free => True
  | .inOrder l => n ≤ l.length

/-! ## The descriptor read, as a function of the three answers (R73 to R81) -/

/-- How many reads an `RDDESC` makes (R81). -/
def moduleReadCount (c : Cfg) (typ density : SpdAnswer) : Nat :=
  if typ = .byte c.typeSdram then (if density = .fail then 2 else 3) else 1

/-- The descriptor three answers give (R53, R75 to R79). -/
def moduleDescriptor (c : Cfg) (cs : CallSite) (typ density sided : SpdAnswer) : Descriptor :=
  if typ = .byte c.typeSdram then
    match density, sided with
    | .byte n, .byte b => { present := true, dual := (sidedTest c cs).holds b, density := n }
    | .byte _, .fail => .empty
    | .fail, _ => .empty
  else .empty

/-- The three answers an `RDDESC` from a state would see. -/
def State.typeAnswer (s : State) (i : Socket) : SpdAnswer := s.answer 0 (device s.cfg i) s.cfg.offType

/-- The answer to the density read. -/
def State.densityAnswer (s : State) (i : Socket) : SpdAnswer := s.answer 1 (device s.cfg i) s.cfg.offDensity

/-- The answer to the sidedness read of a call site. -/
def State.sidedAnswer (s : State) (i : Socket) (cs : CallSite) : SpdAnswer :=
  s.answer 2 (device s.cfg i) (sidedOffset s.cfg cs)

/-- The number of reads an `RDDESC` from a state makes (R81). -/
def State.readCount (s : State) (i : Socket) : Nat :=
  moduleReadCount s.cfg (s.typeAnswer i) (s.densityAnswer i)

/-- The `S` events of an `RDDESC`, in the order type, density, sidedness (R73, R76). -/
def State.readEvents (s : State) (i : Socket) (cs : CallSite) : List Event :=
  [Event.spd (device s.cfg i) s.cfg.offType (s.typeAnswer i),
    .spd (device s.cfg i) s.cfg.offDensity (s.densityAnswer i),
    .spd (device s.cfg i) (sidedOffset s.cfg cs) (s.sidedAnswer i cs)].take (s.readCount i)

/-- The fail-soft conditions of R144. -/
inductive FailSoft where
  | moduleAbsent
  | busReadFail
  | oversize
  | reservedNibble
  deriving DecidableEq, Repr

/-- The condition an `RDDESC` meets, if one (R144, R151): the first answer that is FAIL or a foreign type decides. -/
def readCondition (c : Cfg) (typ density sided : SpdAnswer) : Option FailSoft :=
  match typ with
  | .fail => some .busReadFail
  | .byte t =>
    if t ≠ c.typeSdram then some .moduleAbsent
    else if density = .fail ∨ sided = .fail then some .busReadFail
    else none

/-- A present module whose density count exceeds 32 (R86, R144). -/
def Descriptor.oversize (d : Descriptor) : Bool := d.present && 32 < d.density.toNat

/-- The condition `ENCRP` meets at a socket, if one (R144, R146). -/
def encodeCondition (d : Descriptor) : Option FailSoft :=
  if d.oversize then some .oversize else none

/-- The condition a nibble read back meets, if one (R144, R147). -/
def nibbleCondition (n : Nibble) : Option FailSoft :=
  if n = Config.reservedNibble then some .reservedNibble else none

/-- The events a socket adds in `ENCRP`: the diagnostic of an oversized module (R86). -/
def oversizeEvents (i : Socket) (d : Descriptor) : List Event :=
  if d.oversize then [.diag i] else []

/-- What a nibble stands for (R58). -/
inductive Region where
  | noModule
  | oneRank (sizeMb : Nat)
  | twoRanks (sizeMb secondAtMb : Nat)
  deriving DecidableEq, Repr

/-- The bases of the ranks of a module that starts at a base, in megabytes (R43, R129). -/
def Region.bases (base : Nat) : Region → List Nat
  | .noModule => []
  | .oneRank _ => [base]
  | .twoRanks _ second => [base, base + second]

/-! ## Projections of the trace (R11) -/

/-- The bytes written to CT, oldest first (R126). -/
def ctWrites (tr : List Event) : List Byte :=
  tr.filterMap fun e => match e with | .regWrite (.ct v) => some v | _ => none

/-- The bytes written to RP. -/
def rpWrites (tr : List Event) : List Byte :=
  tr.filterMap fun e => match e with | .regWrite (.rp v) => some v | _ => none

/-- The words written to ST. -/
def stWrites (tr : List Event) : List Word16 :=
  tr.filterMap fun e => match e with | .regWrite (.st v) => some v | _ => none

/-- The bytes read from RP (R123). -/
def rpReads (tr : List Event) : List Byte :=
  tr.filterMap fun e => match e with | .regRead (.rp v) => some v | _ => none

/-- The delays waited for (R128). -/
def waits (tr : List Event) : List Nat :=
  tr.filterMap fun e => match e with | .wait d => some d | _ => none

/-- What the sequencer does to CT, to the address bus and to the delay service, without the value a read of CT gives. -/
inductive CommandAct where
  | readCt
  | writeCt (v : Byte)
  | send (a : Addr)
  | hold (d : Nat)
  deriving DecidableEq, Repr

/-- The reads and writes of CT, the PHYS reads and the delays, in the order they were made (R128). -/
def commandActs (tr : List Event) : List CommandAct :=
  tr.filterMap fun e =>
    match e with
    | .regRead (.ct _) => some .readCt
    | .regWrite (.ct v) => some (.writeCt v)
    | .mem a => some (.send a)
    | .wait d => some (.hold d)
    | .regRead (.rp _) => none
    | .regRead (.st _) => none
    | .regWrite (.rp _) => none
    | .regWrite (.st _) => none
    | .spd _ _ _ => none
    | .diag _ => none

/-- Every event but a read of RP. -/
def Event.notRpRead (e : Event) : Bool :=
  match e with
  | .regRead (.rp _) => false
  | _ => true

/-- An event without the bits of CT that a run takes from before START: the whole of a value read, and bits 4:0 of a value
written (R28, R110). -/
def Event.maskCt (e : Event) : Event :=
  match e with
  | .regRead (.ct _) => .regRead (.ct 0#8)
  | .regWrite (.ct v) => .regWrite (.ct (ctByte (ctCode v) 0#5))
  | e => e

/-- The number of `SpdRead`s (R81). -/
def spdCount (tr : List Event) : Nat :=
  tr.countP fun e => match e with | .spd _ _ _ => true | _ => false

/-- The number of oversize diagnostics (R86). -/
def diagCount (tr : List Event) : Nat :=
  tr.countP fun e => match e with | .diag _ => true | _ => false

/-- The PHYS reads, each with the command code that stood in CT when it was made, where the trace shows one (R129). -/
def sentFrom (code : Option Code) : List Event → List (Option Code × Addr)
  | [] => []
  | .regWrite (.ct v) :: rest => sentFrom (some (ctCode v)) rest
  | .mem a :: rest => (code, a) :: sentFrom code rest
  | .regWrite (.rp _) :: rest => sentFrom code rest
  | .regWrite (.st _) :: rest => sentFrom code rest
  | .regRead _ :: rest => sentFrom code rest
  | .spd _ _ _ :: rest => sentFrom code rest
  | .wait _ :: rest => sentFrom code rest
  | .diag _ :: rest => sentFrom code rest

/-! ## What a run has done at each phase (R64, R134) -/

/-- The commands of a run, in their fixed order (R126). -/
def runCommands : List Command := [.nop, .pre] ++ List.replicate Config.nRefresh .ref ++ [.mrs, .norm]

/-- The commands a run has sent when PH has a value. -/
def Phase.commandsDone : Phase → List Command
  | .idle => []
  | .step n => runCommands.take (n.val - 6)
  | .done => runCommands

/-- How many operations of a run are done when PH has a value. -/
def Phase.index : Phase → Nat
  | .idle => 0
  | .step n => n.val
  | .done => 18

/-- The command a stuck `CMD.*` operation has sent without its delay; none unless the block is stuck on a `Wait` (R163). -/
def State.stalledCommands (s : State) : List Command :=
  match s.stall with
  | some .wait => (s.fetch.bind Instr.command?).toList
  | some .spdRead => []
  | none => []

/-- The commands of the run sent so far: those done, and the one the block is stuck in (R126, R163). -/
def State.commandsBegun (s : State) : List Command := s.ph.commandsDone ++ s.stalledCommands

/-- The step before step `k` is done: PH is at step `k`, after it, or DONE. -/
abbrev Phase.reached (p : Phase) (k : Nat) : Prop := k ≤ p.index

end Sys2Proof.Machine

namespace Sys2Proof

open Sys2Proof.Machine

/-! ## What an encoder output and an RP byte mean under a configuration (R58, R83 to R95, R129) -/

/-- The configuration has a nibble for a descriptor: its clamped count is not marked invalid (U5). -/
def Cfg.covers (c : Cfg) (d : Descriptor) : Prop :=
  d.present = true → c.densityEntry (clampDensity d.density) ≠ .invalid

/-- The nibble of the single-sided class of a clamped count; 0 where the configuration has none. -/
def Cfg.singleNibble (c : Cfg) (d : Fin 33) : Nibble := (c.densityNibble? d).getD 0#4

/-- The nibble `ENCRP` gives a descriptor: 0 when absent, else the table's, plus 2 when dual-sided (R84, R87, R88). -/
def Cfg.encodedNibble (c : Cfg) (d : Descriptor) : Nibble :=
  if d.present then
    (if d.dual then c.singleNibble (clampDensity d.density) + 2#4 else c.singleNibble (clampDensity d.density))
  else 0#4

/-- The region a nibble denotes by the two size tables (R58). -/
def Cfg.region (c : Cfg) (n : Nibble) : Region :=
  if c.sizeTotal n = 0 then .noModule
  else if c.sizeBank0 n = 0 then .oneRank (c.sizeTotal n)
  else .twoRanks (c.sizeTotal n) (c.sizeBank0 n)

/-- Where a socket's module starts, in megabytes (R43, R127). -/
def Cfg.socketBase (c : Cfg) (rp : Byte) : Socket → Nat
  | .s0 => 0
  | .s1 => c.sizeTotal (nibbleOf rp .s0)

/-- The bases of the populated ranks of a socket, first rank first (R129). -/
def Cfg.rankBases (c : Cfg) (rp : Byte) (i : Socket) : List Nat :=
  (c.region (nibbleOf rp i)).bases (c.socketBase rp i)

/-- The addresses a command is sent to at a socket's ranks (R112, R129). -/
def Cfg.rankReads (c : Cfg) (rp : Byte) (x : AddrCommand) (i : Socket) : List Addr :=
  (c.rankBases rp i).map (physAddr · (c.offset x i))

/-- The events of the register and address actions of a delivered command from `CT = ct` and `RP = rp` (R110, R111). -/
def Cfg.actionEvents (c : Cfg) (x : AddrCommand) (ct rp : Byte) : List Event :=
  [.regRead (.ct ct), .regWrite (.ct (ctByte (c.code x.toCommand) (ctLow ct))), .regRead (.rp rp)] ++
    (c.rankReads rp x .s0).map .mem ++ [.regRead (.rp rp)] ++ (c.rankReads rp x .s1).map .mem

/-- The events of a delivered command: its actions, then its delay (R109). -/
def Cfg.commandEvents (c : Cfg) (x : AddrCommand) (ct rp : Byte) : List Event :=
  c.actionEvents x ct rp ++ [.wait (c.delay x.toCommand)]

/-- The events of the register write of normal operation from `CT = ct` (R110, R119). -/
def Cfg.normEvents (c : Cfg) (ct : Byte) : List Event :=
  [.regRead (.ct ct), .regWrite (.ct (ctByte c.codeNorm (ctLow ct)))]

/-- The number of populated ranks (R129). -/
def Cfg.rankCount (c : Cfg) (rp : Byte) : Nat := (c.rankBases rp .s0).length + (c.rankBases rp .s1).length

/-- The number of events of a command (R142). -/
def Cfg.eventCount (c : Cfg) (rp : Byte) : Command → Nat
  | .nop => 5 + c.rankCount rp
  | .pre => 5 + c.rankCount rp
  | .ref => 5 + c.rankCount rp
  | .mrs => 5 + c.rankCount rp
  | .norm => 3

/-- The reads a command makes at the populated ranks, socket order; normal operation makes none (R119, R129). -/
def Cfg.commandReads (c : Cfg) (rp : Byte) : Command → List Addr
  | .nop => c.rankReads rp .nop .s0 ++ c.rankReads rp .nop .s1
  | .pre => c.rankReads rp .pre .s0 ++ c.rankReads rp .pre .s1
  | .ref => c.rankReads rp .ref .s0 ++ c.rankReads rp .ref .s1
  | .mrs => c.rankReads rp .mrs .s0 ++ c.rankReads rp .mrs .s1
  | .norm => []

/-- The same reads, each with the code of the command (R129). -/
def Cfg.sentBy (c : Cfg) (rp : Byte) (x : Command) : List (Option Code × Addr) :=
  (c.commandReads rp x).map (some (c.code x), ·)

/-- A command's register write and reads, from the preserved bits of CT and from RP (R109 to R111). -/
def Cfg.actsOf (c : Cfg) (low : CtLow) (rp : Byte) (x : Command) : List CommandAct :=
  [.readCt, .writeCt (ctByte (c.code x) low)] ++ (c.commandReads rp x).map .send

end Sys2Proof

namespace Sys2Proof.Machine

/-! ## Invariants -/

/-- The CT writes since START are the commands sent so far, each with the preserved bits CT still holds (R126). -/
def State.CommandLog (s : State) : Prop :=
  ctWrites s.tr = s.commandsBegun.map fun x => ctByte (s.cfg.code x) (ctLow s.ct)

/-- Since START each command done was sent by its read and its write of CT and its PHYS reads, in that order, and then
waited for its own delay, once, before the next; the command the block is stuck in has not waited (R126, R128, R163). -/
def State.WaitLog (s : State) : Prop :=
  commandActs s.tr =
      s.ph.commandsDone.flatMap (fun x => s.cfg.actsOf (ctLow s.ct) s.rp x ++ [.hold (s.cfg.delay x)]) ++
        s.stalledCommands.flatMap (s.cfg.actsOf (ctLow s.ct) s.rp) ∧
    waits s.tr = s.ph.commandsDone.map s.cfg.delay

/-- The PHYS reads since START are, command by command, those of R129. -/
def State.ReadLog (s : State) : Prop :=
  sentFrom none s.tr = s.commandsBegun.flatMap (s.cfg.sentBy s.rp)

/-- RP was read twice for each delivered command sent so far (R123), each time with the one value written to it in the run,
which is the value it still holds (R24, R90). -/
def State.LiveReadLog (s : State) : Prop :=
  rpReads s.tr = List.replicate (2 * (s.commandsBegun.filter (· ≠ .norm)).length) s.rp ∧
    (s.ph.reached 3 → rpWrites s.tr = [s.rp]) ∧ (¬ s.ph.reached 3 → rpWrites s.tr = [])

/-- RP and ST were each written once, RP at step 2 and ST at step 5, with the value they still hold (R90, R104, R141). -/
def State.EncoderLog (s : State) : Prop :=
  (s.ph.reached 3 → rpWrites s.tr = [s.rp]) ∧ (¬ s.ph.reached 3 → rpWrites s.tr = []) ∧
    (s.ph.reached 6 → stWrites s.tr = [s.st]) ∧ (¬ s.ph.reached 6 → stWrites s.tr = [])

/-- A descriptor register is EMPTY or present from the moment it was written (R15, R80). -/
def State.DescriptorsWritten (s : State) : Prop :=
  (s.ph.reached 1 → s.d0.wf = true) ∧ (s.ph.reached 2 → s.d1.wf = true)

/-- From step 3 on neither nibble of RP is the reserved one (R94, R147). -/
def State.GeometryLegal (s : State) : Prop :=
  s.ph.reached 3 → ∀ i, nibbleOf s.rp i ≠ Config.reservedNibble

/-- How many `RDDESC`s a run has done when PH has a value (R64). -/
def Phase.readersDone (p : Phase) : Nat := ([0, 1, 3, 4].filter (· < p.index)).length

/-- The events of TR by kind (R142): each `RDDESC` adds one to three reads, `ENCRP` at most two diagnostics and one write,
`ENCST` one write, each delivered command 5 events and one for each populated rank, normal operation 3. An `RDDESC` the
block is stuck in has added at most two reads, and a command it is stuck in lacks its one delay. -/
def State.EventBudget (s : State) : Prop :=
  s.ph.readersDone ≤ spdCount s.tr ∧
    spdCount s.tr ≤ 3 * s.ph.readersDone + (if s.stall = some .spdRead then 2 else 0) ∧
    diagCount s.tr ≤ (if s.ph.reached 3 then 2 else 0) ∧
    s.tr.length + s.stalledCommands.length = spdCount s.tr + diagCount s.tr + (if s.ph.reached 3 then 1 else 0) +
      (if s.ph.reached 6 then 1 else 0) + (s.commandsBegun.map (s.cfg.eventCount s.rp)).sum

/-- The block is stuck on a read only in an `RDDESC`, and on a `Wait` only in a `CMD.*` operation (R163). -/
def State.StallPlaced (s : State) : Prop :=
  (s.stall = some .spdRead → ∃ i cs, s.fetch = some (.rddesc i cs)) ∧
    (s.stall = some .wait → ∃ i x, s.fetch = some i ∧ i.command? = some x)

/-- An oversize flag is set exactly when the trace holds its diagnostic, and IDLE has an empty trace (R18, R20, R86). -/
def State.OversizeLog (s : State) : Prop :=
  (s.ph = .idle → s.tr = []) ∧ ∀ i, s.ovs i = true ↔ Event.diag i ∈ s.tr

/-- The SPD image, where there is one, is in canonical form (log 10). -/
def State.imageWf (s : State) : Bool :=
  match s.spd with
  | .free => true
  | .inOrder _ => true
  | .image cells => spdImageWf cells

/-- Two states that agree on everything but registers of unspecified reset value, up to where the block has written them
(R28): DIMM_START and ST never need agree; D[0] agrees after step 0, D[1] after step 1, RP after step 2 and the code in CT
after step 6; bits 4:0 of CT never need agree, and the traces agree but for what stood in CT before the run. -/
structure AgreeButDead (s t : State) : Prop where
  cfg : t.cfg = s.cfg
  ph : t.ph = s.ph
  ovs0 : t.ovs0 = s.ovs0
  ovs1 : t.ovs1 = s.ovs1
  now : t.now = s.now
  tr : t.tr.map Event.maskCt = s.tr.map Event.maskCt
  stall : t.stall = s.stall
  spd : t.spd = s.spd
  delays : t.delays = s.delays
  host : t.host = s.host
  freeIdx : t.freeIdx = s.freeIdx
  d0 : s.ph.reached 1 → t.d0 = s.d0
  d1 : s.ph.reached 2 → t.d1 = s.d1
  rp : s.ph.reached 3 → t.rp = s.rp
  ctCode : s.ph.reached 7 → ctCode t.ct = ctCode s.ct

/-- A state that a reset of the block may leave (R27, R166): any value in the unspecified registers, and any value in
the controller's registers, which the reset does not touch (R167). -/
structure State.AfterReset (s : State) : Prop where
  ph : s.ph = .idle
  ovs0 : s.ovs0 = false
  ovs1 : s.ovs1 = false
  tr : s.tr = []
  stall : s.stall = none

end Sys2Proof.Machine
end

