-- ==== Sys2Proof/Certificates/Slice0/Obligations.lean ====
section
/-! DEFINITION. The statements for the provers. Each docstring names the rule or the log entry it rests on. An equation
`exec i s = .next { s with … }` states the result of the operation and its frame in one: every field not named keeps its
value. The block has no memory (log 20), so there is no byte of memory for a frame to speak of. -/

open Sys2Proof Sys2Proof.Machine

/-! ## Encodings -/

/-- Decoding what the encoder writes gives the operation back, under any configuration with distinct codes and whatever
the preserved bits of CT are (R59, R60, R63, R64). -/
def Obligations.DecodeInvertsEncode : Prop :=
  ∀ (c : Cfg) (low : CtLow) (i : Instr) (rest : List Byte),
    [c.codeNop, c.codePre, c.codeRef, c.codeMrs, c.codeNorm].Nodup → i.wellFormed = true →
      decode c i.format (encode c low i ++ rest) = .ok (i, rest)

/-- A CT byte that decodes is the one the encoder writes, with its own preserved bits: no bit is dropped (R59, R60). -/
def Obligations.EncodeInvertsCtDecode : Prop :=
  ∀ (c : Cfg) (b : Byte) (rest rest' : List Byte) (i : Instr),
    decode c .ct (b :: rest) = .ok (i, rest') → encode c (ctLow b) i = [b] ∧ rest' = rest

/-- A step index decodes to the operation whose table row lists it, and to no other (R64, opcode_table.json). -/
def Obligations.StepIndexDecodesByTable : Prop :=
  ∀ (c : Cfg) (b : Byte) (i : Instr),
    decode c .seq [b] = .ok (i, []) ↔ b.toNat ∈ i.steps.map (·.val)

/-- A CT byte whose code is none of the five is refused (R69; the refusal by the decoder is the model's, log 17). -/
def Obligations.OtherCodesRefused : Prop :=
  ∀ (c : Cfg) (b : Byte) (rest : List Byte),
    (∀ x, c.code x ≠ ctCode b) → decode c .ct (b :: rest) = .error .reservedCode

/-- Words written out from the opcode table, one or more for each row (log 17 for the step indices). -/
def Obligations.TableWordsDecode : Prop :=
  decodeTableWord 8 0b00000 = some (.rddesc .s0 .geometry) ∧
    decodeTableWord 8 0b00100 = some (.rddesc .s1 .timing) ∧
    decodeTableWord 8 0b00010 = some .encrp ∧
    decodeTableWord 8 0b00101 = some .encst ∧
    decodeTableWord 8 0b10010101 = some .cmdNop ∧
    decodeTableWord 8 0b10100000 = some .cmdPre ∧
    decodeTableWord 8 0b11111111 = some .cmdRef ∧
    decodeTableWord 8 0b11001010 = some .cmdMrs ∧
    decodeTableWord 8 0b00110101 = some .cmdNorm ∧
    decodeTableWord 8 0b01000000 = none

/-- A word that decodes is placed where the next step executes it (log 18). -/
def Obligations.WithFetchWordPlacesOperation : Prop :=
  ∀ (s : State) (w : Nat) (i : Instr), s.cfg.Admitted → decodeTableWord 8 w = some i →
    step (s.withFetchWord 8 w) = exec i (s.withFetchWord 8 w)

/-! ## One step of the machine -/

/-- A step at a phase where the block is not stuck executes the operation that the step index decodes to (R64, R134). -/
def Obligations.StepRunsDecodedOperation : Prop :=
  ∀ (s : State) (n : Fin 18) (i : Instr), s.cfg.Admitted → s.ph = .step n → s.stall = none →
    decode s.cfg .seq [BitVec.ofNat 8 n.val] = .ok (i, []) →
      (s.host = [] → step s = exec i s) ∧
      ∀ rest, s.host = .run :: rest → step s = exec i { s with host := rest }

/-- With no input from the host the block rests in IDLE and in DONE, with no event and no change of state (R138). -/
def Obligations.BlockRestsOutsideRun : Prop :=
  ∀ s : State, s.cfg.Admitted → s.host = [] → s.ph = .idle ∨ s.ph = .done → step s = .next s

/-- START in IDLE empties the trace and moves PH to 0; in any other value of PH it is ignored (R133). That START is a
step of its own is log 15. -/
def Obligations.StartHonouredOnlyInIdle : Prop :=
  ∀ (s : State) (rest : List HostInput), s.cfg.Admitted → s.host = .start :: rest →
    (s.ph = .idle → step s = .next { s with host := rest, tr := [], ph := .step 0 }) ∧
    (s.ph ≠ .idle → step s = .next { s with host := rest })

/-- Reset of the block in any state, stuck or not, sets PH, OVS and TR, leaves the working registers at some value, and
leaves RP, CT, ST and everything else alone (R166, R167; log 9). That NOW does not go back over it is the model's choice,
log 8. -/
def Obligations.ResetInputClearsBlock : Prop :=
  ∀ (s : State) (rest : List HostInput), s.cfg.Admitted → s.host = .reset :: rest →
    ∃ (a b : Descriptor) (m : Word16) (n k : Nat), s.now ≤ n ∧ step s = .next { s with
      host := rest, ph := .idle, ovs0 := false, ovs1 := false, tr := [], stall := none, now := n
      d0 := a, d1 := b, dimmStart := m, freeIdx := k }

/-- The reset state has what R27 gives a value: PH in IDLE, both flags clear, an empty trace; and the configuration and
the register values that the model names (log 2, log 6, log 7, log 8). -/
def Obligations.ResetStateValues : Prop :=
  State.reset.AfterReset ∧ State.reset.cfg.Admitted ∧ State.reset.host = [] ∧
    State.reset.d0 = .empty ∧ State.reset.d1 = .empty ∧ State.reset.dimmStart = 0#16 ∧
    State.reset.rp = 0#8 ∧ State.reset.ct = 0#8 ∧ State.reset.st = 0#16 ∧ State.reset.now = 0

/-- A step refuses by the name of a constraint exactly when the configuration is not admitted, and the constraint named is
one that fails (R8, U18; log 5). What is admitted is the model's reading of R8: it asks that a second rank's address fits
(log 24), and it admits open entries of the density table (log 3) and, in REF alone, counts without an entry (log 29). -/
def Obligations.InadmissibleConfigurationRefused : Prop :=
  ∀ s : State, (¬ s.cfg.Admitted ↔ ∃ k, step s = .refused (.cfgNotAdmitted k)) ∧
    ∀ k, step s = .refused (.cfgNotAdmitted k) → s.cfg.ok k = false

/-! ## RDDESC -/

/-- `RDDESC i` completes when its reads are answered: one to three reads, in order, and D[i] as the answers say, with
EMPTY for FAIL or a foreign type; nothing else changes but PH, TR, NOW and the environment (R73 to R79). -/
def Obligations.RddescReadsModule : Prop :=
  ∀ (s : State) (i : Socket) (cs : CallSite), s.spd.grants (s.readCount i) →
    ∃ n, s.now ≤ n ∧ exec (.rddesc i cs) s = .next (State.setDesc { s with
      ph := s.ph.next
      tr := s.tr ++ s.readEvents i cs
      now := n
      spd := s.spd.after (s.readCount i)
      freeIdx := s.freeIdx + s.readCount i } i
        (moduleDescriptor s.cfg cs (s.typeAnswer i) (s.densityAnswer i) (s.sidedAnswer i cs)))

/-- The result of an `RDDESC` whose reads are answered is EMPTY exactly when one of its answers was FAIL or a foreign
type, and otherwise present with the raw count and the sidedness of the call site's test (R75, R76, R79, R144). -/
def Obligations.RddescFailSoft : Prop :=
  ∀ (s t : State) (i : Socket) (cs : CallSite), exec (.rddesc i cs) s = .next t →
    s.spd.grants (s.readCount i) →
    (readCondition s.cfg (s.typeAnswer i) (s.densityAnswer i) (s.sidedAnswer i cs) ≠ none ↔ t.desc i = .empty) ∧
    ∀ dn b, s.typeAnswer i = .byte s.cfg.typeSdram → s.densityAnswer i = .byte dn → s.sidedAnswer i cs = .byte b →
      t.desc i = { present := true, dual := (sidedTest s.cfg cs).holds b, density := dn }

/-- After an `RDDESC i` whose reads are answered the descriptor is EMPTY or has present = 1, and a present module whose
density byte is 0 is not EMPTY (R80). -/
def Obligations.RddescKeepsDescriptorInvariant : Prop :=
  ∀ (s t : State) (i : Socket) (cs : CallSite), exec (.rddesc i cs) s = .next t →
    s.spd.grants (s.readCount i) → (t.desc i = .empty ∨ (t.desc i).present = true) ∧
    ∀ b, s.typeAnswer i = .byte s.cfg.typeSdram → s.densityAnswer i = .byte 0#8 → s.sidedAnswer i cs = .byte b →
      (t.desc i).present = true ∧ (t.desc i).density = 0#8 ∧ t.desc i ≠ .empty

/-- One `RDDESC i` whose reads are answered adds one, two or three events, every one a read of device SPD_BASE + i (R74,
R81). -/
def Obligations.RddescMakesOneToThreeReads : Prop :=
  ∀ (s t : State) (i : Socket) (cs : CallSite), exec (.rddesc i cs) s = .next t →
    s.spd.grants (s.readCount i) → ∃ es : List Event, t.tr = s.tr ++ es ∧ 1 ≤ es.length ∧ es.length ≤ 3 ∧
      ∀ e ∈ es, ∃ off a, e = .spd (s.cfg.spdBase + socketIndex i) off a

/-- An `RDDESC` one of whose reads is never answered is stuck after the events of the answered ones: PH and D[i] stay, and
there is no fault (R32, R163; log 10, log 28). -/
def Obligations.RddescStuckWhenUnanswered : Prop :=
  ∀ (s : State) (i : Socket) (cs : CallSite) (l : List SpdAnswer), s.spd = .inOrder l → l.length < s.readCount i →
    ∃ n, s.now ≤ n ∧ exec (.rddesc i cs) s = .next { s with
      tr := s.tr ++ (s.readEvents i cs).take l.length
      now := n
      stall := some .spdRead
      spd := .inOrder []
      freeIdx := s.freeIdx + l.length }

/-- The default sidedness parameters make call site G identical to call site T (R77, R78). -/
def Obligations.DefaultSidednessMakesSitesEqual : Prop :=
  ∀ (s : State) (i : Socket), s.cfg.sidedOffGeom = s.cfg.offBanks → s.cfg.sidedGeom = .aboveOne →
    exec (.rddesc i .geometry) s = exec (.rddesc i .timing) s

/-! ## ENCRP -/

/-- `ENCRP` completes where the configuration has a nibble for both descriptors: RP is the two nibbles packed, each
oversize diagnostic comes before the one write, in socket order, and sets its sticky flag; nothing else changes but PH, TR
and NOW (R83 to R90). -/
def Obligations.EncrpWritesRp : Prop :=
  ∀ s : State, s.cfg.covers s.d0 → s.cfg.covers s.d1 →
    ∃ n, s.now ≤ n ∧ exec .encrp s = .next { s with
      rp := packRp (s.cfg.encodedNibble s.d0) (s.cfg.encodedNibble s.d1)
      ovs0 := s.ovs0 || s.d0.oversize
      ovs1 := s.ovs1 || s.d1.oversize
      ph := s.ph.next
      tr := s.tr ++ oversizeEvents .s0 s.d0 ++ oversizeEvents .s1 s.d1 ++
        [.regWrite (.rp (packRp (s.cfg.encodedNibble s.d0) (s.cfg.encodedNibble s.d1)))]
      now := n
      freeIdx := s.freeIdx + (oversizeEvents .s0 s.d0).length + (oversizeEvents .s1 s.d1).length + 1 }

/-- `ENCRP` is refused, by the count, exactly where the configuration marks the clamped count of a present module invalid
(R56, U5; log 3). -/
def Obligations.EncrpRefusesInvalidCount : Prop :=
  ∀ s : State, (∃ d, exec .encrp s = .refused (.densityNotInTable d)) ↔ ¬ (s.cfg.covers s.d0 ∧ s.cfg.covers s.d1)

/-- REF alone may leave a density count with no nibble: any other configuration that does is refused, by the name of R8
item 1, and under an admitted configuration `ENCRP` is refused exactly where that is REF and the clamped count of a present
module is none of 2, 4, 8, 16 and 32 (R8, R56, R87; 93 U5). What counts as REF is log 29, and its table log 2. -/
def Obligations.OnlyReferenceLacksEntries : Prop :=
  ∀ s : State,
    (s.cfg.isRef = false → (∃ d, s.cfg.densityEntry d = .invalid) →
      step s = .refused (.cfgNotAdmitted .densityRange)) ∧
    (s.cfg.Admitted → ((∃ d, exec .encrp s = .refused (.densityNotInTable d)) ↔
      s.cfg.isRef = true ∧ ∃ i, (s.desc i).present = true ∧ (s.desc i).sizeClass ∉ [2, 4, 8, 16, 32]))

/-- A density count is a unit of 4 MB. A module loses size to the clamp exactly when it is oversized. Where the source pins
the tables, the region of a module's nibble has sides of the capped count times 4 MB: one of 128 MB, or two of 64 MB. Under
REF, every region of a module with a nibble has (R6, R56, R57, R85; the last clause rests on REF's numbers, log 2). -/
def Obligations.SpansAreDensityUnits : Prop :=
  ∀ (c : Cfg) (d : Descriptor), d.present = true →
    d.sideMb = 4 * min d.density.toNat 32 ∧ (d.oversize = true ↔ d.sideMb < d.rawSideMb) ∧
    (c.Admitted → d.dual = false → d.sizeClass = 32 → c.region (c.encodedNibble d) = .oneRank d.sideMb) ∧
    (c.Admitted → d.dual = true → d.sizeClass = 16 →
      c.region (c.encodedNibble d) = .twoRanks (2 * d.sideMb) d.sideMb) ∧
    (c.isRef = true → c.covers d →
      c.region (c.encodedNibble d) = if d.dual then .twoRanks (2 * d.sideMb) d.sideMb else .oneRank d.sideMb)

/-- Absence purity: a socket's nibble in RP after `ENCRP` is 0 exactly when the socket is absent (R91). -/
def Obligations.AbsencePurity : Prop :=
  ∀ (s t : State) (i : Socket), s.cfg.Admitted → exec .encrp s = .next t →
    (nibbleOf t.rp i = 0#4 ↔ (s.desc i).present = false)

/-- Clamp idempotence: a count above 32 is encoded as a count of exactly 32 is, and the only difference is the diagnostic
and the flag (R92). -/
def Obligations.ClampIdempotence : Prop :=
  ∀ (s t : State) (i : Socket), 32 < (s.desc i).density.toNat → exec .encrp s = .next t →
    ∃ u, exec .encrp (s.setDesc i { s.desc i with density := 32#8 }) = .next u ∧ u.rp = t.rp ∧
      u.tr = s.tr ++ (t.tr.drop s.tr.length).filter (· ≠ .diag i) ∧ u.ovs i = s.ovs i ∧
      (∀ j, j ≠ i → u.ovs j = t.ovs j ∧ u.desc j = t.desc j) ∧
      u.ph = t.ph ∧ u.ct = t.ct ∧ u.st = t.st ∧ u.dimmStart = t.dimmStart

/-- Dual-sided offset law: a present dual-sided module's nibble is the single-sided one plus 2, with no wrap (R93). -/
def Obligations.DualSidedOffsetLaw : Prop :=
  ∀ (s t u : State) (i : Socket), s.cfg.Admitted → (s.desc i).present = true →
    exec .encrp (s.setDesc i { s.desc i with dual := false }) = .next t →
    exec .encrp (s.setDesc i { s.desc i with dual := true }) = .next u →
      (nibbleOf u.rp i).toNat = (nibbleOf t.rp i).toNat + 2

/-- The reserved nibble is never produced, whatever the descriptors hold: absent gives 0, single-sided a table value that
is neither 2 nor 0, dual-sided a table value plus 2 (R94). -/
def Obligations.ReservedNibbleNeverProduced : Prop :=
  ∀ (s t : State) (i : Socket), s.cfg.Admitted → exec .encrp s = .next t →
    nibbleOf t.rp i ≠ 2#4 ∧ ((s.desc i).present = false → nibbleOf t.rp i = 0#4) ∧
    ((s.desc i).present = true →
      ∃ n, s.cfg.densityNibble? (clampDensity (s.desc i).density) = some n ∧ n ≠ 2#4 ∧ n ≠ 0#4 ∧
        ((s.desc i).dual = false → nibbleOf t.rp i = n) ∧
        ((s.desc i).dual = true → (nibbleOf t.rp i).toNat = n.toNat + 2))

/-- Where every table nibble plus 2 has a bank-0 size, the sequencer finds a second rank at the nibble of a present module
exactly when the module is dual-sided (R88, R122). -/
def Obligations.SecondRankExactlyWhenDual : Prop :=
  ∀ (c : Cfg) (d : Descriptor), c.Admitted → c.covers d → d.present = true →
    (∀ k n, c.densityNibble? k = some n → c.sizeBank0 (n + 2#4) ≠ 0) →
      (c.sizeBank0 (c.encodedNibble d) ≠ 0 ↔ d.dual = true)

/-! ## ENCST -/

/-- `ENCST` completes in every state: one write of the whole word of the two classes (R96, R104). -/
def Obligations.EncstWritesSt : Prop :=
  ∀ s : State, ∃ n, s.now ≤ n ∧ exec .encst s = .next { s with
    st := s.cfg.strength s.d0.socketClass s.d1.socketClass
    ph := s.ph.next
    tr := s.tr ++ [.regWrite (.st (s.cfg.strength s.d0.socketClass s.d1.socketClass))]
    now := n
    freeIdx := s.freeIdx + 1 }

/-- The three words the source gives, under every configuration (R99). -/
def Obligations.StrengthWordsGiven : Prop :=
  ∀ c : Cfg, c.strength .absent .absent = 0x0000#16 ∧ c.strength .dual .absent = 0x3356#16 ∧
    c.strength .single .single = 0x55C6#16

/-- Bit 0 and bits 9:8 of the word, from the six flags of the descriptors (R97, R100, R101). -/
def Obligations.StrengthFixedBits : Prop :=
  ∀ (c : Cfg) (a b : Descriptor),
    (c.strength a.socketClass b.socketClass).getLsbD 0 = (a.ds && b.ds || a.ds && b.ss || a.ss && b.ds) ∧
    (a.size = true → b.size = false → (c.strength a.socketClass b.socketClass).extractLsb' 8 2 = 3#2) ∧
    (c.strength .absent .absent).extractLsb' 8 2 = 0#2 ∧ (c.strength .single .single).extractLsb' 8 2 = 1#2

/-- ST after `ENCST` depends on the six flags and on nothing else: not on the counts, RP, OVS or the old ST
(R97, R98, R107). -/
def Obligations.StrengthDependsOnFlagsOnly : Prop :=
  ∀ s t s' t' : State, s.cfg = s'.cfg → (∀ i, (s.desc i).size = (s'.desc i).size ∧
    (s.desc i).ds = (s'.desc i).ds ∧ (s.desc i).ss = (s'.desc i).ss) →
    exec .encst s = .next t → exec .encst s' = .next t' → t.st = t'.st

/-- Every truth table that R8 item 10 admits is the table of some configuration, so holding the open bits alone leaves
none out (R8, R98, R102; log 4). -/
def Obligations.EveryStrengthTableRepresented : Prop :=
  ∀ (c : Cfg) (f : SocketClass → SocketClass → Word16),
    f .absent .absent = 0x0000#16 → f .dual .absent = 0x3356#16 → f .single .single = 0x55C6#16 →
    (∀ a b, (f a b).getLsbD 0 = true ↔
      (a, b) = (.dual, .dual) ∨ (a, b) = (.dual, .single) ∨ (a, b) = (.single, .dual)) →
    (f .single .absent).extractLsb' 8 2 = 3#2 →
      ∃ o : StrengthOpen, ∀ a b, Cfg.strength { c with strengthOpen := o } a b = f a b

/-! ## CMD.* -/

/-- The four delivered commands complete when their `Wait` ends: CT takes the code above its preserved bits, RP is read
for each socket, every populated rank gets one read at its address, the delay elapses; nothing else changes but
DIMM_START, PH, TR and NOW (R109 to R118, R121 to R124). -/
def Obligations.DeliveredCommandsComplete : Prop :=
  ∀ p ∈ [(Instr.cmdNop, AddrCommand.nop), (.cmdPre, .pre), (.cmdRef, .ref), (.cmdMrs, .mrs)],
    ∀ s : State, s.cfg.Admitted → s.delays.grants →
      ∃ n, s.now + s.cfg.delay p.2.toCommand ≤ n ∧ exec p.1 s = .next { s with
        ct := ctByte (s.cfg.code p.2.toCommand) (ctLow s.ct)
        dimmStart := BitVec.ofNat 16 (s.cfg.sizeTotal (nibbleOf s.rp .s0) + s.cfg.sizeTotal (nibbleOf s.rp .s1))
        ph := s.ph.next
        tr := s.tr ++ s.cfg.commandEvents p.2 s.ct s.rp
        now := n
        delays := s.delays.after
        freeIdx := s.freeIdx + (s.cfg.commandEvents p.2 s.ct s.rp).length }

/-- `CMD.NORM` completes when its `Wait` ends, with the register write and the delay and no access for a module
(R109, R110, R119). -/
def Obligations.NormalCommandCompletes : Prop :=
  ∀ s : State, s.delays.grants →
    ∃ n, s.now + s.cfg.delayNorm ≤ n ∧ exec .cmdNorm s = .next { s with
      ct := ctByte s.cfg.codeNorm (ctLow s.ct)
      ph := s.ph.next
      tr := s.tr ++ s.cfg.normEvents s.ct ++ [.wait s.cfg.delayNorm]
      now := n
      delays := s.delays.after
      freeIdx := s.freeIdx + 3 }

/-- A command whose `Wait` never ends is stuck after its register write and its reads: PH stays, and there is no fault
(R163; log 11, log 28). -/
def Obligations.CommandsStuckWhenWaitNeverEnds : Prop :=
  (∀ p ∈ [(Instr.cmdNop, AddrCommand.nop), (.cmdPre, .pre), (.cmdRef, .ref), (.cmdMrs, .mrs)],
    ∀ s : State, s.cfg.Admitted → ¬ s.delays.grants →
      ∃ n, s.now ≤ n ∧ exec p.1 s = .next { s with
        ct := ctByte (s.cfg.code p.2.toCommand) (ctLow s.ct)
        dimmStart := BitVec.ofNat 16 (s.cfg.sizeTotal (nibbleOf s.rp .s0) + s.cfg.sizeTotal (nibbleOf s.rp .s1))
        tr := s.tr ++ s.cfg.actionEvents p.2 s.ct s.rp
        now := n
        stall := some .wait
        freeIdx := s.freeIdx + (s.cfg.actionEvents p.2 s.ct s.rp).length }) ∧
  ∀ s : State, ¬ s.delays.grants →
    ∃ n, s.now ≤ n ∧ exec .cmdNorm s = .next { s with
      ct := ctByte s.cfg.codeNorm (ctLow s.ct)
      tr := s.tr ++ s.cfg.normEvents s.ct
      now := n
      stall := some .wait
      freeIdx := s.freeIdx + 2 }

/-- Only mode-register-set distinguishes the sockets: its socket 1 offset has the masked bits complemented (R66, R114). -/
def Obligations.OffsetsByCommandAndSocket : Prop :=
  ∀ (c : Cfg) (i : Socket), c.offset .nop i = c.cmdOffsetNop ∧ c.offset .pre i = c.cmdOffsetPre ∧
    c.offset .ref i = c.cmdOffsetRef ∧ c.offset .mrs .s0 = c.mrsOff0 ∧
    ∀ k, (c.offset .mrs .s1).getLsbD k = (c.mrsOff0.getLsbD k ^^ c.mrsComplMask.getLsbD k)

/-- The address sent to a rank is its base in bytes plus the offset, exactly, with no wrap, and is a multiple of the read
width (R39, R62, R112; log 24 for the second rank). -/
def Obligations.CommandAddressesExactAndAligned : Prop :=
  ∀ (c : Cfg) (rp : Byte) (x : AddrCommand) (i : Socket), c.Admitted → ∀ base ∈ c.rankBases rp i,
    (physAddr base (c.offset x i)).toNat = base * 2 ^ 20 + (c.offset x i).toNat ∧
    c.readWidth.bytes ∣ (physAddr base (c.offset x i)).toNat ∧
    (physAddr base (c.offset x i)).toNat + c.readWidth.bytes ≤ 2 ^ 32

/-- The running base after each socket's turn of a delivery is the sum of the spans so far, by the full size and never by
the bank-0 size; it never decreases, and in bytes it is `SIZE_TOTAL[n0] * 2^20` after socket 0 (R121, R127). -/
def Obligations.RunningBaseIsSumOfSpans : Prop :=
  ∀ (s : State) (x : AddrCommand), s.cfg.Admitted →
    (deliverSocket x .s0 (s.setDimmStart 0#16)).dimmStart.toNat = s.cfg.sizeTotal (nibbleOf s.rp .s0) ∧
    (deliver x s).dimmStart.toNat = s.cfg.sizeTotal (nibbleOf s.rp .s0) + s.cfg.sizeTotal (nibbleOf s.rp .s1) ∧
    (deliverSocket x .s0 (s.setDimmStart 0#16)).dimmStart.toNat ≤ (deliver x s).dimmStart.toNat ∧
    (physAddr (deliverSocket x .s0 (s.setDimmStart 0#16)).dimmStart.toNat 0#32).toNat =
      s.cfg.sizeTotal (nibbleOf s.rp .s0) * 2 ^ 20

/-- A reserved nibble read back is treated exactly as nibble 0: every event but the reads of RP is the same, there are as
many of those, and every register but RP is the same; no flag is set (R67, R144, R147). -/
def Obligations.ReservedNibbleReadBackAsAbsent : Prop :=
  ∀ i ∈ [Instr.cmdNop, .cmdPre, .cmdRef, .cmdMrs, .cmdNorm], ∀ (s t : State) (n : Nibble), s.cfg.Admitted →
    exec i s = .next t → ∀ rp,
      s.rp = packRp 2#4 n ∧ rp = packRp 0#4 n ∨ s.rp = packRp n 2#4 ∧ rp = packRp n 0#4 ∨
        s.rp = packRp 2#4 2#4 ∧ rp = packRp 0#4 0#4 →
      ∃ (tr : List Event) (now : Nat), exec i { s with rp := rp } = .next { t with rp := rp, tr := tr, now := now } ∧
        tr.filter Event.notRpRead = t.tr.filter Event.notRpRead ∧ tr.length = t.tr.length ∧
        t.ovs0 = s.ovs0 ∧ t.ovs1 = s.ovs1

/-! ## Invariants that every step keeps -/

/-- Sequence completeness: the CT writes of a run are the twelve commands in their fixed order, whatever modules are
present (R126). -/
def Obligations.CommandLogKept : Prop :=
  ∀ s t : State, s.CommandLog → step s = .next t → t.CommandLog

/-- Each command of a run is sent by its read and write of CT and its reads, and is then followed by its own delay, once,
before the next; a command the block is stuck in has not waited (R126, R128, R163). -/
def Obligations.WaitLogKept : Prop :=
  ∀ s t : State, s.WaitLog → step s = .next t → t.WaitLog

/-- Every populated rank gets each delivered command once, at its own address while CT holds that command's code, and no
other address is ever read (R129). -/
def Obligations.ReadLogKept : Prop :=
  ∀ s t : State, s.ReadLog → step s = .next t → t.ReadLog

/-- RP is read live, twice for each delivered command, and always reads as `ENCRP` wrote it, in the one write of RP of the
run (R24, R49, R90, R123). -/
def Obligations.LiveReadLogKept : Prop :=
  ∀ s t : State, s.LiveReadLog → step s = .next t → t.LiveReadLog

/-- RP and ST are written once each in a run, RP at step 2 and ST at step 5 (R90, R104, R137, R141). -/
def Obligations.EncoderLogKept : Prop :=
  ∀ s t : State, s.EncoderLog → step s = .next t → t.EncoderLog

/-- The descriptor invariant holds from the moment each register is written (R15, R80). -/
def Obligations.DescriptorsWrittenKept : Prop :=
  ∀ s t : State, s.DescriptorsWritten → step s = .next t → t.DescriptorsWritten

/-- From step 3 on RP holds no reserved nibble (R94, R147). -/
def Obligations.GeometryLegalKept : Prop :=
  ∀ s t : State, s.GeometryLegal → step s = .next t → t.GeometryLegal

/-- An oversize flag tells exactly whether the run has emitted its diagnostic (R18, R86, R141). -/
def Obligations.OversizeLogKept : Prop :=
  ∀ s t : State, s.OversizeLog → step s = .next t → t.OversizeLog

/-- The events of a run are those R142 counts, but for what a stuck operation lacks. -/
def Obligations.EventBudgetKept : Prop :=
  ∀ s t : State, s.EventBudget → step s = .next t → t.EventBudget

/-- Every invariant holds at the reset state. -/
def Obligations.InvariantsHoldAtReset : Prop :=
  State.reset.CommandLog ∧ State.reset.WaitLog ∧ State.reset.ReadLog ∧ State.reset.LiveReadLog ∧
    State.reset.EncoderLog ∧ State.reset.DescriptorsWritten ∧ State.reset.GeometryLegal ∧
    State.reset.OversizeLog ∧ State.reset.EventBudget ∧ State.reset.StallPlaced

/-! ## Rules of the whole machine -/

/-- No step writes the configuration, and none disturbs the canonical form of an SPD image (R25, R34; log 1, log 10). -/
def Obligations.ConfigurationNeverWritten : Prop :=
  ∀ s t : State, step s = .next t → t.cfg = s.cfg ∧ (s.imageWf = true → t.imageWf = true)

/-- NOW never decreases, over a reset of the block too (R19; log 8). -/
def Obligations.ClockNeverGoesBack : Prop :=
  ∀ s t : State, step s = .next t → s.now ≤ t.now

/-- The preserved bits of CT are never changed, by an operation or by a host input (R22, R68, R110, R167). -/
def Obligations.PreservedBitsNeverChange : Prop :=
  ∀ s t : State, step s = .next t → ctLow t.ct = ctLow s.ct

/-- PH stays in an operation the block is stuck in, else moves one further, or is moved by START or reset, and by nothing
else (R14, R133, R134, R163, R166). -/
def Obligations.PhaseMovesByOne : Prop :=
  ∀ s t : State, step s = .next t →
    (∃ rest, (s.host = .reset :: rest ∨ ∃ k, s.host = .resetWithin k :: rest) ∧ t.ph = .idle) ∨
    (∃ rest, s.host = .start :: rest ∧ (s.ph = .idle ∧ t.ph = .step 0 ∨ s.ph ≠ .idle ∧ t.ph = s.ph)) ∨
    (t.stall ≠ none ∧ t.ph = s.ph) ∨ t.ph = s.ph.next

/-- Each register is written only at its own steps: RP at 2, ST at 5, CT from 6 on, DIMM_START at 6 to 16, D[0] at 0 and 3,
D[1] at 1 and 4, a flag set only at 2, where the step takes no reset (R15, R17, R18, R21 to R23, R137). -/
def Obligations.RegistersWrittenOnlyAtTheirSteps : Prop :=
  ∀ s t : State, step s = .next t → s.host.head? ≠ some .reset → (∀ k, s.host.head? ≠ some (.resetWithin k)) →
    (t.rp ≠ s.rp → s.ph = .step 2) ∧ (t.st ≠ s.st → s.ph = .step 5) ∧
    (t.ct ≠ s.ct → ∃ n, s.ph = .step n ∧ 6 ≤ n.val) ∧
    (t.dimmStart ≠ s.dimmStart → ∃ n, s.ph = .step n ∧ 6 ≤ n.val ∧ n.val ≤ 16) ∧
    (t.d0 ≠ s.d0 → s.ph = .step 0 ∨ s.ph = .step 3) ∧ (t.d1 ≠ s.d1 → s.ph = .step 1 ∨ s.ph = .step 4) ∧
    (∀ i, t.ovs i ≠ s.ovs i → s.ph = .step 2 ∧ t.ovs i = true)

/-- No register of unspecified reset value is read before the block has written it, but CT, whose bits 4:0 are read only to
be written back: states that differ only in such registers step alike, for ever, each with its own bits 4:0 of CT; ST is
never read (R28). -/
def Obligations.DeadRegistersNeverRead : Prop :=
  ∀ s s' : State, AgreeButDead s s' →
    (∀ t, step s = .next t → ∃ t', step s' = .next t' ∧ AgreeButDead t t' ∧
      ctLow t.ct = ctLow s.ct ∧ ctLow t'.ct = ctLow s'.ct) ∧
    ∀ r, step s = .refused r → step s' = .refused r

/-- A run reaches DONE in eighteen steps, provided every read is answered, every `Wait` ends and no count is marked
invalid, and the clock has then advanced by at least the sum of the delays (R128, R134, R141). -/
def Obligations.RunReachesDone : Prop :=
  ∀ s : State, s.cfg.Admitted → s.host = [] → s.ph = .step 0 → s.stall = none → s.spd.grants 12 → s.delays.grantsAll 12 →
    (∀ d, s.cfg.densityEntry d ≠ .invalid) →
      ∃ t : State, Sys2Proof.core.run 18 s = .next t ∧ t.ph = .done ∧
        s.now + s.cfg.delayNop + s.cfg.delayPre + 8 * s.cfg.delayRef + s.cfg.delayMrs + s.cfg.delayNorm ≤ t.now

/-! ## The block when it is stuck or reset within an operation -/

/-- The block is stuck on a read only in an `RDDESC` and on a `Wait` only in a `CMD.*` operation (R163). -/
def Obligations.StallPlacedKept : Prop :=
  ∀ s t : State, s.StallPlaced → step s = .next t → t.StallPlaced

/-- A stuck block has no step: it changes nothing, with no input or when it is let run, and START is ignored, until a reset,
which moves it to IDLE and is not lost (R133, R163, R166; log 28). -/
def Obligations.StuckBlockWaitsForReset : Prop :=
  ∀ (s : State) (n : Fin 18), s.cfg.Admitted → s.ph = .step n → s.stall ≠ none →
    (s.host = [] → step s = .next s) ∧
    ∀ rest, (s.host = .run :: rest ∨ s.host = .start :: rest → step s = .next { s with host := rest }) ∧
      (s.host = .reset :: rest ∨ (∃ k, s.host = .resetWithin k :: rest) →
        ∃ t, step s = .next t ∧ t.AfterReset ∧ t.rp = s.rp ∧ t.ct = s.ct ∧ t.st = s.st ∧ t.host = rest)

/-- A reset within an operation: the run cut short has issued a prefix of the operation's events and nothing more, RP, CT
and ST are as the writes of that prefix leave them, and the block is as after any reset (R166, R167; log 13); NOW does not
go back over it, which is log 8. -/
def Obligations.ResetWithinOperation : Prop :=
  ∀ (s t : State) (n : Fin 18) (k : Nat) (rest : List HostInput), s.cfg.Admitted → s.ph = .step n → s.stall = none →
    s.host = .resetWithin k :: rest → exec (seqRom n) { s with host := rest } = .next t →
      ∃ (es : List Event) (u : State), t.tr = s.tr ++ es ∧ step s = .next u ∧ u.AfterReset ∧
        u.rp = (rpWrites (es.take k)).getLastD s.rp ∧ u.ct = (ctWrites (es.take k)).getLastD s.ct ∧
        u.st = (stWrites (es.take k)).getLastD s.st ∧ s.now + (waits (es.take k)).sum ≤ u.now ∧
        u.spd = s.spd.after (spdCount (es.take k)) ∧ u.cfg = s.cfg ∧ u.host = rest
end

