-- ==== Sys2Proof/Laws/Admission.lean ====
section
/-! SUPPORT. The check of a configuration agrees with `Cfg.Admitted` (00_scope R8), and what an admitted configuration
gives the meanings. -/

namespace Sys2Proof

theorem mem_allNibbles (n : Nibble) : n ∈ allNibbles := by
  simp only [allNibbles, List.mem_map]
  exact ⟨n.toFin, List.mem_finRange _, rfl⟩

theorem all_allNibbles (p : Nibble → Bool) : allNibbles.all p = true ↔ ∀ n, p n = true := by
  simp only [List.all_eq_true]
  exact ⟨fun h n => h n (mem_allNibbles n), fun h n _ => h n⟩

theorem foldr_max_le (l : List Nat) (b : Nat) : l.foldr max 0 ≤ b ↔ ∀ x ∈ l, x ≤ b := by
  induction l with
  | nil => simp
  | cons a l ih => simp [ih]

theorem le_foldr_max {l : List Nat} {x : Nat} (h : x ∈ l) : x ≤ l.foldr max 0 :=
  (foldr_max_le l _).mp le_rfl x h

theorem foldr_max_mem : ∀ (l : List Nat), l ≠ [] → l.foldr max 0 ∈ l
  | [a], _ => by simp
  | a :: b :: l, _ => by
    have ih := foldr_max_mem (b :: l) (by simp)
    rw [List.foldr_cons]
    rcases le_total a ((b :: l).foldr max 0) with h | h
    · rw [max_eq_right h]; exact List.mem_cons_of_mem _ ih
    · rw [max_eq_left h]; exact List.mem_cons_self

theorem Cfg.sizeTotal_le_max (c : Cfg) (n : Nibble) : c.sizeTotal n ≤ c.maxTotal :=
  le_foldr_max (List.mem_map_of_mem (mem_allNibbles n))

theorem Cfg.sizeBank0_le_max (c : Cfg) (n : Nibble) : c.sizeBank0 n ≤ c.maxBank0 :=
  le_foldr_max (List.mem_map_of_mem (mem_allNibbles n))

theorem allNibbles_ne_nil : allNibbles ≠ [] := List.ne_nil_of_mem (mem_allNibbles 0#4)

theorem Cfg.maxTotal_attained (c : Cfg) : ∃ n, c.sizeTotal n = c.maxTotal := by
  have h := foldr_max_mem (allNibbles.map c.sizeTotal) (by simpa using allNibbles_ne_nil)
  obtain ⟨n, -, hn⟩ := List.mem_map.mp h
  exact ⟨n, hn⟩

theorem Cfg.maxBank0_attained (c : Cfg) : ∃ n, c.sizeBank0 n = c.maxBank0 := by
  have h := foldr_max_mem (allNibbles.map c.sizeBank0) (by simpa using allNibbles_ne_nil)
  obtain ⟨n, -, hn⟩ := List.mem_map.mp h
  exact ⟨n, hn⟩

theorem NibbleEntry.inRange_iff (c : Cfg) (e : NibbleEntry) :
    e.inRange c = true ↔ (∀ n, e = .known n → n.Encodable) ∧ (e = .invalid → c.isRef = true) := by
  cases e <;> simp [NibbleEntry.inRange, Nibble.Encodable]

theorem NibbleEntry.singleSided_iff (c : Cfg) (e : NibbleEntry) :
    e.singleSided c = true ↔ ∀ n, e = .known n → c.sizeBank0 n = 0 := by
  cases e <;> simp [NibbleEntry.singleSided]

/-- Every constraint holds exactly when the check finds none that fails. -/
theorem Cfg.violation_eq_none (c : Cfg) : c.violation = none ↔ ∀ k, c.ok k = true := by
  simp only [Cfg.violation, List.find?_eq_none, Bool.not_eq_true, Bool.not_eq_false']
  refine ⟨fun h k => h k (by cases k <;> simp [allConstraints]), fun h k _ => h k⟩

theorem Cfg.okDensityRange_iff (c : Cfg) :
    c.okDensityRange = true ↔ (∀ d n, c.densityEntry d = .known n → n.Encodable) ∧
      ∀ d, c.densityEntry d = .invalid → c.isRef = true := by
  simp [Cfg.okDensityRange, NibbleEntry.inRange_iff, forall_and]

theorem Cfg.okSizeConsistency_iff (c : Cfg) :
    c.okSizeConsistency = true ↔ (∀ n, c.sizeBank0 n ≠ 0 → c.sizeTotal n ≠ 0) ∧
      ∀ d n, c.densityEntry d = .known n → c.sizeBank0 n = 0 := by
  rw [Cfg.okSizeConsistency, Bool.and_eq_true, all_allNibbles]
  simp only [List.all_eq_true, NibbleEntry.singleSided_iff, List.mem_finRange, true_implies, Bool.or_eq_true,
    beq_iff_eq, bne_iff_ne, ne_eq, or_iff_not_imp_left]

theorem Cfg.okAddressRange_iff (c : Cfg) :
    c.okAddressRange = true ↔ ∀ a b,
      (c.sizeTotal a + c.sizeTotal b) * 2 ^ 20 + c.maxOffset + c.readWidth.bytes ≤ 2 ^ 32 ∧
        c.sizeTotal a + c.sizeTotal b < 2 ^ 16 := by
  simp only [Cfg.okAddressRange, Bool.and_eq_true, decide_eq_true_eq]
  constructor
  · rintro ⟨h1, h2⟩ a b
    have ha := c.sizeTotal_le_max a
    have hb := c.sizeTotal_le_max b
    exact ⟨le_trans (by gcongr) h1, lt_of_le_of_lt (by gcongr) h2⟩
  · intro h
    obtain ⟨n, hn⟩ := c.maxTotal_attained
    rw [← hn]
    exact h n n

theorem Cfg.okSecondRankRange_iff (c : Cfg) :
    c.okSecondRankRange = true ↔ ∀ a b,
      (c.sizeTotal a + c.sizeBank0 b) * 2 ^ 20 + c.maxOffset + c.readWidth.bytes ≤ 2 ^ 32 := by
  simp only [Cfg.okSecondRankRange, decide_eq_true_eq]
  constructor
  · intro h a b
    have ha := c.sizeTotal_le_max a
    have hb := c.sizeBank0_le_max b
    exact le_trans (by gcongr) h
  · intro h
    obtain ⟨n, hn⟩ := c.maxTotal_attained
    obtain ⟨m, hm⟩ := c.maxBank0_attained
    rw [← hn, ← hm]
    exact h n m

theorem Cfg.okOffsetsAligned_iff (c : Cfg) :
    c.okOffsetsAligned = true ↔ ∀ x i, c.readWidth.bytes ∣ (c.offset x i).toNat := by
  simp only [Cfg.okOffsetsAligned, List.all_eq_true, List.mem_cons, List.not_mem_nil, or_false,
    forall_eq_or_imp, forall_eq, beq_iff_eq, ← Nat.dvd_iff_mod_eq_zero]
  constructor
  · rintro ⟨h1, h2, h3, h4, h5⟩ x i
    cases x <;> cases i <;> assumption
  · intro h
    exact ⟨h .nop .s0, h .pre .s0, h .ref .s0, h .mrs .s0, h .mrs .s1⟩

/-- The check passes exactly on the admitted configurations (R8, U18). -/
theorem Cfg.violation_eq_none_iff_admitted (c : Cfg) : c.violation = none ↔ c.Admitted := by
  rw [Cfg.violation_eq_none]
  constructor
  · intro h
    exact {
      densityRange := c.okDensityRange_iff.mp (h .densityRange)
      densityPins := by simpa [Cfg.ok, Cfg.okDensityPins] using h .densityPins
      sizeSentinels := by simpa [Cfg.ok, Cfg.okSizeSentinels, and_assoc] using h .sizeSentinels
      sizePins := by simpa [Cfg.ok, Cfg.okSizePins, and_assoc] using h .sizePins
      sizeConsistency := c.okSizeConsistency_iff.mp (h .sizeConsistency)
      addressRange := c.okAddressRange_iff.mp (h .addressRange)
      secondRankRange := c.okSecondRankRange_iff.mp (h .secondRankRange)
      codesDistinct := of_decide_eq_true (h .codesDistinct)
      offsetsAligned := c.okOffsetsAligned_iff.mp (h .offsetsAligned)
      delayOrder := by simpa [Cfg.ok, Cfg.okDelayOrder, and_assoc] using h .delayOrder
      providerRange := by simpa [Cfg.ok, Cfg.okProviderRange, and_assoc] using h .providerRange }
  · intro h k
    cases k with
    | densityRange => exact c.okDensityRange_iff.mpr h.densityRange
    | densityPins => simpa [Cfg.ok, Cfg.okDensityPins] using h.densityPins
    | sizeSentinels => simpa [Cfg.ok, Cfg.okSizeSentinels, and_assoc] using h.sizeSentinels
    | sizePins => simpa [Cfg.ok, Cfg.okSizePins, and_assoc] using h.sizePins
    | sizeConsistency => exact c.okSizeConsistency_iff.mpr h.sizeConsistency
    | addressRange => exact c.okAddressRange_iff.mpr h.addressRange
    | secondRankRange => exact c.okSecondRankRange_iff.mpr h.secondRankRange
    | codesDistinct => exact decide_eq_true h.codesDistinct
    | offsetsAligned => exact c.okOffsetsAligned_iff.mpr h.offsetsAligned
    | delayOrder => simpa [Cfg.ok, Cfg.okDelayOrder, and_assoc] using h.delayOrder
    | providerRange => simpa [Cfg.ok, Cfg.okProviderRange, and_assoc] using h.providerRange

/-! ## REF (R7) -/

/-- Configurations with the same given part have the same three geometry tables. -/
theorem Cfg.tables_of_givenPart {c r : Cfg} (h : c.givenPart = r.givenPart) :
    c.densityToNibble = r.densityToNibble ∧ c.sizeTotalTable = r.sizeTotalTable ∧
      c.sizeBank0Table = r.sizeBank0Table := by
  simp only [Cfg.givenPart, Cfg.mk.injEq] at h
  exact ⟨h.2.2.2.2.2.2.2.1, h.2.2.2.2.2.2.2.2.1, h.2.2.2.2.2.2.2.2.2.1⟩

/-- REF's three geometry tables, whichever sidedness it takes (R56, R57). -/
theorem Cfg.tables_of_isRef {c : Cfg} (h : c.isRef = true) :
    c.densityToNibble = Cfg.ref.densityToNibble ∧ c.sizeTotalTable = Cfg.ref.sizeTotalTable ∧
      c.sizeBank0Table = Cfg.ref.sizeBank0Table := by
  simp only [Cfg.isRef, Bool.or_eq_true, decide_eq_true_eq] at h
  exact h.elim Cfg.tables_of_givenPart Cfg.tables_of_givenPart

/-- Under REF the counts with an entry are the five of R56. -/
theorem Cfg.densityEntry_invalid_of_isRef {c : Cfg} (h : c.isRef = true) (d : Fin 33) :
    c.densityEntry d = .invalid ↔ d.val ∉ [2, 4, 8, 16, 32] := by
  rw [Cfg.densityEntry, (Cfg.tables_of_isRef h).1]
  revert d
  decide

/-- Under REF a nibble denotes what it does under REF's size tables (R57). -/
theorem Cfg.sizes_of_isRef {c : Cfg} (h : c.isRef = true) :
    c.sizeTotal = Cfg.ref.sizeTotal ∧ c.sizeBank0 = Cfg.ref.sizeBank0 :=
  ⟨funext fun n => congrArg (·.get n.toFin) (Cfg.tables_of_isRef h).2.1,
    funext fun n => congrArg (·.get n.toFin) (Cfg.tables_of_isRef h).2.2⟩

/-- Under REF a count has the nibble that R56 lists for it, or none. -/
theorem Cfg.densityNibble_of_isRef {c : Cfg} (h : c.isRef = true) (d : Fin 33) :
    c.densityNibble? d = Cfg.ref.densityNibble? d := by
  have entry : c.densityEntry d = Cfg.ref.densityEntry d := congrArg (·.get d) (Cfg.tables_of_isRef h).1
  have nibble : c.openNibble d = Cfg.ref.openNibble d := by
    rw [Cfg.openNibble, Cfg.openNibble, Cfg.openCandidates, Cfg.openCandidates, (Cfg.sizes_of_isRef h).2]
  rw [Cfg.densityNibble?, Cfg.densityNibble?, entry, nibble]

/-- Every admitted configuration but REF has a nibble for every count (R8 item 1, R37). -/
theorem Cfg.Admitted.densityEntry_ne_invalid {c : Cfg} (h : c.Admitted) (hr : c.isRef = false) (d : Fin 33) :
    c.densityEntry d ≠ .invalid := fun he => by simp [h.densityRange.2 d he] at hr

/-- A configuration other than REF that leaves a count with no nibble fails item 1, which is checked first (R8, U18). -/
theorem Cfg.violation_of_invalid {c : Cfg} (hr : c.isRef = false) {d : Fin 33} (hd : c.densityEntry d = .invalid) :
    c.violation = some .densityRange := by
  have ho : c.okDensityRange = false := by
    rw [← Bool.not_eq_true, Cfg.okDensityRange_iff]
    exact fun h => by simp [h.2 d hd] at hr
  simp [Cfg.violation, allConstraints, Cfg.ok, ho]

/-- Whatever an open entry holds, it is one of the nibbles R8 item 1 admits. -/
theorem Cfg.openNibble_encodable (c : Cfg) (d : Fin 33) : (c.openNibble d).Encodable := by
  have key : ∀ l : List Nibble, (∀ n ∈ l, n.Encodable) → ∀ k, (l.getD k 13#4).Encodable := by
    intro l hl k
    rw [List.getD_eq_getElem?_getD]
    rcases h : l[k]? with _ | n
    · exact Or.inr (by decide)
    · exact hl n (List.mem_of_getElem? h)
  refine key _ (fun n hn => ?_) _
  have := List.mem_of_mem_filter hn
  simp only [List.mem_cons, List.not_mem_nil, or_false] at this
  rcases this with rfl | rfl | rfl | rfl | rfl | rfl | rfl | rfl | rfl | rfl | rfl | rfl <;>
    simp [Nibble.Encodable]

/-- Whatever an open entry holds has no bank-0 size, as R8 item 5 asks of a single-sided nibble. -/
theorem Cfg.openNibble_singleSided {c : Cfg} (h : c.Admitted) (d : Fin 33) : c.sizeBank0 (c.openNibble d) = 0 := by
  have key : ∀ l : List Nibble, (∀ n ∈ l, c.sizeBank0 n = 0) → ∀ k, c.sizeBank0 (l.getD k 13#4) = 0 := by
    intro l hl k
    rw [List.getD_eq_getElem?_getD]
    rcases h' : l[k]? with _ | n
    · exact h.sizePins.2.1
    · exact hl n (List.mem_of_getElem? h')
  exact key _ (fun n hn => by simpa using (List.mem_filter.mp hn).2) _

/-- A nibble the table of an admitted configuration gives is one R8 item 1 admits. -/
theorem Cfg.densityNibble_encodable {c : Cfg} (h : c.Admitted) {d : Fin 33} {n : Nibble}
    (hn : c.densityNibble? d = some n) : n.Encodable := by
  unfold Cfg.densityNibble? at hn
  split at hn
  · next he => cases hn; exact h.densityRange.1 _ _ he
  · next he => cases hn; exact c.openNibble_encodable d
  · cases hn

end Sys2Proof
end

