-- ==== Sys2Proof/Laws/State.lean ====
section
/-! SUPPORT. What each update of State does to each field: one lemma for a field and an update, so that no later proof
unfolds a record update. -/

namespace Sys2Proof.Machine

/-! ### setPh -/

@[simp] theorem State.setPh_cfg (s : State) (p : Phase) : (s.setPh p).cfg = s.cfg := rfl
@[simp] theorem State.setPh_ph (s : State) (p : Phase) : (s.setPh p).ph = p := rfl
@[simp] theorem State.setPh_d0 (s : State) (p : Phase) : (s.setPh p).d0 = s.d0 := rfl
@[simp] theorem State.setPh_d1 (s : State) (p : Phase) : (s.setPh p).d1 = s.d1 := rfl
@[simp] theorem State.setPh_dimmStart (s : State) (p : Phase) : (s.setPh p).dimmStart = s.dimmStart := rfl
@[simp] theorem State.setPh_ovs0 (s : State) (p : Phase) : (s.setPh p).ovs0 = s.ovs0 := rfl
@[simp] theorem State.setPh_ovs1 (s : State) (p : Phase) : (s.setPh p).ovs1 = s.ovs1 := rfl
@[simp] theorem State.setPh_rp (s : State) (p : Phase) : (s.setPh p).rp = s.rp := rfl
@[simp] theorem State.setPh_ct (s : State) (p : Phase) : (s.setPh p).ct = s.ct := rfl
@[simp] theorem State.setPh_st (s : State) (p : Phase) : (s.setPh p).st = s.st := rfl
@[simp] theorem State.setPh_now (s : State) (p : Phase) : (s.setPh p).now = s.now := rfl
@[simp] theorem State.setPh_tr (s : State) (p : Phase) : (s.setPh p).tr = s.tr := rfl
@[simp] theorem State.setPh_stall (s : State) (p : Phase) : (s.setPh p).stall = s.stall := rfl
@[simp] theorem State.setPh_spd (s : State) (p : Phase) : (s.setPh p).spd = s.spd := rfl
@[simp] theorem State.setPh_delays (s : State) (p : Phase) : (s.setPh p).delays = s.delays := rfl
@[simp] theorem State.setPh_host (s : State) (p : Phase) : (s.setPh p).host = s.host := rfl
@[simp] theorem State.setPh_freeIdx (s : State) (p : Phase) : (s.setPh p).freeIdx = s.freeIdx := rfl

/-! ### setDimmStart -/

@[simp] theorem State.setDimmStart_cfg (s : State) (v : Word16) : (s.setDimmStart v).cfg = s.cfg := rfl
@[simp] theorem State.setDimmStart_ph (s : State) (v : Word16) : (s.setDimmStart v).ph = s.ph := rfl
@[simp] theorem State.setDimmStart_d0 (s : State) (v : Word16) : (s.setDimmStart v).d0 = s.d0 := rfl
@[simp] theorem State.setDimmStart_d1 (s : State) (v : Word16) : (s.setDimmStart v).d1 = s.d1 := rfl
@[simp] theorem State.setDimmStart_dimmStart (s : State) (v : Word16) : (s.setDimmStart v).dimmStart = v := rfl
@[simp] theorem State.setDimmStart_ovs0 (s : State) (v : Word16) : (s.setDimmStart v).ovs0 = s.ovs0 := rfl
@[simp] theorem State.setDimmStart_ovs1 (s : State) (v : Word16) : (s.setDimmStart v).ovs1 = s.ovs1 := rfl
@[simp] theorem State.setDimmStart_rp (s : State) (v : Word16) : (s.setDimmStart v).rp = s.rp := rfl
@[simp] theorem State.setDimmStart_ct (s : State) (v : Word16) : (s.setDimmStart v).ct = s.ct := rfl
@[simp] theorem State.setDimmStart_st (s : State) (v : Word16) : (s.setDimmStart v).st = s.st := rfl
@[simp] theorem State.setDimmStart_now (s : State) (v : Word16) : (s.setDimmStart v).now = s.now := rfl
@[simp] theorem State.setDimmStart_tr (s : State) (v : Word16) : (s.setDimmStart v).tr = s.tr := rfl
@[simp] theorem State.setDimmStart_stall (s : State) (v : Word16) : (s.setDimmStart v).stall = s.stall := rfl
@[simp] theorem State.setDimmStart_spd (s : State) (v : Word16) : (s.setDimmStart v).spd = s.spd := rfl
@[simp] theorem State.setDimmStart_delays (s : State) (v : Word16) : (s.setDimmStart v).delays = s.delays := rfl
@[simp] theorem State.setDimmStart_host (s : State) (v : Word16) : (s.setDimmStart v).host = s.host := rfl
@[simp] theorem State.setDimmStart_freeIdx (s : State) (v : Word16) : (s.setDimmStart v).freeIdx = s.freeIdx := rfl

/-! ### setRp -/

@[simp] theorem State.setRp_cfg (s : State) (v : Byte) : (s.setRp v).cfg = s.cfg := rfl
@[simp] theorem State.setRp_ph (s : State) (v : Byte) : (s.setRp v).ph = s.ph := rfl
@[simp] theorem State.setRp_d0 (s : State) (v : Byte) : (s.setRp v).d0 = s.d0 := rfl
@[simp] theorem State.setRp_d1 (s : State) (v : Byte) : (s.setRp v).d1 = s.d1 := rfl
@[simp] theorem State.setRp_dimmStart (s : State) (v : Byte) : (s.setRp v).dimmStart = s.dimmStart := rfl
@[simp] theorem State.setRp_ovs0 (s : State) (v : Byte) : (s.setRp v).ovs0 = s.ovs0 := rfl
@[simp] theorem State.setRp_ovs1 (s : State) (v : Byte) : (s.setRp v).ovs1 = s.ovs1 := rfl
@[simp] theorem State.setRp_rp (s : State) (v : Byte) : (s.setRp v).rp = v := rfl
@[simp] theorem State.setRp_ct (s : State) (v : Byte) : (s.setRp v).ct = s.ct := rfl
@[simp] theorem State.setRp_st (s : State) (v : Byte) : (s.setRp v).st = s.st := rfl
@[simp] theorem State.setRp_now (s : State) (v : Byte) : (s.setRp v).now = s.now := rfl
@[simp] theorem State.setRp_tr (s : State) (v : Byte) : (s.setRp v).tr = s.tr := rfl
@[simp] theorem State.setRp_stall (s : State) (v : Byte) : (s.setRp v).stall = s.stall := rfl
@[simp] theorem State.setRp_spd (s : State) (v : Byte) : (s.setRp v).spd = s.spd := rfl
@[simp] theorem State.setRp_delays (s : State) (v : Byte) : (s.setRp v).delays = s.delays := rfl
@[simp] theorem State.setRp_host (s : State) (v : Byte) : (s.setRp v).host = s.host := rfl
@[simp] theorem State.setRp_freeIdx (s : State) (v : Byte) : (s.setRp v).freeIdx = s.freeIdx := rfl

/-! ### setCt -/

@[simp] theorem State.setCt_cfg (s : State) (v : Byte) : (s.setCt v).cfg = s.cfg := rfl
@[simp] theorem State.setCt_ph (s : State) (v : Byte) : (s.setCt v).ph = s.ph := rfl
@[simp] theorem State.setCt_d0 (s : State) (v : Byte) : (s.setCt v).d0 = s.d0 := rfl
@[simp] theorem State.setCt_d1 (s : State) (v : Byte) : (s.setCt v).d1 = s.d1 := rfl
@[simp] theorem State.setCt_dimmStart (s : State) (v : Byte) : (s.setCt v).dimmStart = s.dimmStart := rfl
@[simp] theorem State.setCt_ovs0 (s : State) (v : Byte) : (s.setCt v).ovs0 = s.ovs0 := rfl
@[simp] theorem State.setCt_ovs1 (s : State) (v : Byte) : (s.setCt v).ovs1 = s.ovs1 := rfl
@[simp] theorem State.setCt_rp (s : State) (v : Byte) : (s.setCt v).rp = s.rp := rfl
@[simp] theorem State.setCt_ct (s : State) (v : Byte) : (s.setCt v).ct = v := rfl
@[simp] theorem State.setCt_st (s : State) (v : Byte) : (s.setCt v).st = s.st := rfl
@[simp] theorem State.setCt_now (s : State) (v : Byte) : (s.setCt v).now = s.now := rfl
@[simp] theorem State.setCt_tr (s : State) (v : Byte) : (s.setCt v).tr = s.tr := rfl
@[simp] theorem State.setCt_stall (s : State) (v : Byte) : (s.setCt v).stall = s.stall := rfl
@[simp] theorem State.setCt_spd (s : State) (v : Byte) : (s.setCt v).spd = s.spd := rfl
@[simp] theorem State.setCt_delays (s : State) (v : Byte) : (s.setCt v).delays = s.delays := rfl
@[simp] theorem State.setCt_host (s : State) (v : Byte) : (s.setCt v).host = s.host := rfl
@[simp] theorem State.setCt_freeIdx (s : State) (v : Byte) : (s.setCt v).freeIdx = s.freeIdx := rfl

/-! ### setSt -/

@[simp] theorem State.setSt_cfg (s : State) (v : Word16) : (s.setSt v).cfg = s.cfg := rfl
@[simp] theorem State.setSt_ph (s : State) (v : Word16) : (s.setSt v).ph = s.ph := rfl
@[simp] theorem State.setSt_d0 (s : State) (v : Word16) : (s.setSt v).d0 = s.d0 := rfl
@[simp] theorem State.setSt_d1 (s : State) (v : Word16) : (s.setSt v).d1 = s.d1 := rfl
@[simp] theorem State.setSt_dimmStart (s : State) (v : Word16) : (s.setSt v).dimmStart = s.dimmStart := rfl
@[simp] theorem State.setSt_ovs0 (s : State) (v : Word16) : (s.setSt v).ovs0 = s.ovs0 := rfl
@[simp] theorem State.setSt_ovs1 (s : State) (v : Word16) : (s.setSt v).ovs1 = s.ovs1 := rfl
@[simp] theorem State.setSt_rp (s : State) (v : Word16) : (s.setSt v).rp = s.rp := rfl
@[simp] theorem State.setSt_ct (s : State) (v : Word16) : (s.setSt v).ct = s.ct := rfl
@[simp] theorem State.setSt_st (s : State) (v : Word16) : (s.setSt v).st = v := rfl
@[simp] theorem State.setSt_now (s : State) (v : Word16) : (s.setSt v).now = s.now := rfl
@[simp] theorem State.setSt_tr (s : State) (v : Word16) : (s.setSt v).tr = s.tr := rfl
@[simp] theorem State.setSt_stall (s : State) (v : Word16) : (s.setSt v).stall = s.stall := rfl
@[simp] theorem State.setSt_spd (s : State) (v : Word16) : (s.setSt v).spd = s.spd := rfl
@[simp] theorem State.setSt_delays (s : State) (v : Word16) : (s.setSt v).delays = s.delays := rfl
@[simp] theorem State.setSt_host (s : State) (v : Word16) : (s.setSt v).host = s.host := rfl
@[simp] theorem State.setSt_freeIdx (s : State) (v : Word16) : (s.setSt v).freeIdx = s.freeIdx := rfl

/-! ### setSpd -/

@[simp] theorem State.setSpd_cfg (s : State) (v : SpdSource) : (s.setSpd v).cfg = s.cfg := rfl
@[simp] theorem State.setSpd_ph (s : State) (v : SpdSource) : (s.setSpd v).ph = s.ph := rfl
@[simp] theorem State.setSpd_d0 (s : State) (v : SpdSource) : (s.setSpd v).d0 = s.d0 := rfl
@[simp] theorem State.setSpd_d1 (s : State) (v : SpdSource) : (s.setSpd v).d1 = s.d1 := rfl
@[simp] theorem State.setSpd_dimmStart (s : State) (v : SpdSource) : (s.setSpd v).dimmStart = s.dimmStart := rfl
@[simp] theorem State.setSpd_ovs0 (s : State) (v : SpdSource) : (s.setSpd v).ovs0 = s.ovs0 := rfl
@[simp] theorem State.setSpd_ovs1 (s : State) (v : SpdSource) : (s.setSpd v).ovs1 = s.ovs1 := rfl
@[simp] theorem State.setSpd_rp (s : State) (v : SpdSource) : (s.setSpd v).rp = s.rp := rfl
@[simp] theorem State.setSpd_ct (s : State) (v : SpdSource) : (s.setSpd v).ct = s.ct := rfl
@[simp] theorem State.setSpd_st (s : State) (v : SpdSource) : (s.setSpd v).st = s.st := rfl
@[simp] theorem State.setSpd_now (s : State) (v : SpdSource) : (s.setSpd v).now = s.now := rfl
@[simp] theorem State.setSpd_tr (s : State) (v : SpdSource) : (s.setSpd v).tr = s.tr := rfl
@[simp] theorem State.setSpd_stall (s : State) (v : SpdSource) : (s.setSpd v).stall = s.stall := rfl
@[simp] theorem State.setSpd_spd (s : State) (v : SpdSource) : (s.setSpd v).spd = v := rfl
@[simp] theorem State.setSpd_delays (s : State) (v : SpdSource) : (s.setSpd v).delays = s.delays := rfl
@[simp] theorem State.setSpd_host (s : State) (v : SpdSource) : (s.setSpd v).host = s.host := rfl
@[simp] theorem State.setSpd_freeIdx (s : State) (v : SpdSource) : (s.setSpd v).freeIdx = s.freeIdx := rfl

/-! ### setDelays -/

@[simp] theorem State.setDelays_cfg (s : State) (v : DelaySource) : (s.setDelays v).cfg = s.cfg := rfl
@[simp] theorem State.setDelays_ph (s : State) (v : DelaySource) : (s.setDelays v).ph = s.ph := rfl
@[simp] theorem State.setDelays_d0 (s : State) (v : DelaySource) : (s.setDelays v).d0 = s.d0 := rfl
@[simp] theorem State.setDelays_d1 (s : State) (v : DelaySource) : (s.setDelays v).d1 = s.d1 := rfl
@[simp] theorem State.setDelays_dimmStart (s : State) (v : DelaySource) : (s.setDelays v).dimmStart = s.dimmStart := rfl
@[simp] theorem State.setDelays_ovs0 (s : State) (v : DelaySource) : (s.setDelays v).ovs0 = s.ovs0 := rfl
@[simp] theorem State.setDelays_ovs1 (s : State) (v : DelaySource) : (s.setDelays v).ovs1 = s.ovs1 := rfl
@[simp] theorem State.setDelays_rp (s : State) (v : DelaySource) : (s.setDelays v).rp = s.rp := rfl
@[simp] theorem State.setDelays_ct (s : State) (v : DelaySource) : (s.setDelays v).ct = s.ct := rfl
@[simp] theorem State.setDelays_st (s : State) (v : DelaySource) : (s.setDelays v).st = s.st := rfl
@[simp] theorem State.setDelays_now (s : State) (v : DelaySource) : (s.setDelays v).now = s.now := rfl
@[simp] theorem State.setDelays_tr (s : State) (v : DelaySource) : (s.setDelays v).tr = s.tr := rfl
@[simp] theorem State.setDelays_stall (s : State) (v : DelaySource) : (s.setDelays v).stall = s.stall := rfl
@[simp] theorem State.setDelays_spd (s : State) (v : DelaySource) : (s.setDelays v).spd = s.spd := rfl
@[simp] theorem State.setDelays_delays (s : State) (v : DelaySource) : (s.setDelays v).delays = v := rfl
@[simp] theorem State.setDelays_host (s : State) (v : DelaySource) : (s.setDelays v).host = s.host := rfl
@[simp] theorem State.setDelays_freeIdx (s : State) (v : DelaySource) : (s.setDelays v).freeIdx = s.freeIdx := rfl

/-! ### setHost -/

@[simp] theorem State.setHost_cfg (s : State) (v : List HostInput) : (s.setHost v).cfg = s.cfg := rfl
@[simp] theorem State.setHost_ph (s : State) (v : List HostInput) : (s.setHost v).ph = s.ph := rfl
@[simp] theorem State.setHost_d0 (s : State) (v : List HostInput) : (s.setHost v).d0 = s.d0 := rfl
@[simp] theorem State.setHost_d1 (s : State) (v : List HostInput) : (s.setHost v).d1 = s.d1 := rfl
@[simp] theorem State.setHost_dimmStart (s : State) (v : List HostInput) : (s.setHost v).dimmStart = s.dimmStart := rfl
@[simp] theorem State.setHost_ovs0 (s : State) (v : List HostInput) : (s.setHost v).ovs0 = s.ovs0 := rfl
@[simp] theorem State.setHost_ovs1 (s : State) (v : List HostInput) : (s.setHost v).ovs1 = s.ovs1 := rfl
@[simp] theorem State.setHost_rp (s : State) (v : List HostInput) : (s.setHost v).rp = s.rp := rfl
@[simp] theorem State.setHost_ct (s : State) (v : List HostInput) : (s.setHost v).ct = s.ct := rfl
@[simp] theorem State.setHost_st (s : State) (v : List HostInput) : (s.setHost v).st = s.st := rfl
@[simp] theorem State.setHost_now (s : State) (v : List HostInput) : (s.setHost v).now = s.now := rfl
@[simp] theorem State.setHost_tr (s : State) (v : List HostInput) : (s.setHost v).tr = s.tr := rfl
@[simp] theorem State.setHost_stall (s : State) (v : List HostInput) : (s.setHost v).stall = s.stall := rfl
@[simp] theorem State.setHost_spd (s : State) (v : List HostInput) : (s.setHost v).spd = s.spd := rfl
@[simp] theorem State.setHost_delays (s : State) (v : List HostInput) : (s.setHost v).delays = s.delays := rfl
@[simp] theorem State.setHost_host (s : State) (v : List HostInput) : (s.setHost v).host = v := rfl
@[simp] theorem State.setHost_freeIdx (s : State) (v : List HostInput) : (s.setHost v).freeIdx = s.freeIdx := rfl

/-! ### setStall -/

@[simp] theorem State.setStall_cfg (s : State) (v : Option Stall) : (s.setStall v).cfg = s.cfg := rfl
@[simp] theorem State.setStall_ph (s : State) (v : Option Stall) : (s.setStall v).ph = s.ph := rfl
@[simp] theorem State.setStall_d0 (s : State) (v : Option Stall) : (s.setStall v).d0 = s.d0 := rfl
@[simp] theorem State.setStall_d1 (s : State) (v : Option Stall) : (s.setStall v).d1 = s.d1 := rfl
@[simp] theorem State.setStall_dimmStart (s : State) (v : Option Stall) : (s.setStall v).dimmStart = s.dimmStart := rfl
@[simp] theorem State.setStall_ovs0 (s : State) (v : Option Stall) : (s.setStall v).ovs0 = s.ovs0 := rfl
@[simp] theorem State.setStall_ovs1 (s : State) (v : Option Stall) : (s.setStall v).ovs1 = s.ovs1 := rfl
@[simp] theorem State.setStall_rp (s : State) (v : Option Stall) : (s.setStall v).rp = s.rp := rfl
@[simp] theorem State.setStall_ct (s : State) (v : Option Stall) : (s.setStall v).ct = s.ct := rfl
@[simp] theorem State.setStall_st (s : State) (v : Option Stall) : (s.setStall v).st = s.st := rfl
@[simp] theorem State.setStall_now (s : State) (v : Option Stall) : (s.setStall v).now = s.now := rfl
@[simp] theorem State.setStall_tr (s : State) (v : Option Stall) : (s.setStall v).tr = s.tr := rfl
@[simp] theorem State.setStall_stall (s : State) (v : Option Stall) : (s.setStall v).stall = v := rfl
@[simp] theorem State.setStall_spd (s : State) (v : Option Stall) : (s.setStall v).spd = s.spd := rfl
@[simp] theorem State.setStall_delays (s : State) (v : Option Stall) : (s.setStall v).delays = s.delays := rfl
@[simp] theorem State.setStall_host (s : State) (v : Option Stall) : (s.setStall v).host = s.host := rfl
@[simp] theorem State.setStall_freeIdx (s : State) (v : Option Stall) : (s.setStall v).freeIdx = s.freeIdx := rfl

/-! ### stallOn -/

@[simp] theorem State.stallOn_cfg (s : State) (why : Stall) : (s.stallOn why).cfg = s.cfg := rfl
@[simp] theorem State.stallOn_ph (s : State) (why : Stall) : (s.stallOn why).ph = s.ph := rfl
@[simp] theorem State.stallOn_d0 (s : State) (why : Stall) : (s.stallOn why).d0 = s.d0 := rfl
@[simp] theorem State.stallOn_d1 (s : State) (why : Stall) : (s.stallOn why).d1 = s.d1 := rfl
@[simp] theorem State.stallOn_dimmStart (s : State) (why : Stall) : (s.stallOn why).dimmStart = s.dimmStart := rfl
@[simp] theorem State.stallOn_ovs0 (s : State) (why : Stall) : (s.stallOn why).ovs0 = s.ovs0 := rfl
@[simp] theorem State.stallOn_ovs1 (s : State) (why : Stall) : (s.stallOn why).ovs1 = s.ovs1 := rfl
@[simp] theorem State.stallOn_rp (s : State) (why : Stall) : (s.stallOn why).rp = s.rp := rfl
@[simp] theorem State.stallOn_ct (s : State) (why : Stall) : (s.stallOn why).ct = s.ct := rfl
@[simp] theorem State.stallOn_st (s : State) (why : Stall) : (s.stallOn why).st = s.st := rfl
@[simp] theorem State.stallOn_now (s : State) (why : Stall) : (s.stallOn why).now = s.now := rfl
@[simp] theorem State.stallOn_tr (s : State) (why : Stall) : (s.stallOn why).tr = s.tr := rfl
@[simp] theorem State.stallOn_stall (s : State) (why : Stall) : (s.stallOn why).stall = some why := rfl
@[simp] theorem State.stallOn_spd (s : State) (why : Stall) : (s.stallOn why).spd = s.spd := rfl
@[simp] theorem State.stallOn_delays (s : State) (why : Stall) : (s.stallOn why).delays = s.delays := rfl
@[simp] theorem State.stallOn_host (s : State) (why : Stall) : (s.stallOn why).host = s.host := rfl
@[simp] theorem State.stallOn_freeIdx (s : State) (why : Stall) : (s.stallOn why).freeIdx = s.freeIdx := rfl

/-! ### advance -/

@[simp] theorem State.advance_cfg (s : State) : (s.advance).cfg = s.cfg := rfl
@[simp] theorem State.advance_ph (s : State) : (s.advance).ph = s.ph.next := rfl
@[simp] theorem State.advance_d0 (s : State) : (s.advance).d0 = s.d0 := rfl
@[simp] theorem State.advance_d1 (s : State) : (s.advance).d1 = s.d1 := rfl
@[simp] theorem State.advance_dimmStart (s : State) : (s.advance).dimmStart = s.dimmStart := rfl
@[simp] theorem State.advance_ovs0 (s : State) : (s.advance).ovs0 = s.ovs0 := rfl
@[simp] theorem State.advance_ovs1 (s : State) : (s.advance).ovs1 = s.ovs1 := rfl
@[simp] theorem State.advance_rp (s : State) : (s.advance).rp = s.rp := rfl
@[simp] theorem State.advance_ct (s : State) : (s.advance).ct = s.ct := rfl
@[simp] theorem State.advance_st (s : State) : (s.advance).st = s.st := rfl
@[simp] theorem State.advance_now (s : State) : (s.advance).now = s.now := rfl
@[simp] theorem State.advance_tr (s : State) : (s.advance).tr = s.tr := rfl
@[simp] theorem State.advance_stall (s : State) : (s.advance).stall = s.stall := rfl
@[simp] theorem State.advance_spd (s : State) : (s.advance).spd = s.spd := rfl
@[simp] theorem State.advance_delays (s : State) : (s.advance).delays = s.delays := rfl
@[simp] theorem State.advance_host (s : State) : (s.advance).host = s.host := rfl
@[simp] theorem State.advance_freeIdx (s : State) : (s.advance).freeIdx = s.freeIdx := rfl

/-! ### record -/

@[simp] theorem State.record_cfg (s : State) (e : Event) (k : Nat) : (s.record e k).cfg = s.cfg := rfl
@[simp] theorem State.record_ph (s : State) (e : Event) (k : Nat) : (s.record e k).ph = s.ph := rfl
@[simp] theorem State.record_d0 (s : State) (e : Event) (k : Nat) : (s.record e k).d0 = s.d0 := rfl
@[simp] theorem State.record_d1 (s : State) (e : Event) (k : Nat) : (s.record e k).d1 = s.d1 := rfl
@[simp] theorem State.record_dimmStart (s : State) (e : Event) (k : Nat) : (s.record e k).dimmStart = s.dimmStart := rfl
@[simp] theorem State.record_ovs0 (s : State) (e : Event) (k : Nat) : (s.record e k).ovs0 = s.ovs0 := rfl
@[simp] theorem State.record_ovs1 (s : State) (e : Event) (k : Nat) : (s.record e k).ovs1 = s.ovs1 := rfl
@[simp] theorem State.record_rp (s : State) (e : Event) (k : Nat) : (s.record e k).rp = s.rp := rfl
@[simp] theorem State.record_ct (s : State) (e : Event) (k : Nat) : (s.record e k).ct = s.ct := rfl
@[simp] theorem State.record_st (s : State) (e : Event) (k : Nat) : (s.record e k).st = s.st := rfl
@[simp] theorem State.record_now (s : State) (e : Event) (k : Nat) : (s.record e k).now = s.now + k := rfl
@[simp] theorem State.record_tr (s : State) (e : Event) (k : Nat) : (s.record e k).tr = s.tr ++ [e] := rfl
@[simp] theorem State.record_stall (s : State) (e : Event) (k : Nat) : (s.record e k).stall = s.stall := rfl
@[simp] theorem State.record_spd (s : State) (e : Event) (k : Nat) : (s.record e k).spd = s.spd := rfl
@[simp] theorem State.record_delays (s : State) (e : Event) (k : Nat) : (s.record e k).delays = s.delays := rfl
@[simp] theorem State.record_host (s : State) (e : Event) (k : Nat) : (s.record e k).host = s.host := rfl
@[simp] theorem State.record_freeIdx (s : State) (e : Event) (k : Nat) : (s.record e k).freeIdx = s.freeIdx + 1 := rfl

/-! ### primitive -/

@[simp] theorem State.primitive_cfg (s : State) (e : Event) : (s.primitive e).cfg = s.cfg := rfl
@[simp] theorem State.primitive_ph (s : State) (e : Event) : (s.primitive e).ph = s.ph := rfl
@[simp] theorem State.primitive_d0 (s : State) (e : Event) : (s.primitive e).d0 = s.d0 := rfl
@[simp] theorem State.primitive_d1 (s : State) (e : Event) : (s.primitive e).d1 = s.d1 := rfl
@[simp] theorem State.primitive_dimmStart (s : State) (e : Event) : (s.primitive e).dimmStart = s.dimmStart := rfl
@[simp] theorem State.primitive_ovs0 (s : State) (e : Event) : (s.primitive e).ovs0 = s.ovs0 := rfl
@[simp] theorem State.primitive_ovs1 (s : State) (e : Event) : (s.primitive e).ovs1 = s.ovs1 := rfl
@[simp] theorem State.primitive_rp (s : State) (e : Event) : (s.primitive e).rp = s.rp := rfl
@[simp] theorem State.primitive_ct (s : State) (e : Event) : (s.primitive e).ct = s.ct := rfl
@[simp] theorem State.primitive_st (s : State) (e : Event) : (s.primitive e).st = s.st := rfl
@[simp] theorem State.primitive_now (s : State) (e : Event) : (s.primitive e).now = s.now + Config.freeElapsed s.freeIdx := rfl
@[simp] theorem State.primitive_tr (s : State) (e : Event) : (s.primitive e).tr = s.tr ++ [e] := rfl
@[simp] theorem State.primitive_stall (s : State) (e : Event) : (s.primitive e).stall = s.stall := rfl
@[simp] theorem State.primitive_spd (s : State) (e : Event) : (s.primitive e).spd = s.spd := rfl
@[simp] theorem State.primitive_delays (s : State) (e : Event) : (s.primitive e).delays = s.delays := rfl
@[simp] theorem State.primitive_host (s : State) (e : Event) : (s.primitive e).host = s.host := rfl
@[simp] theorem State.primitive_freeIdx (s : State) (e : Event) : (s.primitive e).freeIdx = s.freeIdx + 1 := rfl

/-! ### setDesc -/

@[simp] theorem State.setDesc_cfg (s : State) (i : Socket) (d : Descriptor) : (s.setDesc i d).cfg = s.cfg := by cases i <;> rfl
@[simp] theorem State.setDesc_ph (s : State) (i : Socket) (d : Descriptor) : (s.setDesc i d).ph = s.ph := by cases i <;> rfl
@[simp] theorem State.setDesc_dimmStart (s : State) (i : Socket) (d : Descriptor) : (s.setDesc i d).dimmStart = s.dimmStart := by cases i <;> rfl
@[simp] theorem State.setDesc_ovs0 (s : State) (i : Socket) (d : Descriptor) : (s.setDesc i d).ovs0 = s.ovs0 := by cases i <;> rfl
@[simp] theorem State.setDesc_ovs1 (s : State) (i : Socket) (d : Descriptor) : (s.setDesc i d).ovs1 = s.ovs1 := by cases i <;> rfl
@[simp] theorem State.setDesc_rp (s : State) (i : Socket) (d : Descriptor) : (s.setDesc i d).rp = s.rp := by cases i <;> rfl
@[simp] theorem State.setDesc_ct (s : State) (i : Socket) (d : Descriptor) : (s.setDesc i d).ct = s.ct := by cases i <;> rfl
@[simp] theorem State.setDesc_st (s : State) (i : Socket) (d : Descriptor) : (s.setDesc i d).st = s.st := by cases i <;> rfl
@[simp] theorem State.setDesc_now (s : State) (i : Socket) (d : Descriptor) : (s.setDesc i d).now = s.now := by cases i <;> rfl
@[simp] theorem State.setDesc_tr (s : State) (i : Socket) (d : Descriptor) : (s.setDesc i d).tr = s.tr := by cases i <;> rfl
@[simp] theorem State.setDesc_stall (s : State) (i : Socket) (d : Descriptor) : (s.setDesc i d).stall = s.stall := by cases i <;> rfl
@[simp] theorem State.setDesc_spd (s : State) (i : Socket) (d : Descriptor) : (s.setDesc i d).spd = s.spd := by cases i <;> rfl
@[simp] theorem State.setDesc_delays (s : State) (i : Socket) (d : Descriptor) : (s.setDesc i d).delays = s.delays := by cases i <;> rfl
@[simp] theorem State.setDesc_host (s : State) (i : Socket) (d : Descriptor) : (s.setDesc i d).host = s.host := by cases i <;> rfl
@[simp] theorem State.setDesc_freeIdx (s : State) (i : Socket) (d : Descriptor) : (s.setDesc i d).freeIdx = s.freeIdx := by cases i <;> rfl

/-! ### setOvs -/

@[simp] theorem State.setOvs_cfg (s : State) (i : Socket) : (s.setOvs i).cfg = s.cfg := by cases i <;> rfl
@[simp] theorem State.setOvs_ph (s : State) (i : Socket) : (s.setOvs i).ph = s.ph := by cases i <;> rfl
@[simp] theorem State.setOvs_d0 (s : State) (i : Socket) : (s.setOvs i).d0 = s.d0 := by cases i <;> rfl
@[simp] theorem State.setOvs_d1 (s : State) (i : Socket) : (s.setOvs i).d1 = s.d1 := by cases i <;> rfl
@[simp] theorem State.setOvs_dimmStart (s : State) (i : Socket) : (s.setOvs i).dimmStart = s.dimmStart := by cases i <;> rfl
@[simp] theorem State.setOvs_rp (s : State) (i : Socket) : (s.setOvs i).rp = s.rp := by cases i <;> rfl
@[simp] theorem State.setOvs_ct (s : State) (i : Socket) : (s.setOvs i).ct = s.ct := by cases i <;> rfl
@[simp] theorem State.setOvs_st (s : State) (i : Socket) : (s.setOvs i).st = s.st := by cases i <;> rfl
@[simp] theorem State.setOvs_now (s : State) (i : Socket) : (s.setOvs i).now = s.now := by cases i <;> rfl
@[simp] theorem State.setOvs_tr (s : State) (i : Socket) : (s.setOvs i).tr = s.tr := by cases i <;> rfl
@[simp] theorem State.setOvs_stall (s : State) (i : Socket) : (s.setOvs i).stall = s.stall := by cases i <;> rfl
@[simp] theorem State.setOvs_spd (s : State) (i : Socket) : (s.setOvs i).spd = s.spd := by cases i <;> rfl
@[simp] theorem State.setOvs_delays (s : State) (i : Socket) : (s.setOvs i).delays = s.delays := by cases i <;> rfl
@[simp] theorem State.setOvs_host (s : State) (i : Socket) : (s.setOvs i).host = s.host := by cases i <;> rfl
@[simp] theorem State.setOvs_freeIdx (s : State) (i : Socket) : (s.setOvs i).freeIdx = s.freeIdx := by cases i <;> rfl

/-! ### blockReset -/

@[simp] theorem State.blockReset_cfg (s : State) : (s.blockReset).cfg = s.cfg := rfl
@[simp] theorem State.blockReset_ph (s : State) : (s.blockReset).ph = .idle := rfl
@[simp] theorem State.blockReset_d0 (s : State) : (s.blockReset).d0 = freeDescriptor s.freeIdx := rfl
@[simp] theorem State.blockReset_d1 (s : State) : (s.blockReset).d1 = freeDescriptor (s.freeIdx + 1) := rfl
@[simp] theorem State.blockReset_dimmStart (s : State) : (s.blockReset).dimmStart = Config.freeDimmStart s.freeIdx := rfl
@[simp] theorem State.blockReset_ovs0 (s : State) : (s.blockReset).ovs0 = false := rfl
@[simp] theorem State.blockReset_ovs1 (s : State) : (s.blockReset).ovs1 = false := rfl
@[simp] theorem State.blockReset_rp (s : State) : (s.blockReset).rp = s.rp := rfl
@[simp] theorem State.blockReset_ct (s : State) : (s.blockReset).ct = s.ct := rfl
@[simp] theorem State.blockReset_st (s : State) : (s.blockReset).st = s.st := rfl
@[simp] theorem State.blockReset_now (s : State) : (s.blockReset).now = s.now + Config.freeElapsed s.freeIdx := rfl
@[simp] theorem State.blockReset_tr (s : State) : (s.blockReset).tr = [] := rfl
@[simp] theorem State.blockReset_stall (s : State) : (s.blockReset).stall = none := rfl
@[simp] theorem State.blockReset_spd (s : State) : (s.blockReset).spd = s.spd := rfl
@[simp] theorem State.blockReset_delays (s : State) : (s.blockReset).delays = s.delays := rfl
@[simp] theorem State.blockReset_host (s : State) : (s.blockReset).host = s.host := rfl
@[simp] theorem State.blockReset_freeIdx (s : State) : (s.blockReset).freeIdx = s.freeIdx + 2 := rfl

/-! ### The registers indexed by a socket -/

@[simp] theorem State.setDesc_s0_d0 (s : State) (d : Descriptor) : (s.setDesc .s0 d).d0 = d := rfl
@[simp] theorem State.setDesc_s0_d1 (s : State) (d : Descriptor) : (s.setDesc .s0 d).d1 = s.d1 := rfl
@[simp] theorem State.setDesc_s1_d0 (s : State) (d : Descriptor) : (s.setDesc .s1 d).d0 = s.d0 := rfl
@[simp] theorem State.setDesc_s1_d1 (s : State) (d : Descriptor) : (s.setDesc .s1 d).d1 = d := rfl
@[simp] theorem State.setOvs_s0_ovs0 (s : State) : (s.setOvs .s0).ovs0 = true := rfl
@[simp] theorem State.setOvs_s0_ovs1 (s : State) : (s.setOvs .s0).ovs1 = s.ovs1 := rfl
@[simp] theorem State.setOvs_s1_ovs0 (s : State) : (s.setOvs .s1).ovs0 = s.ovs0 := rfl
@[simp] theorem State.setOvs_s1_ovs1 (s : State) : (s.setOvs .s1).ovs1 = true := rfl

@[simp] theorem State.desc_s0 (s : State) : s.desc .s0 = s.d0 := rfl
@[simp] theorem State.desc_s1 (s : State) : s.desc .s1 = s.d1 := rfl
@[simp] theorem State.ovs_s0 (s : State) : s.ovs .s0 = s.ovs0 := rfl
@[simp] theorem State.ovs_s1 (s : State) : s.ovs .s1 = s.ovs1 := rfl

/-- A write of D[i] is read back, and the other register is left alone. -/
theorem State.setDesc_desc (s : State) (i j : Socket) (d : Descriptor) :
    (s.setDesc i d).desc j = if j = i then d else s.desc j := by
  cases i <;> cases j <;> rfl

/-- Setting OVS[i] sets it, and the other flag is left alone. -/
theorem State.setOvs_ovs (s : State) (i j : Socket) : (s.setOvs i).ovs j = (s.ovs j || j == i) := by
  cases i <;> cases j <;> simp

/-- START in IDLE. -/
theorem State.start_idle (s : State) (h : s.ph = .idle) : s.start = { s with ph := .step 0, tr := [] } := by
  simp [State.start, h]

/-- START outside IDLE is ignored. -/
theorem State.start_ignored (s : State) (h : s.ph ≠ .idle) : s.start = s := by
  unfold State.start
  split <;> simp_all

end Sys2Proof.Machine
end

