-- ==== Sys2Proof/Laws/Ops.lean ====
section
/-! SUPPORT. What each shared operation does, said once: the primitives (00_scope R10), SETCMD, DELIVER and Wait
(43_command_sequencer R110, R111, R113), one socket's turn of ENCRP (41_geometry_encoder R83). -/

namespace Sys2Proof.Machine

/-! ## The phase register -/

@[simp] theorem Phase.next_idle : Phase.next .idle = .idle := rfl
@[simp] theorem Phase.next_done : Phase.next .done = .done := rfl

theorem Phase.next_step {n : Fin 18} (h : n.val + 1 < 18) : Phase.next (.step n) = .step ⟨n.val + 1, h⟩ := by
  simp [Phase.next, h]

theorem Phase.next_last {n : Fin 18} (h : ¬ n.val + 1 < 18) : Phase.next (.step n) = .done := by
  simp [Phase.next, h]

@[simp] theorem Phase.index_idle : Phase.index .idle = 0 := rfl
@[simp] theorem Phase.index_step (n : Fin 18) : Phase.index (.step n) = n.val := rfl
@[simp] theorem Phase.index_done : Phase.index .done = 18 := rfl

/-- An operation at a step of the run moves PH one further. -/
@[simp] theorem Phase.index_next_step (n : Fin 18) : (Phase.next (.step n)).index = n.val + 1 := by
  by_cases h : n.val + 1 < 18
  · rw [Phase.next_step h]; rfl
  · rw [Phase.next_last h, Phase.index_done]; omega

/-! ## The time primitives take -/

/-- The time that `k` primitives take, the first at index `i` of the free values (R19). -/
def elapsed (i k : Nat) : Nat := ((List.range' i k).map Config.freeElapsed).sum

@[simp] theorem elapsed_zero (i : Nat) : elapsed i 0 = 0 := rfl

theorem elapsed_succ (i k : Nat) : elapsed i (k + 1) = Config.freeElapsed i + elapsed (i + 1) k := by
  simp [elapsed, List.range'_succ]

@[simp] theorem elapsed_one (i : Nat) : elapsed i 1 = Config.freeElapsed i := by simp [elapsed]

@[simp] theorem elapsed_two (i : Nat) : elapsed i 2 = Config.freeElapsed i + Config.freeElapsed (i + 1) := by
  simp [elapsed_succ]

@[simp] theorem elapsed_three (i : Nat) :
    elapsed i 3 = Config.freeElapsed i + Config.freeElapsed (i + 1) + Config.freeElapsed (i + 2) := by
  simp [elapsed_succ, Nat.add_assoc]

theorem elapsed_add (i j k : Nat) : elapsed i (j + k) = elapsed i j + elapsed (i + j) k := by
  induction j generalizing i with
  | zero => simp
  | succ j ih =>
    have e : i + (j + 1) = i + 1 + j := by omega
    rw [Nat.succ_add, elapsed_succ, elapsed_succ, ih, e, ← Nat.add_assoc]

/-- By how much the next `Wait` overshoots, where it ends (R113). -/
def State.overshoot (s : State) : Nat :=
  match s.delays with
  | .free => Config.freeElapsed s.freeIdx
  | .inOrder l => l.headD 0

/-! ## The primitives -/

theorem State.primitive_eq (s : State) (e : Event) : s.primitive e = { s with
    tr := s.tr ++ [e], now := s.now + Config.freeElapsed s.freeIdx, freeIdx := s.freeIdx + 1 } := rfl

/-- An `SpdRead` that is answered goes on with the answer. -/
theorem spdRead_answered {s : State} {dev off : Nat} {a : SpdAnswer} {src : SpdSource}
    (h : s.spdTurn dev off = some (a, src)) (k : SpdAnswer → State → Result) :
    spdRead dev off s k = k a ((s.setSpd src).primitive (.spd dev off a)) := by
  simp [spdRead, h]

/-- An `SpdRead` that is never answered is stuck. -/
theorem spdRead_unanswered {s : State} {dev off : Nat} (h : s.spdTurn dev off = none)
    (k : SpdAnswer → State → Result) : spdRead dev off s k = .next (s.stallOn .spdRead) := by
  simp [spdRead, h]

/-- A provider that grants a read answers it. -/
theorem State.spdTurn_granted {s : State} {n : Nat} (h : s.spd.grants (n + 1)) (dev off : Nat) :
    s.spdTurn dev off = some (s.answer 0 dev off, s.spd.after 1) := by
  unfold State.spdTurn State.answer SpdSource.after
  split
  · next hs => simp [hs]
  · next hs => simp [hs, SpdSource.grants] at h
  · next hs => simp [hs]
  · next hs => simp [hs]

theorem SpdSource.after_zero (src : SpdSource) : src.after 0 = src := by
  cases src <;> simp [SpdSource.after]

theorem SpdSource.after_after (src : SpdSource) (m n : Nat) : (src.after m).after n = src.after (m + n) := by
  cases src <;> simp [SpdSource.after]

theorem SpdSource.grants_after {src : SpdSource} {m n : Nat} (h : src.grants (m + n)) : (src.after m).grants n := by
  cases src <;> simp_all [SpdSource.after, SpdSource.grants]
  omega

theorem SpdSource.grants_mono {src : SpdSource} {m n : Nat} (h : src.grants n) (hm : m ≤ n) : src.grants m := by
  cases src <;> simp_all [SpdSource.grants]
  omega

/-- A `Wait` that ends lets at least its delay pass. -/
theorem wait_ends {s : State} (h : s.delays.grants) (d : Nat) (k : State → Result) :
    wait d s k = k ((s.setDelays s.delays.after).record (.wait d) (d + s.overshoot)) := by
  unfold wait State.delayTurn DelaySource.after State.overshoot
  rcases hd : s.delays with _ | ⟨_ | ⟨o, l⟩⟩
  · rfl
  · simp [hd, DelaySource.grants] at h
  · rfl

/-- A `Wait` that never ends is stuck. -/
theorem wait_stuck {s : State} (h : ¬ s.delays.grants) (d : Nat) (k : State → Result) :
    wait d s k = .next (s.stallOn .wait) := by
  unfold wait State.delayTurn
  rcases hd : s.delays with _ | ⟨_ | ⟨o, l⟩⟩
  · simp [hd, DelaySource.grants] at h
  · rfl
  · simp [hd, DelaySource.grants] at h

/-! ## The CT byte -/

@[simp] theorem ctLow_ctByte (k : Code) (l : CtLow) : ctLow (ctByte k l) = l := by
  revert k l
  decide

@[simp] theorem ctCode_ctByte (k : Code) (l : CtLow) : ctCode (ctByte k l) = k := by
  revert k l
  decide

@[simp] theorem ctByte_ctCode_ctLow (b : Byte) : ctByte (ctCode b) (ctLow b) = b := by
  unfold ctCode ctLow ctByte
  ext i hi
  simp only [BitVec.getElem_append, BitVec.getElem_extractLsb']
  split
  · simp [BitVec.getLsbD_eq_getElem hi]
  · rw [show 5 + (i - 5) = i by omega, BitVec.getLsbD_eq_getElem hi]

/-! ## SETCMD -/

/-- SETCMD reads CT and writes the code above its low bits (R110). -/
theorem setCmd_eq (code : Code) (s : State) : setCmd code s = { s with
    ct := ctByte code (ctLow s.ct)
    tr := s.tr ++ [.regRead (.ct s.ct), .regWrite (.ct (ctByte code (ctLow s.ct)))]
    now := s.now + elapsed s.freeIdx 2
    freeIdx := s.freeIdx + 2 } := by
  simp [setCmd, readCt, writeCt, State.primitive_eq, State.setCt, Nat.add_assoc]

/-! ## DELIVER -/

/-- The reads of a socket's turn, from a base in megabytes (R111). -/
def turnReads (c : Cfg) (x : AddrCommand) (i : Socket) (n : Nibble) (base : Nat) : List Addr :=
  (if c.sizeTotal n ≠ 0 then [physAddr base (c.offset x i)] else []) ++
    (if c.sizeBank0 n ≠ 0 then [physAddr (base + c.sizeBank0 n) (c.offset x i)] else [])

/-- A socket's turn of DELIVER reads RP, makes its reads and moves the base (R111). -/
theorem deliverSocket_eq (x : AddrCommand) (i : Socket) (s : State) :
    deliverSocket x i s = { s with
      dimmStart := s.dimmStart + BitVec.ofNat 16 (s.cfg.sizeTotal (nibbleOf s.rp i))
      tr := s.tr ++ .regRead (.rp s.rp) :: (turnReads s.cfg x i (nibbleOf s.rp i) s.dimmStart.toNat).map .mem
      now := s.now + elapsed s.freeIdx (1 + (turnReads s.cfg x i (nibbleOf s.rp i) s.dimmStart.toNat).length)
      freeIdx := s.freeIdx + (1 + (turnReads s.cfg x i (nibbleOf s.rp i) s.dimmStart.toNat).length) } := by
  simp only [deliverSocket, readRp, advanceBase, readSecondRank, readFirstRank, memRead, turnReads]
  by_cases h1 : s.cfg.sizeTotal (nibbleOf s.rp i) = 0 <;> by_cases h2 : s.cfg.sizeBank0 (nibbleOf s.rp i) = 0 <;>
    simp [h1, h2, State.primitive_eq, State.setDimmStart, Nat.add_assoc]

/-- Under R8 item 5 the reads of a turn are those of the populated ranks (R122, R129). -/
theorem turnReads_eq {c : Cfg} (h : c.Admitted) (x : AddrCommand) (i : Socket) (n : Nibble) (base : Nat) :
    turnReads c x i n base = ((c.region n).bases base).map (physAddr · (c.offset x i)) := by
  have h5 := h.sizeConsistency.1 n
  unfold turnReads Cfg.region
  by_cases h1 : c.sizeTotal n = 0
  · have h2 : c.sizeBank0 n = 0 := by
      by_contra h2
      exact h5 h2 h1
    simp [h1, h2, Region.bases]
  · by_cases h2 : c.sizeBank0 n = 0 <;> simp [h1, h2, Region.bases]

/-- A total fits DIMM_START, and so does the sum of two (R8 item 6). -/
theorem sizeTotal_toNat {c : Cfg} (h : c.Admitted) (n : Nibble) :
    (BitVec.ofNat 16 (c.sizeTotal n)).toNat = c.sizeTotal n := by
  have := (h.addressRange n n).2
  simp only [BitVec.toNat_ofNat]
  exact Nat.mod_eq_of_lt (by omega)

/-- DELIVER sends the command to every populated rank and leaves the sum of the spans in DIMM_START (R111, R121). -/
theorem deliver_eq {s : State} (h : s.cfg.Admitted) (x : AddrCommand) :
    deliver x s = { s with
      dimmStart := BitVec.ofNat 16 (s.cfg.sizeTotal (nibbleOf s.rp .s0) + s.cfg.sizeTotal (nibbleOf s.rp .s1))
      tr := s.tr ++ ([.regRead (.rp s.rp)] ++ (s.cfg.rankReads s.rp x .s0).map .mem ++ [.regRead (.rp s.rp)] ++
        (s.cfg.rankReads s.rp x .s1).map .mem)
      now := s.now + elapsed s.freeIdx
        (1 + (s.cfg.rankReads s.rp x .s0).length + (1 + (s.cfg.rankReads s.rp x .s1).length))
      freeIdx := s.freeIdx +
        (1 + (s.cfg.rankReads s.rp x .s0).length + (1 + (s.cfg.rankReads s.rp x .s1).length)) } := by
  rw [deliver, deliverSocket_eq, deliverSocket_eq]
  simp only [State.setDimmStart, turnReads_eq h, sizeTotal_toNat h, Cfg.rankReads, Cfg.rankBases, Cfg.socketBase,
    BitVec.ofNat_add, BitVec.zero_add, BitVec.toNat_ofNat, Nat.zero_mod, List.length_map]
  rw [elapsed_add s.freeIdx (1 + _) (1 + _)]
  simp [Nat.add_assoc]

/-! ## The five commands -/

/-- What a delivered command's register and address actions make of a state (R110, R111). -/
def commandActions (s : State) (x : AddrCommand) : State := { s with
  ct := ctByte (s.cfg.code x.toCommand) (ctLow s.ct)
  dimmStart := BitVec.ofNat 16 (s.cfg.sizeTotal (nibbleOf s.rp .s0) + s.cfg.sizeTotal (nibbleOf s.rp .s1))
  tr := s.tr ++ s.cfg.actionEvents x s.ct s.rp
  now := s.now + elapsed s.freeIdx (s.cfg.actionEvents x s.ct s.rp).length
  freeIdx := s.freeIdx + (s.cfg.actionEvents x s.ct s.rp).length }

/-- What a delivered command makes of a state (R109). -/
def afterCommand (s : State) (x : AddrCommand) : State := { s with
  ct := ctByte (s.cfg.code x.toCommand) (ctLow s.ct)
  dimmStart := BitVec.ofNat 16 (s.cfg.sizeTotal (nibbleOf s.rp .s0) + s.cfg.sizeTotal (nibbleOf s.rp .s1))
  ph := s.ph.next
  tr := s.tr ++ s.cfg.commandEvents x s.ct s.rp
  now := s.now + elapsed s.freeIdx (s.cfg.actionEvents x s.ct s.rp).length +
    (s.cfg.delay x.toCommand + (commandActions s x).overshoot)
  delays := s.delays.after
  freeIdx := s.freeIdx + (s.cfg.commandEvents x s.ct s.rp).length }

/-- A delivered command that is stuck on its `Wait` (R163). -/
def stuckCommand (s : State) (x : AddrCommand) : State := { s with
  ct := ctByte (s.cfg.code x.toCommand) (ctLow s.ct)
  dimmStart := BitVec.ofNat 16 (s.cfg.sizeTotal (nibbleOf s.rp .s0) + s.cfg.sizeTotal (nibbleOf s.rp .s1))
  tr := s.tr ++ s.cfg.actionEvents x s.ct s.rp
  now := s.now + elapsed s.freeIdx (s.cfg.actionEvents x s.ct s.rp).length
  stall := some .wait
  freeIdx := s.freeIdx + (s.cfg.actionEvents x s.ct s.rp).length }

/-- What the register write of normal operation makes of a state (R110, R119). -/
def normActions (s : State) : State := { s with
  ct := ctByte s.cfg.codeNorm (ctLow s.ct)
  tr := s.tr ++ s.cfg.normEvents s.ct
  now := s.now + elapsed s.freeIdx 2
  freeIdx := s.freeIdx + 2 }

/-- What `CMD.NORM` makes of a state (R119). -/
def afterNorm (s : State) : State := { s with
  ct := ctByte s.cfg.codeNorm (ctLow s.ct)
  ph := s.ph.next
  tr := s.tr ++ s.cfg.normEvents s.ct ++ [.wait s.cfg.delayNorm]
  now := s.now + elapsed s.freeIdx 2 + (s.cfg.delayNorm + (normActions s).overshoot)
  delays := s.delays.after
  freeIdx := s.freeIdx + 3 }

/-- `CMD.NORM` that is stuck on its `Wait` (R163). -/
def stuckNorm (s : State) : State := { s with
  ct := ctByte s.cfg.codeNorm (ctLow s.ct)
  tr := s.tr ++ s.cfg.normEvents s.ct
  now := s.now + elapsed s.freeIdx 2
  stall := some .wait
  freeIdx := s.freeIdx + 2 }

/-- SETCMD and DELIVER together are a command's actions. -/
theorem deliver_setCmd_eq {s : State} (h : s.cfg.Admitted) (x : AddrCommand) :
    deliver x (setCmd (s.cfg.code x.toCommand) s) = commandActions s x := by
  rw [setCmd_eq, deliver_eq (by exact h)]
  have len : (s.cfg.actionEvents x s.ct s.rp).length =
      2 + (1 + (s.cfg.rankReads s.rp x .s0).length + (1 + (s.cfg.rankReads s.rp x .s1).length)) := by
    simp [Cfg.actionEvents]
    omega
  simp only [commandActions, len]
  rw [elapsed_add s.freeIdx 2]
  simp [Cfg.actionEvents, Nat.add_assoc]

/-- A delivered command, from the preserved bits of CT to the end of its `Wait` (R109 to R114). -/
theorem deliveredCommand_eq {s : State} (h : s.cfg.Admitted) (hd : s.delays.grants) (x : AddrCommand) :
    deliveredCommand x s = .next (afterCommand s x) := by
  rw [deliveredCommand, deliver_setCmd_eq h, wait_ends (by exact hd)]
  simp only [State.record, State.setDelays, State.advance, State.setPh, afterCommand, Cfg.commandEvents,
    List.length_append, List.length_singleton, ← List.append_assoc, ← Nat.add_assoc]
  rfl

/-- A delivered command whose `Wait` never ends is stuck after its actions (R163). -/
theorem deliveredCommand_stuck {s : State} (h : s.cfg.Admitted) (hd : ¬ s.delays.grants) (x : AddrCommand) :
    deliveredCommand x s = .next (stuckCommand s x) := by
  rw [deliveredCommand, deliver_setCmd_eq h, wait_stuck (by exact hd)]
  rfl

/-- Normal operation: the register write and the `Wait` (R119). -/
theorem execCmdNorm_eq {s : State} (hd : s.delays.grants) : execCmdNorm s = .next (afterNorm s) := by
  have e : setCmd s.cfg.codeNorm s = normActions s := by rw [setCmd_eq]; rfl
  rw [execCmdNorm, e, wait_ends (by exact hd)]
  rfl

/-- Normal operation whose `Wait` never ends is stuck after its register write (R163). -/
theorem execCmdNorm_stuck {s : State} (hd : ¬ s.delays.grants) : execCmdNorm s = .next (stuckNorm s) := by
  have e : setCmd s.cfg.codeNorm s = normActions s := by rw [setCmd_eq]; rfl
  rw [execCmdNorm, e, wait_stuck (by exact hd)]
  rfl

/-! ## RDDESC -/

theorem State.answer_after (s : State) (e : Event) (k dev off : Nat) :
    ((s.setSpd (s.spd.after 1)).primitive e).answer k dev off = s.answer (k + 1) dev off := by
  unfold State.answer SpdSource.after
  rcases hs : s.spd with _ | l | cells
  · simp [Nat.add_comm, Nat.add_left_comm]
  · simp
  · simp

/-- What a reader makes of a state (R73). -/
def afterRddesc (s : State) (i : Socket) (cs : CallSite) : State :=
  State.setDesc { s with
    ph := s.ph.next
    tr := s.tr ++ s.readEvents i cs
    now := s.now + elapsed s.freeIdx (s.readCount i)
    spd := s.spd.after (s.readCount i)
    freeIdx := s.freeIdx + s.readCount i } i
      (moduleDescriptor s.cfg cs (s.typeAnswer i) (s.densityAnswer i) (s.sidedAnswer i cs))

/-- A reader that is stuck on a read, after the answers of a list that is too short (R163). -/
def stuckRddesc (s : State) (i : Socket) (cs : CallSite) (l : List SpdAnswer) : State := { s with
  tr := s.tr ++ (s.readEvents i cs).take l.length
  now := s.now + elapsed s.freeIdx l.length
  stall := some .spdRead
  spd := .inOrder []
  freeIdx := s.freeIdx + l.length }

/-- An `RDDESC` whose reads are answered writes the descriptor the answers give (R73 to R81). -/
theorem execRddesc_eq {s : State} {i : Socket} (cs : CallSite) (h : s.spd.grants (s.readCount i)) :
    execRddesc i cs s = .next (afterRddesc s i cs) := by
  have hpos : 1 ≤ s.readCount i := by unfold State.readCount moduleReadCount; split_ifs <;> omega
  have h1 := State.spdTurn_granted (n := 0) (SpdSource.grants_mono h hpos) (device s.cfg i) s.cfg.offType
  have ht : s.typeAnswer i = s.answer 0 (device s.cfg i) s.cfg.offType := rfl
  rw [execRddesc, spdRead_answered h1, ← ht]
  by_cases htype : s.typeAnswer i = .byte s.cfg.typeSdram
  · simp only [State.primitive_cfg, State.setSpd_cfg, htype, if_true]
    set s1 := (s.setSpd (s.spd.after 1)).primitive
      (.spd (device s.cfg i) s.cfg.offType (.byte s.cfg.typeSdram)) with hs1
    have c2 : 2 ≤ s.readCount i := by unfold State.readCount moduleReadCount; split_ifs <;> omega
    have hg1 : s1.spd.grants 1 := by
      simpa [hs1] using SpdSource.grants_after (m := 1) (n := 1) (SpdSource.grants_mono h c2)
    have h2 := State.spdTurn_granted (n := 0) hg1 (device s.cfg i) s.cfg.offDensity
    have hdn : s1.answer 0 (device s.cfg i) s.cfg.offDensity = s.densityAnswer i := by
      rw [hs1, State.answer_after]; rfl
    rw [hdn] at h2
    rw [spdRead_answered h2]
    rcases hden : s.densityAnswer i with dn | _
    · have c3 : s.readCount i = 3 := by simp [State.readCount, moduleReadCount, htype, hden]
      rw [c3] at h
      simp only
      set s2 := (s1.setSpd (s1.spd.after 1)).primitive
        (.spd (device s.cfg i) s.cfg.offDensity (.byte dn)) with hs2
      have hg2 : s2.spd.grants 1 := by
        have : s2.spd = s.spd.after 2 := by simp [hs2, hs1, SpdSource.after_after]
        rw [this]
        exact SpdSource.grants_after (m := 2) (n := 1) h
      have hcfg2 : s2.cfg = s.cfg := by simp [hs2, hs1]
      have h3 := State.spdTurn_granted (n := 0) hg2 (device s.cfg i) (sidedOffset s.cfg cs)
      have hsd : s2.answer 0 (device s.cfg i) (sidedOffset s.cfg cs) = s.sidedAnswer i cs := by
        rw [hs2, State.answer_after, hs1, State.answer_after]; rfl
      rw [hsd] at h3
      simp only [hcfg2]
      rw [spdRead_answered h3]
      rcases hsi : s.sidedAnswer i cs with b | _ <;> cases i <;>
        simp [afterRddesc, Nat.add_assoc, finishRddesc, State.advance, State.setPh, State.setDesc, State.primitive_eq, State.setSpd, hs1, hs2,
          moduleDescriptor, State.readEvents, htype, hden, hsi, c3, SpdSource.after_after]
    · have c2' : s.readCount i = 2 := by simp [State.readCount, moduleReadCount, htype, hden]
      cases i <;>
        simp [afterRddesc, Nat.add_assoc, finishRddesc, State.advance, State.setPh, State.setDesc, State.primitive_eq, State.setSpd, hs1,
          moduleDescriptor, State.readEvents, htype, hden, c2', SpdSource.after_after]
  · have c1 : s.readCount i = 1 := by simp [State.readCount, moduleReadCount, htype]
    cases i <;>
      simp [afterRddesc, finishRddesc, State.advance, State.setPh, State.setDesc, State.primitive_eq, State.setSpd, c1,
        moduleDescriptor, State.readEvents, htype]

/-- An `RDDESC` one of whose reads is never answered is stuck after the answered ones (R163). -/
theorem execRddesc_stuck {s : State} {i : Socket} (cs : CallSite) {l : List SpdAnswer} (hs : s.spd = .inOrder l)
    (h : l.length < s.readCount i) :
    execRddesc i cs s = .next (stuckRddesc s i cs l) := by
  have ht : s.typeAnswer i = l.getD 0 .fail := by simp [State.typeAnswer, State.answer, hs]
  have hd : s.densityAnswer i = l.getD 1 .fail := by simp [State.densityAnswer, State.answer, hs]
  have hc : s.readCount i = moduleReadCount s.cfg (l.getD 0 .fail) (l.getD 1 .fail) := by rw [← ht, ← hd]; rfl
  rw [hc] at h
  rcases l with _ | ⟨a, _ | ⟨b, _ | ⟨c, l⟩⟩⟩
  · simp [stuckRddesc, execRddesc, spdRead, State.spdTurn, hs, State.stallOn, State.setStall]
  · have ha : a = .byte s.cfg.typeSdram := by
      by_contra ha
      simp [moduleReadCount, ha] at h
    subst ha
    simp [stuckRddesc, execRddesc, spdRead, State.spdTurn, hs, State.stallOn, State.setStall, State.primitive_eq, State.setSpd,
      State.readEvents, hc, moduleReadCount, ht]
  · have ha : a = .byte s.cfg.typeSdram := by
      by_contra ha
      simp [moduleReadCount, ha] at h
    subst ha
    rcases b with dn | _
    · simp [stuckRddesc, execRddesc, spdRead, State.spdTurn, hs, State.stallOn, State.setStall, State.primitive_eq,
        State.setSpd, Nat.add_assoc, State.readEvents, hc, moduleReadCount, ht, hd]
    · simp [moduleReadCount] at h
  · simp only [moduleReadCount, List.length_cons] at h
    split_ifs at h <;> omega

/-- A provider that does not grant some reads is a list that is too short for them. -/
theorem SpdSource.not_grants {src : SpdSource} {n : Nat} (h : ¬ src.grants n) :
    ∃ l, src = .inOrder l ∧ l.length < n := by
  rcases src with _ | l | cells
  · simp [SpdSource.grants] at h
  · exact ⟨l, rfl, by simpa [SpdSource.grants] using h⟩
  · simp [SpdSource.grants] at h

/-! ## ENCRP -/

/-- Every admitted configuration but REF has a nibble for every descriptor (R8 item 1, R87). -/
theorem covers_of_not_isRef {c : Cfg} (h : c.Admitted) (hr : c.isRef = false) (d : Descriptor) : c.covers d :=
  fun _ => h.densityEntry_ne_invalid hr _

/-- REF has a nibble for a present module of five clamped counts (R56, U5). -/
theorem covers_iff_of_isRef {c : Cfg} (h : c.isRef = true) (d : Descriptor) :
    c.covers d ↔ (d.present = true → d.sizeClass ∈ [2, 4, 8, 16, 32]) := by
  rw [Cfg.covers, ne_eq, Cfg.densityEntry_invalid_of_isRef h, not_not, Descriptor.sizeClass]

/-- Under REF a nibble denotes what it does under REF's size tables (R58). -/
theorem region_of_isRef {c : Cfg} (h : c.isRef = true) (n : Nibble) : c.region n = Cfg.ref.region n := by
  rw [Cfg.region, Cfg.region, (Cfg.sizes_of_isRef h).1, (Cfg.sizes_of_isRef h).2]

/-- Under REF a descriptor is encoded by REF's density table (R83). -/
theorem encodedNibble_of_isRef {c : Cfg} (h : c.isRef = true) (d : Descriptor) :
    c.encodedNibble d = Cfg.ref.encodedNibble d := by
  simp only [Cfg.encodedNibble, Cfg.singleNibble, Cfg.densityNibble_of_isRef h]

theorem densityNibble_covered {c : Cfg} {d : Descriptor} (h : c.covers d) (hp : d.present = true) :
    c.densityNibble? (clampDensity d.density) = some (c.singleNibble (clampDensity d.density)) := by
  have := h hp
  unfold Cfg.singleNibble Cfg.densityNibble?
  rcases he : c.densityEntry (clampDensity d.density) <;> simp_all

/-- One socket's turn of ENCRP, where the configuration has a nibble (R83). -/
theorem encodeSocket_eq {s : State} {i : Socket} (h : s.cfg.covers (s.desc i)) (k : Nibble → State → Result) :
    encodeSocket i s k = k (s.cfg.encodedNibble (s.desc i)) { s with
      ovs0 := s.ovs0 || (decide (i = .s0) && (s.desc i).oversize)
      ovs1 := s.ovs1 || (decide (i = .s1) && (s.desc i).oversize)
      tr := s.tr ++ oversizeEvents i (s.desc i)
      now := s.now + elapsed s.freeIdx (oversizeEvents i (s.desc i)).length
      freeIdx := s.freeIdx + (oversizeEvents i (s.desc i)).length } := by
  unfold encodeSocket
  by_cases hp : (s.desc i).present = true
  · rw [if_pos hp]
    have hn := densityNibble_covered h hp
    have hq : presentNibble? s.cfg (s.desc i) = some (s.cfg.encodedNibble (s.desc i)) := by
      simp only [presentNibble?, hn, Option.map_some, Cfg.encodedNibble, hp, if_true, Config.dualAdd]
    rw [hq]
    by_cases ho : 32 < (s.desc i).density.toNat
    · have hov : oversized (s.desc i).density = true := decide_eq_true ho
      have hos : (s.desc i).oversize = true := by simp [Descriptor.oversize, hp, ho]
      simp only [hov, oversizeEvents, hos, if_true]
      cases i <;> simp [diagOversize, State.setOvs, State.primitive_eq]
    · have hov : oversized (s.desc i).density = false := decide_eq_false ho
      have hos : (s.desc i).oversize = false := by simp [Descriptor.oversize, ho]
      simp [hov, hos, oversizeEvents]
  · rw [if_neg hp]
    have hos : (s.desc i).oversize = false := by simp [Descriptor.oversize, hp]
    simp [hos, oversizeEvents, Cfg.encodedNibble, hp]

end Sys2Proof.Machine
end

