-- ==== Sys2Proof/Laws/Exec.lean ====
section
/-! SUPPORT. How each meaning ends, and how a step ends: the cases a proof about every step goes through. -/

namespace Sys2Proof.Machine

/-! ## ENCRP where it stops, and where it does not -/

/-- A socket's turn of `ENCRP` is refused where the configuration marks its count invalid (U5). -/
theorem encodeSocket_refused {s : State} {i : Socket} (h : ¬ s.cfg.covers (s.desc i)) (k : Nibble → State → Result) :
    encodeSocket i s k = .refused (.densityNotInTable (clampDensity (s.desc i).density)) := by
  simp only [Cfg.covers, Classical.not_imp, not_not] at h
  obtain ⟨hp, he⟩ := h
  simp [encodeSocket, hp, presentNibble?, Cfg.densityNibble?, he]

/-- What `ENCRP` makes of a state (R83). -/
def afterEncrp (s : State) : State := { s with
  rp := packRp (s.cfg.encodedNibble s.d0) (s.cfg.encodedNibble s.d1)
  ovs0 := s.ovs0 || s.d0.oversize
  ovs1 := s.ovs1 || s.d1.oversize
  ph := s.ph.next
  tr := s.tr ++ oversizeEvents .s0 s.d0 ++ oversizeEvents .s1 s.d1 ++
    [.regWrite (.rp (packRp (s.cfg.encodedNibble s.d0) (s.cfg.encodedNibble s.d1)))]
  now := s.now + elapsed s.freeIdx ((oversizeEvents .s0 s.d0).length + (oversizeEvents .s1 s.d1).length + 1)
  freeIdx := s.freeIdx + (oversizeEvents .s0 s.d0).length + (oversizeEvents .s1 s.d1).length + 1 }

/-- What `ENCST` makes of a state (R96). -/
def afterEncst (s : State) : State := { s with
  st := strengthWord s
  ph := s.ph.next
  tr := s.tr ++ [.regWrite (.st (strengthWord s))]
  now := s.now + Config.freeElapsed s.freeIdx
  freeIdx := s.freeIdx + 1 }

/-- `ENCRP` where the configuration has a nibble for both descriptors (R83). -/
theorem execEncrp_eq {s : State} (h0 : s.cfg.covers s.d0) (h1 : s.cfg.covers s.d1) :
    execEncrp s = .next (afterEncrp s) := by
  rw [execEncrp, encodeSocket_eq (i := .s0) h0, encodeSocket_eq (i := .s1) (by exact h1), afterEncrp,
    elapsed_add s.freeIdx (_ + _) 1, elapsed_add s.freeIdx (oversizeEvents .s0 s.d0).length]
  simp [writeRp, State.primitive_eq, State.setRp, State.advance, State.setPh, Nat.add_assoc]

/-- `ENCRP` is refused where the configuration has no nibble for one of the descriptors (U5). -/
theorem execEncrp_refused {s : State} (h : ¬ (s.cfg.covers s.d0 ∧ s.cfg.covers s.d1)) :
    ∃ d, execEncrp s = .refused (.densityNotInTable d) := by
  by_cases h0 : s.cfg.covers s.d0
  · have h1 : ¬ s.cfg.covers s.d1 := fun h1 => h ⟨h0, h1⟩
    rw [execEncrp, encodeSocket_eq (i := .s0) h0]
    exact ⟨_, encodeSocket_refused (i := .s1) (by exact h1) _⟩
  · exact ⟨_, encodeSocket_refused (i := .s0) h0 _⟩

theorem covers_of_execEncrp {s t : State} (h : execEncrp s = .next t) : s.cfg.covers s.d0 ∧ s.cfg.covers s.d1 := by
  by_contra hc
  obtain ⟨d, hd⟩ := execEncrp_refused hc
  rw [hd] at h
  cases h

/-! ## An operation of the run -/

/-- The commands done grow by the command of the operation at PH (R64, R126). -/
theorem Phase.commandsDone_next (n : Fin 18) :
    (Phase.next (.step n)).commandsDone = (Phase.step n).commandsDone ++ (seqRom n).command?.toList := by
  revert n
  decide

/-- The sequence ROM has a reader at steps 0, 1, 3 and 4 and nowhere else (R64). -/
theorem seqRom_rddesc (n : Fin 18) (i : Socket) (cs : CallSite) (h : seqRom n = .rddesc i cs) :
    n.val = 0 ∧ i = .s0 ∨ n.val = 1 ∧ i = .s1 ∨ n.val = 3 ∧ i = .s0 ∨ n.val = 4 ∧ i = .s1 := by
  revert n i cs
  intro n
  have key : ∀ n : Fin 18, (n.val = 0 ∧ seqRom n = .rddesc .s0 .geometry) ∨ (n.val = 1 ∧ seqRom n = .rddesc .s1 .geometry) ∨
      (n.val = 3 ∧ seqRom n = .rddesc .s0 .timing) ∨ (n.val = 4 ∧ seqRom n = .rddesc .s1 .timing) ∨
      (seqRom n).format = .ct ∨ seqRom n = .encrp ∨ seqRom n = .encst := by decide
  intro i cs h
  rcases key n with ⟨hn, e⟩ | ⟨hn, e⟩ | ⟨hn, e⟩ | ⟨hn, e⟩ | e | e | e <;> rw [h] at e <;> cases e <;> simp [hn]

/-- The sequence ROM has `ENCRP` at step 2 alone (R64). -/
theorem seqRom_encrp (n : Fin 18) (h : seqRom n = .encrp) : n.val = 2 := by
  revert n
  decide

/-- The sequence ROM has `ENCST` at step 5 alone (R64). -/
theorem seqRom_encst (n : Fin 18) (h : seqRom n = .encst) : n.val = 5 := by
  revert n
  decide

/-- The sequence ROM has the delivered commands at steps 6 to 16 alone (R64). -/
theorem seqRom_delivered (n : Fin 18) (x : AddrCommand) (h : seqRom n = .ofCommand x.toCommand) :
    6 ≤ n.val ∧ n.val ≤ 16 := by
  revert n
  cases x <;> decide

/-- The sequence ROM has `CMD.NORM` at step 17 alone (R64). -/
theorem seqRom_norm (n : Fin 18) (h : seqRom n = .cmdNorm) : n.val = 17 := by
  revert n
  decide

/-- How an operation of the run ends from a state, where it answers a next state. -/
inductive OperationEnds (s : State) : Instr → State → Prop where
  | rddesc (i cs) (hg : s.spd.grants (s.readCount i)) : OperationEnds s (.rddesc i cs) (afterRddesc s i cs)
  | rddescStuck (i cs l) (hl : s.spd = .inOrder l) (hc : l.length < s.readCount i) :
      OperationEnds s (.rddesc i cs) (stuckRddesc s i cs l)
  | encrp (h0 : s.cfg.covers s.d0) (h1 : s.cfg.covers s.d1) : OperationEnds s .encrp (afterEncrp s)
  | encst : OperationEnds s .encst (afterEncst s)
  | command (x : AddrCommand) (hd : s.delays.grants) : OperationEnds s (.ofCommand x.toCommand) (afterCommand s x)
  | commandStuck (x : AddrCommand) (hd : ¬ s.delays.grants) :
      OperationEnds s (.ofCommand x.toCommand) (stuckCommand s x)
  | norm (hd : s.delays.grants) : OperationEnds s .cmdNorm (afterNorm s)
  | normStuck (hd : ¬ s.delays.grants) : OperationEnds s .cmdNorm (stuckNorm s)

/-- Every operation that answers a next state, under an admitted configuration, ends in one of those ways. -/
theorem exec_ends {s t : State} {i : Instr} (ha : s.cfg.Admitted) (h : exec i s = .next t) : OperationEnds s i t := by
  have command : ∀ x, deliveredCommand x s = .next t → OperationEnds s (.ofCommand x.toCommand) t := by
    intro x hx
    by_cases hd : s.delays.grants
    · cases hx.symm.trans (deliveredCommand_eq ha hd x)
      exact .command x hd
    · cases hx.symm.trans (deliveredCommand_stuck ha hd x)
      exact .commandStuck x hd
  cases i with
  | rddesc i cs =>
    by_cases hg : s.spd.grants (s.readCount i)
    · cases Host.Outcome.next.inj (h.symm.trans (execRddesc_eq cs hg))
      exact .rddesc i cs hg
    · obtain ⟨l, hl, hc⟩ := SpdSource.not_grants hg
      cases Host.Outcome.next.inj (h.symm.trans (execRddesc_stuck cs hl hc))
      exact .rddescStuck i cs l hl hc
  | encrp =>
    obtain ⟨h0, h1⟩ := covers_of_execEncrp h
    cases Host.Outcome.next.inj (h.symm.trans (execEncrp_eq h0 h1))
    exact .encrp h0 h1
  | encst =>
    cases Host.Outcome.next.inj h
    exact .encst
  | cmdNop => exact command .nop h
  | cmdPre => exact command .pre h
  | cmdRef => exact command .ref h
  | cmdMrs => exact command .mrs h
  | cmdNorm =>
    by_cases hd : s.delays.grants
    · cases Host.Outcome.next.inj (h.symm.trans (execCmdNorm_eq hd))
      exact .norm hd
    · cases Host.Outcome.next.inj (h.symm.trans (execCmdNorm_stuck hd))
      exact .normStuck hd

/-- The operation that sends a delivered command is that command (R115 to R118). -/
theorem exec_ofCommand (x : AddrCommand) (s : State) : exec (.ofCommand x.toCommand) s = deliveredCommand x s := by
  cases x <;> rfl

/-- An operation that can end so does (the converse of `exec_ends`). -/
theorem OperationEnds.exec {s t : State} {i : Instr} (ha : s.cfg.Admitted) (h : OperationEnds s i t) :
    exec i s = .next t := by
  cases h with
  | rddesc i cs hg => exact execRddesc_eq cs hg
  | rddescStuck i cs l hl hc => exact execRddesc_stuck cs hl hc
  | encrp h0 h1 => exact execEncrp_eq h0 h1
  | encst => rfl
  | command x hd =>
    rw [exec_ofCommand]
    exact deliveredCommand_eq ha hd x
  | commandStuck x hd =>
    rw [exec_ofCommand]
    exact deliveredCommand_stuck ha hd x
  | norm hd => exact execCmdNorm_eq hd
  | normStuck hd => exact execCmdNorm_stuck hd

/-- No operation moves the clock back (R19). -/
theorem OperationEnds.now_le {s t : State} {i : Instr} (h : OperationEnds s i t) : s.now ≤ t.now := by
  cases h with
  | rddesc i cs hg => cases i <;> exact Nat.le_add_right _ _
  | rddescStuck i cs l hl hc => exact Nat.le_add_right _ _
  | encrp h0 h1 => exact Nat.le_add_right _ _
  | encst => exact Nat.le_add_right _ _
  | command x hd => exact Nat.le_trans (Nat.le_add_right _ _) (Nat.le_add_right _ _)
  | commandStuck x hd => exact Nat.le_add_right _ _
  | norm hd => exact Nat.le_trans (Nat.le_add_right _ _) (Nat.le_add_right _ _)
  | normStuck hd => exact Nat.le_add_right _ _

/-- The events of a reader are reads of the SPD space. -/
theorem State.mem_readEvents {s : State} {i : Socket} {cs : CallSite} {e : Event} (h : e ∈ s.readEvents i cs) :
    ∃ off a, e = .spd (device s.cfg i) off a := by
  have := List.mem_of_mem_take h
  simp only [List.mem_cons, List.not_mem_nil, or_false] at this
  rcases this with rfl | rfl | rfl <;> exact ⟨_, _, rfl⟩

/-- The events of a command's actions: CT read and written once, the rest reads of RP and of PHYS. -/
theorem Cfg.mem_actionEvents {c : Cfg} {x : AddrCommand} {ct rp : Byte} {e : Event} (h : e ∈ c.actionEvents x ct rp) :
    e = .regRead (.ct ct) ∨ e = .regWrite (.ct (ctByte (c.code x.toCommand) (ctLow ct))) ∨ e = .regRead (.rp rp) ∨
      ∃ a, e = .mem a := by
  simp only [Cfg.actionEvents, List.mem_append, List.mem_cons, List.mem_map, List.not_mem_nil, or_false] at h
  rcases h with ((((h | h | h) | ⟨a, -, rfl⟩) | h) | ⟨a, -, rfl⟩) <;> simp_all

/-- An operation appends events to the trace, and what it writes to CT has the preserved bits of CT (R20, R110). -/
theorem OperationEnds.events {s t : State} {i : Instr} (h : OperationEnds s i t) :
    ∃ es, t.tr = s.tr ++ es ∧ ∀ v, .regWrite (.ct v) ∈ es → ctLow v = ctLow s.ct := by
  cases h with
  | rddesc i cs hg =>
    refine ⟨s.readEvents i cs, by cases i <;> rfl, fun v hv => ?_⟩
    obtain ⟨off, a, e⟩ := State.mem_readEvents hv
    cases e
  | rddescStuck i cs l hl hc =>
    refine ⟨_, rfl, fun v hv => ?_⟩
    obtain ⟨off, a, e⟩ := State.mem_readEvents (List.mem_of_mem_take hv)
    cases e
  | encrp h0 h1 =>
    refine ⟨_, by simp only [afterEncrp, List.append_assoc]; rfl, fun v hv => ?_⟩
    simp [oversizeEvents] at hv
  | encst => exact ⟨_, rfl, fun v hv => by simp at hv⟩
  | command x hd =>
    refine ⟨_, rfl, fun v hv => ?_⟩
    simp only [Cfg.commandEvents, List.mem_append, List.mem_singleton, reduceCtorEq, or_false] at hv
    rcases Cfg.mem_actionEvents hv with e | e | e | ⟨a, e⟩ <;> simp_all
  | commandStuck x hd =>
    refine ⟨_, rfl, fun v hv => ?_⟩
    rcases Cfg.mem_actionEvents hv with e | e | e | ⟨a, e⟩ <;> simp_all
  | norm hd =>
    refine ⟨_, by simp only [afterNorm, List.append_assoc]; rfl, fun v hv => ?_⟩
    simp only [Cfg.normEvents, List.mem_append, List.mem_cons, List.not_mem_nil, or_false] at hv
    simp_all
  | normStuck hd =>
    refine ⟨_, rfl, fun v hv => ?_⟩
    simp only [Cfg.normEvents, List.mem_cons, List.not_mem_nil, or_false] at hv
    simp_all

/-! ## The SPD image -/

/-- A provider that has answered more reads has its image as it was: the block never writes the SPD space (R34). -/
@[simp] theorem State.setSpd_after_imageWf (s : State) (n : Nat) : (s.setSpd (s.spd.after n)).imageWf = s.imageWf := by
  unfold State.imageWf SpdSource.after
  rcases s.spd <;> rfl

/-- A read leaves the SPD image in its canonical form: the block never writes the SPD space (R34). -/
theorem State.spdTurn_imageWf {s : State} {dev off : Nat} {a : SpdAnswer} {src : SpdSource}
    (h : s.spdTurn dev off = some (a, src)) : (s.setSpd src).imageWf = s.imageWf := by
  unfold State.spdTurn at h
  unfold State.imageWf
  rcases hs : s.spd with _ | ⟨_ | ⟨b, l⟩⟩ | cells <;> simp only [hs, Option.some.injEq, Prod.mk.injEq] at h
  · obtain ⟨-, rfl⟩ := h; rfl
  · cases h
  · obtain ⟨-, rfl⟩ := h; rfl
  · obtain ⟨-, rfl⟩ := h; rfl

/-- The reset state's image is in canonical form. -/
theorem State.reset_imageWf : State.reset.imageWf = true := rfl

/-! ## A reset within an operation -/

/-- What a reset finds of a state after some events of the operation that began there: the configuration, the preserved
bits of CT and the SPD image are the same, and the clock has not gone back. -/
structure Interrupted (s u : State) : Prop where
  cfg : u.cfg = s.cfg
  ctLow : ctLow u.ct = ctLow s.ct
  now : s.now ≤ u.now
  imageWf : u.imageWf = s.imageWf

theorem Interrupted.refl (s : State) : Interrupted s s := ⟨rfl, rfl, le_rfl, rfl⟩

theorem Interrupted.trans {s u v : State} (h : Interrupted s u) (k : Interrupted u v) : Interrupted s v :=
  ⟨k.cfg.trans h.cfg, k.ctLow.trans h.ctLow, h.now.trans k.now, k.imageWf.trans h.imageWf⟩

/-- One event keeps what `Interrupted` says, if it writes no other preserved bits to CT. -/
theorem State.replayEvent_interrupted {s : State} {e : Event} (h : ∀ v, e = .regWrite (.ct v) → ctLow v = ctLow s.ct) :
    Interrupted s (s.replayEvent e) := by
  rcases e with ⟨dev, off, a⟩ | v | (v | v | v) | a | d | i
  · exact ⟨rfl, rfl, le_rfl, s.setSpd_after_imageWf 1⟩
  · exact .refl s
  · exact ⟨rfl, rfl, le_rfl, rfl⟩
  · exact ⟨rfl, h v rfl, le_rfl, rfl⟩
  · exact ⟨rfl, rfl, le_rfl, rfl⟩
  · exact .refl s
  · exact ⟨rfl, rfl, Nat.le_add_right _ _, rfl⟩
  · exact .refl s

theorem State.replay_interrupted (es : List Event) : ∀ {s : State},
    (∀ v, .regWrite (.ct v) ∈ es → Sys2Proof.ctLow v = Sys2Proof.ctLow s.ct) → Interrupted s (s.replay es) := by
  induction es with
  | nil => exact fun _ => .refl _
  | cons e es ih =>
    intro s h
    have one := State.replayEvent_interrupted (s := s) (e := e) fun v hv => h v (by simp [hv])
    exact one.trans (ih fun v hv => (h v (List.mem_cons_of_mem _ hv)).trans one.ctLow.symm)

/-- A reset within an operation is a reset of a state that the operation was interrupted in (R166). -/
theorem OperationEnds.resetAfter {s t : State} {i : Instr} (h : OperationEnds s i t) (k : Nat) :
    ∃ u, Interrupted s u ∧ s.resetAfter k t = u.blockReset := by
  obtain ⟨es, he, hv⟩ := h.events
  have hi := State.replay_interrupted (s := s) (es.take k) fun v hm => hv v (List.mem_of_mem_take hm)
  refine ⟨_, ?_, rfl⟩
  rw [he, List.drop_left]
  exact ⟨hi.cfg, hi.ctLow, hi.now, hi.imageWf⟩

/-! ## One step -/

/-- A step that does not refuse its configuration has an admitted one (R8, U18). -/
theorem admitted_of_step {s t : State} (h : step s = .next t) : s.cfg.Admitted := by
  rw [← Cfg.violation_eq_none_iff_admitted]
  unfold step State.turn at h
  cases hv : s.cfg.violation with
  | none => rfl
  | some k => simp [hv] at h

/-- A configuration that is not admitted is refused by the name of a constraint it fails (R8, U18). -/
theorem step_not_admitted {s : State} (h : ¬ s.cfg.Admitted) :
    ∃ k, s.cfg.ok k = false ∧ step s = .refused (.cfgNotAdmitted k) := by
  rw [← Cfg.violation_eq_none_iff_admitted] at h
  obtain ⟨k, hk⟩ := Option.ne_none_iff_exists'.mp h
  refine ⟨k, ?_, by simp [step, State.turn, hk]⟩
  simpa using List.find?_some hk

/-- The block's own turn: its pending operation, else rest (R134, R138, R163). -/
def ownStep (s : State) : Result :=
  match s.pending with
  | some i => exec i s
  | none => .next s

/-- A reset within the block's own turn (R166). -/
def cutStep (k : Nat) (s : State) : Result :=
  match s.pending with
  | some i => resetDuring k s (exec i s)
  | none => .next s.blockReset

/-- Under an admitted configuration a step takes the host's next input, or is the block's own turn. -/
theorem step_eq {s : State} (h : s.cfg.Admitted) : step s =
    match s.host with
    | [] => ownStep s
    | .run :: rest => ownStep (s.setHost rest)
    | .start :: rest => .next (s.setHost rest).start
    | .reset :: rest => .next (s.setHost rest).blockReset
    | .resetWithin k :: rest => cutStep k (s.setHost rest) := by
  rw [← Cfg.violation_eq_none_iff_admitted] at h
  unfold step State.turn
  rw [h]
  rcases s.host with _ | ⟨_ | _ | k | _, rest⟩
  · simp only [State.ownTurn, ownStep]
    cases s.pending <;> rfl
  · rfl
  · rfl
  · simp only [State.cutTurn, cutStep]
    cases (s.setHost rest).pending <;> rfl
  · simp only [State.ownTurn, ownStep]
    cases (s.setHost rest).pending <;> rfl

@[simp] theorem State.setHost_pending (s : State) (v : List HostInput) : (s.setHost v).pending = s.pending := rfl

/-- The pending operation is the one at PH of a block that is not stuck. -/
theorem State.pending_eq_some {s : State} {i : Instr} (h : s.pending = some i) :
    ∃ n, s.ph = .step n ∧ s.stall = none ∧ i = seqRom n := by
  unfold State.pending State.fetch at h
  cases hs : s.stall with
  | some _ => simp [hs] at h
  | none =>
    cases hp : s.ph with
    | idle => simp [hs, hp] at h
    | step n => exact ⟨n, rfl, rfl, by simpa [hs, hp, eq_comm] using h⟩
    | done => simp [hs, hp] at h

/-- A block with no pending operation is in IDLE or DONE, or stuck. -/
theorem State.pending_eq_none {s : State} (h : s.pending = none) : s.ph = .idle ∨ s.ph = .done ∨ s.stall ≠ none := by
  unfold State.pending State.fetch at h
  cases hs : s.stall with
  | some _ => simp
  | none => cases hp : s.ph <;> simp [hs, hp] at h ⊢

theorem State.pending_step {s : State} {n : Fin 18} (hp : s.ph = .step n) (hs : s.stall = none) :
    s.pending = some (seqRom n) := by
  simp [State.pending, State.fetch, hp, hs]

/-- The cases of a step that answers a next state: START, a reset where the block stands or within an operation, a rest, or
an operation. -/
theorem step_cases {s t : State} (h : step s = .next t) :
    (∃ rest, s.host = .start :: rest ∧ t = (s.setHost rest).start) ∨
    (∃ rest u, (s.host = .reset :: rest ∨ ∃ k, s.host = .resetWithin k :: rest) ∧ Interrupted (s.setHost rest) u ∧
      t = u.blockReset) ∨
    ∃ rest, (s.host = [] ∧ rest = [] ∨ s.host = .run :: rest) ∧
      (s.pending = none ∧ t = s.setHost rest ∨
        ∃ n, s.ph = .step n ∧ s.stall = none ∧ OperationEnds (s.setHost rest) (seqRom n) t) := by
  have ha := admitted_of_step h
  rw [step_eq ha] at h
  have own : ∀ s' : State, s'.cfg = s.cfg → ownStep s' = .next t → s'.pending = none ∧ t = s' ∨
      ∃ n, s'.ph = .step n ∧ s'.stall = none ∧ OperationEnds s' (seqRom n) t := by
    intro s' hc hs
    unfold ownStep at hs
    cases hp : s'.pending with
    | none => simp only [hp, Host.Outcome.next.injEq] at hs; exact .inl ⟨rfl, hs.symm⟩
    | some i =>
      obtain ⟨n, h1, h2, rfl⟩ := State.pending_eq_some hp
      simp only [hp] at hs
      exact .inr ⟨n, h1, h2, exec_ends (hc ▸ ha) hs⟩
  rcases hh : s.host with _ | ⟨_ | _ | k | _, rest⟩ <;> rw [hh] at h
  · have hs : s.setHost [] = s := by cases s; simp_all [State.setHost]
    refine .inr (.inr ⟨[], .inl ⟨rfl, rfl⟩, ?_⟩)
    rw [hs]
    exact own s rfl h
  · simp only [Host.Outcome.next.injEq] at h
    exact .inl ⟨rest, rfl, h.symm⟩
  · simp only [Host.Outcome.next.injEq] at h
    exact .inr (.inl ⟨rest, _, .inl rfl, .refl _, h.symm⟩)
  · refine .inr (.inl ⟨rest, ?_⟩)
    simp only [cutStep] at h
    cases hp : (s.setHost rest).pending with
    | none =>
      simp only [hp, Host.Outcome.next.injEq] at h
      exact ⟨_, .inr ⟨k, rfl⟩, .refl _, h.symm⟩
    | some i =>
      simp only [hp] at h
      cases he : exec i (s.setHost rest) with
      | next u =>
        simp only [he, resetDuring, Host.Outcome.next.injEq] at h
        obtain ⟨v, hv, e⟩ := (exec_ends (by exact ha) he).resetAfter k
        exact ⟨v, .inr ⟨k, rfl⟩, hv, h.symm.trans e⟩
      | fault f => simp [he, resetDuring] at h
      | refused r => simp [he, resetDuring] at h
  · exact .inr (.inr ⟨rest, .inr rfl, own (s.setHost rest) rfl h⟩)

/-- A predicate that a host input keeps and that every operation of the run keeps is kept by every step. -/
theorem step_keeps (inv : State → Prop)
    (host : ∀ s rest, inv s → inv (s.setHost rest))
    (start : ∀ s, inv s → s.ph = .idle → inv { s with ph := .step 0, tr := [] })
    (reset : ∀ s u, inv s → Interrupted s u → inv u.blockReset)
    (operation : ∀ s t n, s.cfg.Admitted → s.ph = .step n → s.stall = none → inv s → OperationEnds s (seqRom n) t → inv t)
    {s t : State} (hs : inv s) (h : step s = .next t) : inv t := by
  rcases step_cases h with ⟨rest, -, rfl⟩ | ⟨rest, u, -, hu, rfl⟩ | ⟨rest, -, ⟨-, rfl⟩ | ⟨n, hn, hl, he⟩⟩
  · by_cases hp : s.ph = .idle
    · rw [State.start_idle _ (by simpa using hp)]
      exact start _ (host s rest hs) hp
    · rw [State.start_ignored _ (by simpa using hp)]
      exact host s rest hs
  · exact reset _ u (host s rest hs) hu
  · exact host s rest hs
  · have ha : s.cfg.Admitted := admitted_of_step h
    exact operation (s.setHost rest) t n ha hn hl (host s rest hs) he

end Sys2Proof.Machine
end

