-- ==== Sys2Proof/Laws/PerInstr.lean ====
section
/-! SUPPORT. Statements made operation by operation, about the operation as syntax. -/

/-! ## The sequence ROM and the steps the opcode table lists agree (30_encoding R64) -/

/-- The sequence ROM selects an operation at a step exactly when its table row lists the step, and the row lists one. -/
def Sys2Proof.Laws.SequenceRom.Statement (i : Sys2Proof.Instr) : Prop :=
  i.wellFormed = true ∧ ∀ p, Sys2Proof.seqRom p = i ↔ p ∈ i.steps

namespace Sys2Proof.Laws.SequenceRom

theorem rddesc (k : Socket) (cs : CallSite) : Statement (.rddesc k cs) := by
  cases k <;> cases cs <;> exact ⟨rfl, by decide⟩

theorem encrp : Statement .encrp := ⟨rfl, by decide⟩

theorem encst : Statement .encst := ⟨rfl, by decide⟩

theorem cmdNop : Statement .cmdNop := ⟨rfl, by decide⟩

theorem cmdPre : Statement .cmdPre := ⟨rfl, by decide⟩

theorem cmdRef : Statement .cmdRef := ⟨rfl, by decide⟩

theorem cmdMrs : Statement .cmdMrs := ⟨rfl, by decide⟩

theorem cmdNorm : Statement .cmdNorm := ⟨rfl, by decide⟩

end Sys2Proof.Laws.SequenceRom
end

