-- ==== Sys2Proof/Laws/Trace.lean ====
section
/-! SUPPORT. What each projection of the trace (00_scope R11) makes of a longer trace and of the events of each operation. -/

namespace Sys2Proof.Machine

/-! ## Longer traces -/

@[simp] theorem ctWrites_append (a b : List Event) : ctWrites (a ++ b) = ctWrites a ++ ctWrites b := List.filterMap_append
@[simp] theorem rpWrites_append (a b : List Event) : rpWrites (a ++ b) = rpWrites a ++ rpWrites b := List.filterMap_append
@[simp] theorem stWrites_append (a b : List Event) : stWrites (a ++ b) = stWrites a ++ stWrites b := List.filterMap_append
@[simp] theorem rpReads_append (a b : List Event) : rpReads (a ++ b) = rpReads a ++ rpReads b := List.filterMap_append
@[simp] theorem waits_append (a b : List Event) : waits (a ++ b) = waits a ++ waits b := List.filterMap_append
@[simp] theorem commandActs_append (a b : List Event) : commandActs (a ++ b) = commandActs a ++ commandActs b :=
  List.filterMap_append
@[simp] theorem spdCount_append (a b : List Event) : spdCount (a ++ b) = spdCount a + spdCount b := List.countP_append
@[simp] theorem diagCount_append (a b : List Event) : diagCount (a ++ b) = diagCount a + diagCount b := List.countP_append

/-! ## The events of a reader: reads of the SPD space alone -/

/-- Events that are all reads of the SPD space: those of a reader, and any part of them. -/
def AllSpd (es : List Event) : Prop := ∀ e ∈ es, ∃ dev off a, e = .spd dev off a

theorem State.readEvents_allSpd (s : State) (i : Socket) (cs : CallSite) : AllSpd (s.readEvents i cs) := fun _ h =>
  let ⟨off, a, e⟩ := State.mem_readEvents h
  ⟨_, off, a, e⟩

theorem AllSpd.take {es : List Event} (h : AllSpd es) (n : Nat) : AllSpd (es.take n) := fun e he =>
  h e (List.mem_of_mem_take he)

/-- What a projection that drops reads of the SPD space makes of them. -/
theorem AllSpd.filterMap_eq_nil {α : Type} {es : List Event} (h : AllSpd es) {f : Event → Option α}
    (hf : ∀ dev off a, f (.spd dev off a) = none) : es.filterMap f = [] := by
  rw [List.filterMap_eq_nil_iff]
  intro e he
  obtain ⟨dev, off, a, rfl⟩ := h e he
  exact hf dev off a

section
variable {es : List Event} (h : AllSpd es)
include h

theorem AllSpd.ctWrites : ctWrites es = [] := h.filterMap_eq_nil fun _ _ _ => rfl
theorem AllSpd.rpWrites : rpWrites es = [] := h.filterMap_eq_nil fun _ _ _ => rfl
theorem AllSpd.stWrites : stWrites es = [] := h.filterMap_eq_nil fun _ _ _ => rfl
theorem AllSpd.rpReads : rpReads es = [] := h.filterMap_eq_nil fun _ _ _ => rfl
theorem AllSpd.waits : waits es = [] := h.filterMap_eq_nil fun _ _ _ => rfl
theorem AllSpd.commandActs : commandActs es = [] := h.filterMap_eq_nil fun _ _ _ => rfl

theorem AllSpd.spdCount : spdCount es = es.length := by
  refine List.countP_eq_length.mpr fun e he => ?_
  obtain ⟨dev, off, a, rfl⟩ := h e he
  rfl

theorem AllSpd.diagCount : diagCount es = 0 := by
  refine List.countP_eq_zero.mpr fun e he => ?_
  obtain ⟨dev, off, a, rfl⟩ := h e he
  exact Bool.false_ne_true

end

/-! ## The events of ENCRP's diagnostics -/

@[simp] theorem ctWrites_oversizeEvents (i : Socket) (d : Descriptor) : ctWrites (oversizeEvents i d) = [] := by
  unfold oversizeEvents; split <;> rfl
@[simp] theorem rpWrites_oversizeEvents (i : Socket) (d : Descriptor) : rpWrites (oversizeEvents i d) = [] := by
  unfold oversizeEvents; split <;> rfl
@[simp] theorem stWrites_oversizeEvents (i : Socket) (d : Descriptor) : stWrites (oversizeEvents i d) = [] := by
  unfold oversizeEvents; split <;> rfl
@[simp] theorem rpReads_oversizeEvents (i : Socket) (d : Descriptor) : rpReads (oversizeEvents i d) = [] := by
  unfold oversizeEvents; split <;> rfl
@[simp] theorem waits_oversizeEvents (i : Socket) (d : Descriptor) : waits (oversizeEvents i d) = [] := by
  unfold oversizeEvents; split <;> rfl
@[simp] theorem commandActs_oversizeEvents (i : Socket) (d : Descriptor) : commandActs (oversizeEvents i d) = [] := by
  unfold oversizeEvents; split <;> rfl
@[simp] theorem spdCount_oversizeEvents (i : Socket) (d : Descriptor) : spdCount (oversizeEvents i d) = 0 := by
  unfold oversizeEvents; split <;> rfl
@[simp] theorem diagCount_oversizeEvents (i : Socket) (d : Descriptor) :
    diagCount (oversizeEvents i d) = (oversizeEvents i d).length := by
  unfold oversizeEvents; split <;> rfl

/-! ## The events of a delivered command's actions -/

section
variable (c : Cfg) (x : AddrCommand) (ct rp : Byte)

@[simp] theorem ctWrites_actionEvents :
    ctWrites (c.actionEvents x ct rp) = [ctByte (c.code x.toCommand) (ctLow ct)] := by
  simp [ctWrites, Cfg.actionEvents]
@[simp] theorem rpWrites_actionEvents : rpWrites (c.actionEvents x ct rp) = [] := by
  simp [rpWrites, Cfg.actionEvents]
@[simp] theorem stWrites_actionEvents : stWrites (c.actionEvents x ct rp) = [] := by
  simp [stWrites, Cfg.actionEvents]
@[simp] theorem rpReads_actionEvents : rpReads (c.actionEvents x ct rp) = [rp, rp] := by
  simp [rpReads, Cfg.actionEvents]
@[simp] theorem waits_actionEvents : waits (c.actionEvents x ct rp) = [] := by
  simp [waits, Cfg.actionEvents]
@[simp] theorem commandActs_actionEvents :
    commandActs (c.actionEvents x ct rp) = c.actsOf (ctLow ct) rp x.toCommand := by
  have mem : ∀ l : List Addr, commandActs (l.map .mem) = l.map .send := by
    intro l
    induction l with
    | nil => rfl
    | cons a l ih => exact congrArg (CommandAct.send a :: ·) ih
  have reads : c.commandReads rp x.toCommand = c.rankReads rp x .s0 ++ c.rankReads rp x .s1 := by cases x <;> rfl
  simp only [Cfg.actionEvents, commandActs_append, mem, Cfg.actsOf, reads, List.map_append]
  simp [commandActs]
@[simp] theorem spdCount_actionEvents : spdCount (c.actionEvents x ct rp) = 0 := by
  refine List.countP_eq_zero.mpr fun e he => ?_
  rcases Cfg.mem_actionEvents he with rfl | rfl | rfl | ⟨a, rfl⟩ <;> exact Bool.false_ne_true
@[simp] theorem diagCount_actionEvents : diagCount (c.actionEvents x ct rp) = 0 := by
  refine List.countP_eq_zero.mpr fun e he => ?_
  rcases Cfg.mem_actionEvents he with rfl | rfl | rfl | ⟨a, rfl⟩ <;> exact Bool.false_ne_true

/-- The actions are one event fewer than R142 counts for the command, for want of the delay. -/
theorem length_actionEvents : (c.actionEvents x ct rp).length + 1 = c.eventCount rp x.toCommand := by
  cases x <;> simp [Cfg.actionEvents, Cfg.eventCount, AddrCommand.toCommand, Cfg.rankCount, Cfg.rankReads] <;> omega

end

/-! ## The command a block is stuck in -/

@[simp] theorem Instr.command?_ofCommand (x : Command) : (Instr.ofCommand x).command? = some x := by cases x <;> rfl

theorem State.stalledCommands_none {s : State} (h : s.stall = none) : s.stalledCommands = [] := by
  simp [State.stalledCommands, h]

theorem State.stalledCommands_spdRead {s : State} (h : s.stall = some .spdRead) : s.stalledCommands = [] := by
  simp [State.stalledCommands, h]

theorem State.stalledCommands_wait {s : State} {n : Fin 18} (h : s.stall = some .wait) (hp : s.ph = .step n) :
    s.stalledCommands = (seqRom n).command?.toList := by
  simp [State.stalledCommands, h, State.fetch, hp]

/-- A block in IDLE is stuck in no command. -/
theorem State.stalledCommands_idle {s : State} (hp : s.ph = .idle) : s.stalledCommands = [] := by
  unfold State.stalledCommands State.fetch
  split <;> simp [hp]

/-- A block that was reset is stuck in no command. -/
@[simp] theorem State.stalledCommands_blockReset (s : State) : s.blockReset.stalledCommands = [] := rfl

/-- A block at step 0 is stuck in no command. -/
theorem State.stalledCommands_first {s : State} (hp : s.ph = .step 0) : s.stalledCommands = [] := by
  unfold State.stalledCommands State.fetch
  split <;> simp [hp, seqRom, Instr.command?]

end Sys2Proof.Machine
end

