-- ==== Sys2Proof/Tests/Slice0.lean ====
section
/-! SUPPORT. Tests of single steps against the vectors of spec/95_test_vectors (named by their ids T<n>), words written
out from the encodings of spec/30_encoding, terms that the checks refuse, and for every statement with hypotheses a
state and operands that meet them. The time a step takes is free, so no test reads NOW. -/

namespace Sys2Proof.Tests

open Sys2Proof Sys2Proof.Machine

/-! ## Helpers -/

/-- The result is a next state of which a test holds. -/
def answers (r : Result) (p : State → Bool) : Bool :=
  match r with
  | .next t => p t
  | .fault _ => false
  | .refused _ => false

theorem next_of_answers {r : Result} {p : State → Bool} (h : answers r p = true) : ∃ t, r = .next t := by
  cases r with
  | next t => exact ⟨t, rfl⟩
  | fault _ => cases h
  | refused _ => cases h

/-- REF in the reset state, at a phase. -/
def at_ (p : Phase) : State := { State.reset with cfg := Cfg.ref, ph := p }

/-- The same with the provider's answers in order. -/
def asked (p : Phase) (l : List SpdAnswer) : State := { at_ p with spd := .inOrder l }

/-- The same with two descriptors. -/
def fitted (p : Phase) (a b : Descriptor) : State := { at_ p with d0 := a, d1 := b }

/-- The same with CT and RP. -/
def sending (p : Phase) (ct rp : Byte) : State := { at_ p with ct := ct, rp := rp }

def singleSided (n : Byte) : Descriptor := { present := true, dual := false, density := n }
def dualSided (n : Byte) : Descriptor := { present := true, dual := true, density := n }

/-- REF with the variant sidedness at call site G. -/
def variant (p : Phase) (l : List SpdAnswer) : State := { asked p l with cfg := Cfg.refVariant }

theorem ref_admitted : Cfg.ref.Admitted := (Cfg.violation_eq_none_iff_admitted _).mp (by decide)
theorem refVariant_admitted : Cfg.refVariant.Admitted := (Cfg.violation_eq_none_iff_admitted _).mp (by decide)
theorem boot_admitted : Cfg.boot.Admitted := (Cfg.violation_eq_none_iff_admitted _).mp (by decide)

/-! ## What the checks refuse -/

theorem test_densityRange : Cfg.violation { Cfg.boot with densityToNibble := densityTable (.known 2#4) } =
    some .densityRange := by decide
/-- R8 item 1, U5: a table without an entry for some counts is REF's alone, so REF with any other delay fails, and so does
one missing entry. REF with the sidedness variant (G6) or with other open strength words is REF. -/
theorem test_densityRange_total : Cfg.violation { Cfg.ref with delayNop := 201 } = some .densityRange ∧
    Cfg.violation { Cfg.boot with densityToNibble := Cfg.boot.densityToNibble.set 3 .invalid } =
      some .densityRange ∧
    Cfg.violation { Cfg.refVariant with strengthOpen := .clear } = none ∧
    Cfg.violation { Cfg.refVariant with sidedOffGeom := 126 } = some .densityRange := by decide
theorem test_densityPins : Cfg.violation { Cfg.boot with densityToNibble := Vector.replicate 33 (.known 0xD#4) } =
    some .densityPins := by decide
theorem test_sizeSentinels : Cfg.violation
    { Cfg.boot with sizeTotalTable := #v[0, 8, 16, 16, 16, 24, 32, 32, 48, 64, 64, 96, 128, 128, 192, 256] } =
    some .sizeSentinels := by decide
theorem test_sizePins : Cfg.violation
    { Cfg.boot with sizeTotalTable := #v[0, 8, 0, 16, 16, 24, 32, 32, 48, 64, 64, 96, 128, 64, 192, 256] } =
    some .sizePins := by decide
theorem test_sizeConsistency : Cfg.violation
    { Cfg.boot with sizeBank0Table := #v[0, 8, 0, 8, 0, 16, 16, 0, 32, 32, 0, 64, 64, 0, 128, 128] } =
    some .sizeConsistency := by decide
theorem test_addressRange : Cfg.violation { Cfg.boot with cmdOffsetNop := 0xFFFFFFFC#32 } = some .addressRange := by
  decide
theorem test_secondRankRange : Cfg.violation
    { Cfg.boot with sizeBank0Table := #v[0, 0, 0, 8, 0, 16, 16, 0, 32, 32, 0, 64, 64, 0, 128, 4096] } =
    some .secondRankRange := by decide
theorem test_codesDistinct : Cfg.violation { Cfg.boot with codePre := 4#3 } = some .codesDistinct := by decide
theorem test_offsetsAligned : Cfg.violation { Cfg.boot with cmdOffsetRef := 2#32 } = some .offsetsAligned := by decide
theorem test_delayOrder : Cfg.violation { Cfg.boot with delayMrs := 1 } = some .delayOrder := by decide
theorem test_providerRange : Cfg.violation { Cfg.boot with spdBase := 127 } = some .providerRange := by decide

/-- R15: an absent socket with a density is no descriptor. -/
theorem test_descriptor_wf : Descriptor.wf { present := false, dual := false, density := 1#8 } = false := by decide

/-- An image whose places do not rise is not canonical. -/
theorem test_image_wf : spdImageWf [((0x51, 2), 4#8), ((0x50, 31), 4#8)] = false ∧
    spdImageWf [((0x50, 2), 4#8), ((0x50, 2), 4#8)] = false ∧
    spdImageWf [((0x50, 2), 4#8), ((0x50, 31), 16#8), ((0x51, 2), 4#8)] = true := by decide

/-- Every operation stands somewhere in the sequence ROM (R64). -/
theorem test_wellFormed : Instr.wellFormed (.rddesc .s1 .timing) = true ∧ Instr.wellFormed .cmdNorm = true := by
  decide

/-! ## Decoding, from words written out by R59, R60 and R64 -/

theorem test_decode_rddesc : decodeTableWord 8 0b00000 = some (.rddesc .s0 .geometry) ∧
    decodeTableWord 8 0b00001 = some (.rddesc .s1 .geometry) ∧
    decodeTableWord 8 0b00011 = some (.rddesc .s0 .timing) ∧
    decodeTableWord 8 0b00100 = some (.rddesc .s1 .timing) := by decide
theorem test_decode_encrp : decodeTableWord 8 0b00010 = some .encrp := by decide
theorem test_decode_encst : decodeTableWord 8 0b00101 = some .encst := by decide
theorem test_decode_cmdNop : decodeTableWord 8 0b10011111 = some .cmdNop ∧ decodeTableWord 8 0b00110 = some .cmdNop := by
  decide
theorem test_decode_cmdPre : decodeTableWord 8 0b10111111 = some .cmdPre ∧ decodeTableWord 8 0b00111 = some .cmdPre := by
  decide
theorem test_decode_cmdRef : decodeTableWord 8 0b11101010 = some .cmdRef ∧ decodeTableWord 8 0b01000 = some .cmdRef ∧
    decodeTableWord 8 0b01111 = some .cmdRef := by decide
theorem test_decode_cmdMrs : decodeTableWord 8 0b11011111 = some .cmdMrs ∧ decodeTableWord 8 0b10000 = some .cmdMrs := by
  decide
theorem test_decode_cmdNorm : decodeTableWord 8 0b00111111 = some .cmdNorm ∧
    decodeTableWord 8 0b10001 = some .cmdNorm := by decide
/-- R14, R69: step 18 and the codes 0b010 and 0b011 name no operation. -/
theorem test_decode_refuses : decodeTableWord 8 0b10010 = none ∧ decodeTableWord 8 0b01000000 = none ∧
    decodeTableWord 8 0b01111111 = none := by decide
theorem test_encode : encode Cfg.ref 0b10101#5 .cmdNop = [0x95#8] ∧ encode Cfg.ref 0b01010#5 .cmdNorm = [0x2A#8] ∧
    encode Cfg.ref 0#5 .encst = [5#8] := by decide

/-! ## One operation, by the vectors of 95_test_vectors -/

/-- T4, T6 and T9. -/
theorem test_rddesc_fail_soft :
    answers (exec (.rddesc .s0 .geometry) (asked (.step 0) [.byte 255#8]))
      (fun t => t.d0 = .empty ∧ t.tr = [.spd 0x50 2 (.byte 255#8)] ∧ t.ph = .step 1) = true ∧
    answers (exec (.rddesc .s0 .geometry) (asked (.step 0) [.byte 4#8, .byte 32#8, .fail]))
      (fun t => t.d0 = .empty ∧
        t.tr = [.spd 0x50 2 (.byte 4#8), .spd 0x50 31 (.byte 32#8), .spd 0x50 5 .fail]) = true ∧
    answers (exec (.rddesc .s0 .geometry) (asked (.step 0) [.byte 4#8, .byte 0#8, .byte 0#8]))
      (fun t => t.d0 = singleSided 0#8) = true := by decide

/-- T12, and T14 and T15 under the variant, with its call site T still by R77. -/
theorem test_rddesc_sidedness :
    answers (exec (.rddesc .s1 .timing) (asked (.step 4) [.byte 4#8, .byte 8#8, .byte 4#8]))
      (fun t => t.d1 = dualSided 8#8 ∧ t.d0 = .empty ∧
        t.tr = [.spd 0x51 2 (.byte 4#8), .spd 0x51 31 (.byte 8#8), .spd 0x51 5 (.byte 4#8)]) = true ∧
    answers (exec (.rddesc .s0 .geometry) (variant (.step 0) [.byte 4#8, .byte 16#8, .byte 0xF0#8]))
      (fun t => t.d0 = dualSided 16#8 ∧ t.tr.getLast? = some (.spd 0x50 127 (.byte 0xF0#8))) = true ∧
    answers (exec (.rddesc .s0 .geometry) (variant (.step 0) [.byte 4#8, .byte 16#8, .byte 0x7F#8]))
      (fun t => t.d0 = singleSided 16#8) = true ∧
    answers (exec (.rddesc .s0 .timing) (variant (.step 3) [.byte 4#8, .byte 16#8, .byte 1#8]))
      (fun t => t.d0 = singleSided 16#8 ∧ t.tr.getLast? = some (.spd 0x50 5 (.byte 1#8))) = true := by decide

/-- T45 and T47. -/
theorem test_encrp_packs :
    answers (exec .encrp (fitted (.step 2) (dualSided 255#8) (singleSided 33#8)))
      (fun t => t.rp = 0xDF#8 ∧ t.tr = [.diag .s0, .diag .s1, .regWrite (.rp 0xDF#8)] ∧ t.ovs0 ∧ t.ovs1) = true ∧
    answers (exec .encrp (fitted (.step 2) (singleSided 2#8) (dualSided 32#8)))
      (fun t => t.rp = 0xF1#8 ∧ t.tr = [.regWrite (.rp 0xF1#8)] ∧ !t.ovs0 ∧ !t.ovs1) = true := by decide

/-- T36: REF's own table has no entry at count 0. -/
theorem test_encrp_refuses :
    exec .encrp (fitted (.step 2) .empty (singleSided 0#8)) = .refused (.densityNotInTable 0) := by rfl

/-- R6, by PG4: a count of 40 is 160 MB per side, which is encoded as 128 MB; a count of 16 is 64 MB (R56). -/
theorem test_sideMb : (dualSided 40#8).rawSideMb = 160 ∧ (dualSided 40#8).sideMb = 128 ∧
    (dualSided 16#8).sideMb = 64 := by decide

/-- T60, T62 and T64. -/
theorem test_encst :
    answers (exec .encst (fitted (.step 5) .empty .empty)) (fun t => t.st = 0x0000#16) = true ∧
    answers (exec .encst (fitted (.step 5) (dualSided 2#8) .empty))
      (fun t => t.st = 0x3356#16 ∧ t.tr = [.regWrite (.st 0x3356#16)]) = true ∧
    answers (exec .encst (fitted (.step 5) (singleSided 2#8) (singleSided 255#8)))
      (fun t => t.st = 0x55C6#16 ∧ !t.ovs1) = true := by decide

/-- T120. -/
theorem test_cmdNop :
    answers (exec .cmdNop (sending (.step 6) 0x15#8 0x0C#8)) (fun t => t.ct = 0x95#8 ∧ t.ph = .step 7 ∧
      t.tr = [.regRead (.ct 0x15#8), .regWrite (.ct 0x95#8), .regRead (.rp 0x0C#8), .mem 0#32, .mem 0x04000000#32,
        .regRead (.rp 0x0C#8), .wait 200]) = true := by decide

/-- T114 (a reserved nibble read back) and T116 (bank 0 larger than the rest). -/
theorem test_cmdNop_deliver :
    answers (exec .cmdNop (sending (.step 6) 0#8 0xD2#8)) (fun t => t.dimmStart = 128#16 ∧
      sentFrom none t.tr = [(some 4#3, 0#32)]) = true ∧
    answers (exec .cmdNop (sending (.step 6) 0#8 0x5E#8)) (fun t => t.dimmStart = 216#16 ∧
      sentFrom none t.tr = [(some 4#3, 0#32), (some 4#3, 0x08000000#32), (some 4#3, 0x0C000000#32),
        (some 4#3, 0x0D000000#32)]) = true := by decide

/-- T121. -/
theorem test_cmdPre :
    answers (exec .cmdPre (sending (.step 7) 0x95#8 0x0C#8)) (fun t => t.ct = 0xB5#8 ∧ t.ph = .step 8 ∧
      t.tr = [.regRead (.ct 0x95#8), .regWrite (.ct 0xB5#8), .regRead (.rp 0x0C#8), .mem 0#32, .mem 0x04000000#32,
        .regRead (.rp 0x0C#8), .wait 1]) = true := by decide

/-- T122 and the phase after the eighth. -/
theorem test_cmdRef :
    answers (exec .cmdRef (sending (.step 15) 0xB5#8 0xDD#8)) (fun t => t.ct = 0xF5#8 ∧ t.ph = .step 16 ∧
      t.tr = [.regRead (.ct 0xB5#8), .regWrite (.ct 0xF5#8), .regRead (.rp 0xDD#8), .mem 0#32, .regRead (.rp 0xDD#8),
        .mem 0x08000000#32, .wait 1]) = true := by decide

/-- T124. -/
theorem test_cmdMrs :
    answers (exec .cmdMrs (sending (.step 16) 0xF5#8 0xDD#8)) (fun t => t.ct = 0xD5#8 ∧ t.ph = .step 17 ∧
      t.tr = [.regRead (.ct 0xF5#8), .regWrite (.ct 0xD5#8), .regRead (.rp 0xDD#8), .mem 0x1D0#32,
        .regRead (.rp 0xDD#8), .mem 0x08001E28#32, .wait 2]) = true := by decide

/-- T118: the largest address a run under REF can send. -/
theorem test_cmdMrs_largest :
    answers (exec .cmdMrs (sending (.step 16) 0#8 0xFF#8)) (fun t => t.dimmStart = 512#16 ∧
      sentFrom none t.tr = [(some 6#3, 0x1D0#32), (some 6#3, 0x080001D0#32), (some 6#3, 0x10001E28#32),
        (some 6#3, 0x18001E28#32)]) = true := by decide

/-- T127. -/
theorem test_cmdNorm :
    answers (exec .cmdNorm (sending (.step 17) 0xD5#8 0xDD#8)) (fun t => t.ct = 0x35#8 ∧ t.ph = .done ∧
      t.tr = [.regRead (.ct 0xD5#8), .regWrite (.ct 0x35#8), .wait 1]) = true := by decide

/-- R163, with T6's answers cut short: stuck after two reads, with no fault, PH and D[0] as they were. -/
theorem test_rddesc_stuck :
    answers (exec (.rddesc .s0 .geometry) (asked (.step 0) [.byte 4#8, .byte 32#8])) (fun t => t.ph = .step 0 ∧
      t.stall = some .spdRead ∧ t.d0 = .empty ∧
      t.tr = [.spd 0x50 2 (.byte 4#8), .spd 0x50 31 (.byte 32#8)]) = true := by decide

/-- R163, with T120's delay never ending. -/
theorem test_cmdNop_stuck :
    answers (exec .cmdNop { sending (.step 6) 0x15#8 0x0C#8 with delays := .inOrder [] }) (fun t => t.ct = 0x95#8 ∧
      t.ph = .step 6 ∧ t.stall = some .wait ∧ t.tr.getLast? = some (.regRead (.rp 0x0C#8))) = true := by decide

/-! ## One step -/

/-- R133: START from reset; and T147, T148. -/
theorem test_start :
    answers (step { State.reset with host := [.start] }) (fun t => t.ph = .step 0 ∧ t.host = [] ∧ t.tr = []) = true ∧
    answers (step { at_ (.step 7) with host := [.start] }) (fun t => t.ph = .step 7) = true ∧
    answers (step { at_ .done with host := [.start] }) (fun t => t.ph = .done) = true := by decide

/-- R166, R167: a reset of the block in step 9 keeps CT and RP and empties the trace (T149). -/
theorem test_reset :
    answers (step { sending (.step 9) 0xF5#8 0xDD#8 with host := [.reset], tr := [.diag .s0], ovs0 := true })
      (fun t => t.ph = .idle ∧ t.tr = [] ∧ !t.ovs0 ∧ t.ct = 0xF5#8 ∧ t.rp = 0xDD#8) = true := by decide

/-- R166: T120 reset after none, one, two and all of its primitives but the `Wait`: CT is written by the second. -/
theorem test_resetWithin :
    answers (step { sending (.step 6) 0x15#8 0x0C#8 with host := [.resetWithin 0] })
      (fun t => t.ct = 0x15#8 ∧ t.ph = .idle) = true ∧
    answers (step { sending (.step 6) 0x15#8 0x0C#8 with host := [.resetWithin 1] }) (fun t => t.ct = 0x15#8) = true ∧
    answers (step { sending (.step 6) 0x15#8 0x0C#8 with host := [.resetWithin 2] })
      (fun t => t.ct = 0x95#8 ∧ t.ph = .idle ∧ t.tr = [] ∧ t.rp = 0x0C#8) = true ∧
    answers (step { sending (.step 6) 0x15#8 0x0C#8 with host := [.resetWithin 6], delays := .inOrder [3] })
      (fun t => t.ct = 0x95#8 ∧ t.delays = .inOrder [3]) = true := by decide

/-- R133, R163: a stuck block rests, ignores START, and is reset to IDLE. -/
theorem test_stuck_step :
    answers (step { at_ (.step 8) with stall := some .wait }) (fun t => t.ph = .step 8 ∧ t.stall = some .wait) = true ∧
    answers (step { at_ (.step 8) with stall := some .wait, host := [.start] }) (fun t => t.ph = .step 8) = true ∧
    answers (step { at_ (.step 8) with stall := some .wait, host := [.reset] })
      (fun t => t.ph = .idle ∧ t.stall = none) = true := by decide

/-- The words of the opcode table as the first operation after reset (log 18). -/
theorem test_withFetchWord :
    answers (step (State.reset.withFetchWord 8 2)) (fun t => t.ph = .step 3) = true ∧
    answers (step (State.reset.withFetchWord 8 5)) (fun t => t.ph = .step 6) = true ∧
    answers (step (State.reset.withFetchWord 8 0x8A)) (fun t => t.ct = 0x8A#8 ∧ t.ph = .step 7) = true ∧
    answers (step (State.reset.withFetchWord 8 0x20)) (fun t => t.ct = 0x20#8 ∧ t.ph = .done) = true := by decide

/-! ## Witnesses: for each statement with hypotheses, something that meets them all together -/

theorem witness_DecodeInvertsEncode :
    [Cfg.ref.codeNop, Cfg.ref.codePre, Cfg.ref.codeRef, Cfg.ref.codeMrs, Cfg.ref.codeNorm].Nodup ∧
      Instr.wellFormed .cmdRef = true ∧ Instr.wellFormed (.rddesc .s1 .timing) = true := by decide

theorem witness_EncodeInvertsCtDecode : decode Cfg.ref .ct [0x95#8, 7#8] = .ok (.cmdNop, [7#8]) := by rfl

theorem witness_OtherCodesRefused : ∀ x, Cfg.ref.code x ≠ ctCode 0x5F#8 := by
  intro x
  cases x <;> decide

theorem witness_WithFetchWordPlacesOperation : State.reset.cfg.Admitted ∧
    decodeTableWord 8 17 = some .cmdNorm ∧ decodeTableWord 8 0xFF = some .cmdRef :=
  ⟨boot_admitted, by decide, by decide⟩

theorem witness_StepRunsDecodedOperation : (at_ (.step 17)).cfg.Admitted ∧
    decode Cfg.ref .seq [BitVec.ofNat 8 17] = .ok (.cmdNorm, []) ∧ (at_ (.step 17)).host = [] ∧
    (at_ (.step 17)).stall = none ∧ { at_ (.step 0) with host := [.run, .reset] }.host = .run :: [.reset] ∧
    decode Cfg.ref .seq [BitVec.ofNat 8 0] = .ok (.rddesc .s0 .geometry, []) :=
  ⟨ref_admitted, rfl, rfl, rfl, rfl, rfl⟩

theorem witness_BlockRestsOutsideRun : (at_ .idle).cfg.Admitted ∧ (at_ .idle).host = [] ∧ (at_ .done).host = [] :=
  ⟨ref_admitted, rfl, rfl⟩

theorem witness_StartHonouredOnlyInIdle : (at_ .idle).cfg.Admitted ∧
    { at_ .idle with host := [.start] }.ph = .idle ∧ { at_ (.step 17) with host := [.start] }.ph ≠ .idle ∧
    { at_ .done with host := [.start] }.ph ≠ .idle :=
  ⟨ref_admitted, rfl, by decide, by decide⟩

theorem witness_ResetInputClearsBlock : (at_ .done).cfg.Admitted ∧
    { at_ .done with host := [.reset, .start] }.host = .reset :: [.start] := ⟨ref_admitted, rfl⟩

theorem witness_InadmissibleConfigurationRefused :
    step { at_ .idle with cfg := { Cfg.boot with codePre := 4#3 } } = .refused (.cfgNotAdmitted .codesDistinct) := by rfl

/-- A table without entries in a configuration that is not REF, and under REF a present module whose count has none. -/
theorem witness_OnlyReferenceLacksEntries :
    Cfg.isRef { Cfg.ref with delayNop := 201 } = false ∧
    Cfg.densityEntry { Cfg.ref with delayNop := 201 } 0 = .invalid ∧ Cfg.ref.Admitted ∧ Cfg.ref.isRef = true ∧
    ((fitted (.step 2) .empty (singleSided 3#8)).desc .s1).present = true ∧
    (singleSided 3#8).sizeClass ∉ [2, 4, 8, 16, 32] ∧ (singleSided 255#8).sizeClass ∈ [2, 4, 8, 16, 32] ∧
    exec .encrp (fitted (.step 2) .empty (singleSided 3#8)) = .refused (.densityNotInTable 3) :=
  ⟨by decide, by decide, ref_admitted, by decide, rfl, by decide, by decide, rfl⟩

/-- For each clause a module at the cap or above it, one of two sides of 64 MB, and the smallest that REF has. -/
theorem witness_SpansAreDensityUnits : Cfg.boot.Admitted ∧ (singleSided 33#8).dual = false ∧
    (singleSided 33#8).sizeClass = 32 ∧ (singleSided 32#8).sizeClass = 32 ∧ (dualSided 16#8).dual = true ∧
    (dualSided 16#8).sizeClass = 16 ∧ Cfg.refVariant.isRef = true ∧ Cfg.refVariant.covers (dualSided 2#8) ∧
    (dualSided 2#8).present = true :=
  ⟨boot_admitted, rfl, by decide, by decide, rfl, by decide, by decide, by unfold Cfg.covers; decide, rfl⟩

/-- One, two and three reads, each granted by a list that is just long enough, and the two other providers. -/
theorem witness_RddescReadsModule :
    (asked (.step 0) [.fail]).spd.grants ((asked (.step 0) [.fail]).readCount .s0) ∧
    (asked (.step 0) [.byte 4#8, .fail]).spd.grants ((asked (.step 0) [.byte 4#8, .fail]).readCount .s0) ∧
    (asked (.step 0) [.byte 4#8, .byte 32#8, .fail]).spd.grants
      ((asked (.step 0) [.byte 4#8, .byte 32#8, .fail]).readCount .s0) ∧
    (at_ (.step 0)).spd.grants ((at_ (.step 0)).readCount .s0) ∧
    (SpdSource.image [((0x50, 2), 4#8)]).grants 3 :=
  ⟨(by decide : 1 ≤ 1), (by decide : 2 ≤ 2), (by decide : 3 ≤ 3), trivial, trivial⟩

/-- A module found, a failed read and a foreign type, for the statements on the result of an `RDDESC`. -/
theorem witness_RddescFailSoft :
    (∃ t, exec (.rddesc .s0 .geometry) (asked (.step 0) [.byte 4#8, .byte 32#8, .byte 1#8]) = .next t) ∧
    (asked (.step 0) [.byte 4#8, .byte 32#8, .byte 1#8]).typeAnswer .s0 = .byte Cfg.ref.typeSdram ∧
    (asked (.step 0) [.byte 4#8, .byte 32#8, .byte 1#8]).densityAnswer .s0 = .byte 32#8 ∧
    (asked (.step 0) [.byte 4#8, .byte 32#8, .byte 1#8]).sidedAnswer .s0 .geometry = .byte 1#8 ∧
    (∃ t, exec (.rddesc .s1 .timing) (asked (.step 4) [.byte 4#8, .fail]) = .next t) ∧
    (∃ t, exec (.rddesc .s1 .timing) (asked (.step 4) [.byte 7#8]) = .next t) :=
  ⟨next_of_answers (p := fun _ => true) (by decide), rfl, rfl, rfl, next_of_answers (p := fun _ => true) (by decide),
    next_of_answers (p := fun _ => true) (by decide)⟩

/-- A present module of density 0, and no module. -/
theorem witness_RddescKeepsDescriptorInvariant :
    (asked (.step 0) [.byte 4#8, .byte 0#8, .byte 0#8]).typeAnswer .s0 = .byte Cfg.ref.typeSdram ∧
    (asked (.step 0) [.byte 4#8, .byte 0#8, .byte 0#8]).densityAnswer .s0 = .byte 0#8 ∧
    (asked (.step 0) [.byte 4#8, .byte 0#8, .byte 0#8]).sidedAnswer .s0 .geometry = .byte 0#8 ∧
    answers (exec (.rddesc .s0 .geometry) (asked (.step 0) [.byte 4#8, .byte 0#8, .byte 0#8]))
      (fun t => t.d0.present && t.d0 ≠ .empty) = true ∧
    answers (exec (.rddesc .s0 .geometry) (asked (.step 0) [.fail])) (fun t => t.d0 = .empty) = true := by decide

theorem witness_RddescMakesOneToThreeReads :
    answers (exec (.rddesc .s0 .geometry) (asked (.step 0) [.fail])) (fun t => t.tr.length = 1) = true ∧
    answers (exec (.rddesc .s0 .geometry) (asked (.step 0) [.byte 4#8, .fail])) (fun t => t.tr.length = 2) = true ∧
    answers (exec (.rddesc .s0 .geometry) (asked (.step 0) [.byte 4#8, .byte 1#8, .fail]))
      (fun t => t.tr.length = 3) = true := by decide

theorem witness_RddescStuckWhenUnanswered : (asked (.step 0) [.byte 4#8]).spd = .inOrder [.byte 4#8] ∧
    ([] : List SpdAnswer).length < (asked (.step 0) []).readCount .s0 ∧
    [SpdAnswer.byte 4#8].length < (asked (.step 0) [.byte 4#8]).readCount .s0 ∧
    [SpdAnswer.byte 4#8, .byte 32#8].length < (asked (.step 0) [.byte 4#8, .byte 32#8]).readCount .s0 := by decide

theorem witness_DefaultSidednessMakesSitesEqual :
    Cfg.ref.sidedOffGeom = Cfg.ref.offBanks ∧ Cfg.ref.sidedGeom = .aboveOne := by decide

theorem witness_EncrpWritesRp : Cfg.ref.covers .empty ∧ Cfg.ref.covers (dualSided 255#8) ∧
    Cfg.ref.covers (singleSided 2#8) ∧ ¬ Cfg.ref.covers (singleSided 0#8) := by
  refine ⟨?_, ?_, ?_, ?_⟩ <;> unfold Cfg.covers <;> decide

theorem witness_AbsencePurity : Cfg.ref.Admitted ∧
    answers (exec .encrp (fitted (.step 2) .empty (singleSided 32#8))) (fun t => t.rp = 0xD0#8) = true :=
  ⟨ref_admitted, by decide⟩

/-- The least count above the cap and the largest, and the cap itself, which no clamp touches. -/
theorem witness_ClampIdempotence : 32 < ((fitted (.step 2) (singleSided 33#8) .empty).desc .s0).density.toNat ∧
    ¬ 32 < ((fitted (.step 2) (singleSided 32#8) .empty).desc .s0).density.toNat ∧
    answers (exec .encrp (fitted (.step 2) (singleSided 33#8) .empty)) (fun t => t.rp = 0x0D#8) = true ∧
    answers (exec .encrp (fitted (.step 2) .empty (dualSided 255#8))) (fun t => t.rp = 0xF0#8) = true := by decide

theorem witness_DualSidedOffsetLaw : Cfg.ref.Admitted ∧
    ((fitted (.step 2) (singleSided 16#8) .empty).desc .s0).present = true ∧
    answers (exec .encrp ((fitted (.step 2) .empty .empty).setDesc .s0 (singleSided 16#8)))
      (fun t => t.rp = 0x0A#8) = true ∧
    answers (exec .encrp ((fitted (.step 2) .empty .empty).setDesc .s0 (dualSided 16#8)))
      (fun t => t.rp = 0x0C#8) = true :=
  ⟨ref_admitted, rfl, by decide, by decide⟩

theorem witness_ReservedNibbleNeverProduced : Cfg.ref.Admitted ∧
    answers (exec .encrp (fitted (.step 2) (dualSided 2#8) .empty)) (fun t => t.rp = 0x03#8) = true ∧
    answers (exec .encrp (fitted (.step 2) (singleSided 2#8) (dualSided 8#8))) (fun t => t.rp = 0x91#8) = true :=
  ⟨ref_admitted, by decide, by decide⟩

theorem witness_SecondRankExactlyWhenDual : Cfg.ref.Admitted ∧ Cfg.ref.covers (dualSided 8#8) ∧
    (dualSided 8#8).present = true ∧ ∀ k n, Cfg.ref.densityNibble? k = some n → Cfg.ref.sizeBank0 (n + 2#4) ≠ 0 :=
  ⟨ref_admitted, by unfold Cfg.covers; decide, rfl, by decide⟩

theorem witness_StrengthFixedBits : (singleSided 2#8).size = true ∧ (dualSided 2#8).size = true ∧
    Descriptor.empty.size = false := by decide

theorem witness_StrengthDependsOnFlagsOnly :
    (∀ i, ((fitted (.step 5) (dualSided 2#8) .empty).desc i).size =
        ((fitted (.step 5) (dualSided 64#8) .empty).desc i).size ∧
      ((fitted (.step 5) (dualSided 2#8) .empty).desc i).ds = ((fitted (.step 5) (dualSided 64#8) .empty).desc i).ds ∧
      ((fitted (.step 5) (dualSided 2#8) .empty).desc i).ss =
        ((fitted (.step 5) (dualSided 64#8) .empty).desc i).ss) ∧
    (∃ t, exec .encst (fitted (.step 5) (dualSided 2#8) .empty) = .next t) ∧
    ∃ t, exec .encst (fitted (.step 5) (dualSided 64#8) .empty) = .next t :=
  ⟨fun i => by cases i <;> decide, ⟨_, rfl⟩, ⟨_, rfl⟩⟩

/-- A table by R99 to R101 with every other bit clear. -/
def plainStrength (a b : SocketClass) : Word16 :=
  match a, b with
  | .absent, .absent => 0x0000#16
  | .absent, .single => 0x0000#16
  | .absent, .dual => 0x0000#16
  | .single, .absent => 0x0300#16
  | .single, .single => 0x55C6#16
  | .single, .dual => 0x0001#16
  | .dual, .absent => 0x3356#16
  | .dual, .single => 0x0001#16
  | .dual, .dual => 0x0001#16

theorem witness_EveryStrengthTableRepresented : plainStrength .absent .absent = 0x0000#16 ∧
    plainStrength .dual .absent = 0x3356#16 ∧ plainStrength .single .single = 0x55C6#16 ∧
    (∀ a b, (plainStrength a b).getLsbD 0 = true ↔
      (a, b) = (.dual, .dual) ∨ (a, b) = (.dual, .single) ∨ (a, b) = (.single, .dual)) ∧
    (plainStrength .single .absent).extractLsb' 8 2 = 3#2 := by
  refine ⟨rfl, rfl, rfl, ?_, rfl⟩
  intro a b
  cases a <;> cases b <;> decide

/-- A `Wait` that is granted by the last overshoot of a list, and one by the free service. -/
theorem witness_DeliveredCommandsComplete : (sending (.step 16) 0xF5#8 0xFF#8).cfg.Admitted ∧
    { sending (.step 16) 0xF5#8 0xFF#8 with delays := .inOrder [0] }.delays.grants ∧
    (sending (.step 16) 0xF5#8 0xFF#8).delays.grants :=
  ⟨ref_admitted, (by decide : [0] ≠ []), trivial⟩

theorem witness_CommandsStuckWhenWaitNeverEnds : (sending (.step 17) 0xD5#8 0xDD#8).cfg.Admitted ∧
    ¬ { sending (.step 17) 0xD5#8 0xDD#8 with delays := .inOrder [] }.delays.grants :=
  ⟨ref_admitted, (by decide : ¬ ([] : List Nat) ≠ [])⟩

/-- The second rank of the second socket, the highest base REF has. -/
theorem witness_CommandAddressesExactAndAligned : Cfg.ref.Admitted ∧ 384 ∈ Cfg.ref.rankBases 0xFF#8 .s1 ∧
    0 ∈ Cfg.ref.rankBases 0xFF#8 .s0 :=
  ⟨ref_admitted, by decide, by decide⟩

theorem witness_RunningBaseIsSumOfSpans : (sending (.step 6) 0#8 0xFF#8).cfg.Admitted := ref_admitted

/-- A reserved nibble in each socket and in both. -/
theorem witness_ReservedNibbleReadBackAsAbsent : Cfg.ref.Admitted ∧
    (sending (.step 6) 0#8 0xD2#8).rp = packRp 2#4 0xD#4 ∧ (sending (.step 6) 0#8 0x2D#8).rp = packRp 0xD#4 2#4 ∧
    (sending (.step 6) 0#8 0x22#8).rp = packRp 2#4 2#4 ∧
    (∃ t, exec .cmdNop (sending (.step 6) 0#8 0xD2#8) = .next t) ∧
    (∃ t, exec .cmdMrs (sending (.step 6) 0#8 0x2D#8) = .next t) ∧
    ∃ t, exec .cmdNorm (sending (.step 6) 0#8 0x22#8) = .next t :=
  ⟨ref_admitted, rfl, rfl, rfl, next_of_answers (p := fun _ => true) (by decide),
    next_of_answers (p := fun _ => true) (by decide), next_of_answers (p := fun _ => true) (by decide)⟩

/-- PG4 of 95_test_vectors before step 7: an oversized dual-sided module in socket 0, and none in socket 1. -/
def midRun : State := { sending (.step 7) 0x8A#8 0x0F#8 with
  d0 := dualSided 40#8
  ovs0 := true
  st := 0x3356#16
  tr := [.spd 0x50 2 (.byte 4#8), .spd 0x50 31 (.byte 40#8), .spd 0x50 5 (.byte 2#8), .spd 0x51 2 (.byte 4#8),
      .spd 0x51 31 .fail, .diag .s0, .regWrite (.rp 0x0F#8)] ++
    [.spd 0x50 2 (.byte 4#8), .spd 0x50 31 (.byte 40#8), .spd 0x50 5 (.byte 2#8), .spd 0x51 2 (.byte 4#8),
      .spd 0x51 31 .fail, .regWrite (.st 0x3356#16)] ++
    [.regRead (.ct 0x0A#8), .regWrite (.ct 0x8A#8), .regRead (.rp 0x0F#8), .mem 0#32, .mem 0x08000000#32,
      .regRead (.rp 0x0F#8), .wait 200] }

/-- A step from there, for every statement whose hypothesis is a step. -/
theorem witness_step : ∃ t, step midRun = .next t := next_of_answers (p := fun _ => true) (by decide)

/-- The same, stuck in the delay of step 7. -/
def midStuck : State := { midRun with
  ct := 0xAA#8
  stall := some .wait
  tr := midRun.tr ++ [.regRead (.ct 0x8A#8), .regWrite (.ct 0xAA#8), .regRead (.rp 0x0F#8), .mem 0#32,
    .mem 0x08000000#32, .regRead (.rp 0x0F#8)] }

theorem witness_CommandLogKept : midRun.CommandLog ∧ midStuck.CommandLog := by unfold State.CommandLog; decide
theorem witness_WaitLogKept : midRun.WaitLog ∧ midStuck.WaitLog := by unfold State.WaitLog; decide
theorem witness_ReadLogKept : midRun.ReadLog ∧ midStuck.ReadLog := by unfold State.ReadLog; decide
theorem witness_LiveReadLogKept : midRun.LiveReadLog ∧ midStuck.LiveReadLog := by
  unfold State.LiveReadLog Phase.reached; decide
theorem witness_EncoderLogKept : midRun.EncoderLog := by unfold State.EncoderLog Phase.reached; decide
theorem witness_DescriptorsWrittenKept : midRun.DescriptorsWritten := by
  unfold State.DescriptorsWritten Phase.reached; decide
theorem witness_GeometryLegalKept : midRun.GeometryLegal := by
  intro _ i
  cases i <;> decide
theorem witness_OversizeLogKept : midRun.OversizeLog := by
  refine ⟨by decide, fun i => ?_⟩
  cases i <;> decide
theorem witness_EventBudgetKept : midRun.EventBudget ∧ midStuck.EventBudget := by
  unfold State.EventBudget Phase.reached; decide
theorem witness_StallPlacedKept : midRun.StallPlaced ∧ midStuck.StallPlaced :=
  ⟨⟨nofun, nofun⟩, nofun, fun _ => ⟨.cmdPre, .pre, rfl, rfl⟩⟩

theorem witness_StuckBlockWaitsForReset : midStuck.cfg.Admitted ∧ midStuck.ph = .step 7 ∧ midStuck.stall ≠ none ∧
    midStuck.host = [] ∧ { midStuck with host := [.start] }.host = .start :: [] ∧
    { midStuck with host := [.run] }.host = .run :: [] ∧ { midStuck with host := [.reset] }.host = .reset :: [] ∧
    { midStuck with host := [.resetWithin 0] }.host = .resetWithin 0 :: [] :=
  ⟨ref_admitted, rfl, by decide, rfl, rfl, rfl, rfl, rfl⟩

theorem witness_ResetWithinOperation : midRun.cfg.Admitted ∧ midRun.ph = .step 7 ∧ midRun.stall = none ∧
    { midRun with host := [.resetWithin 2] }.host = .resetWithin 2 :: [] ∧
    ∃ t, exec (seqRom 7) { midRun with host := [] } = .next t :=
  ⟨ref_admitted, rfl, rfl, rfl, next_of_answers (p := fun _ => true) (by decide)⟩

theorem witness_ConfigurationNeverWritten :
    { midRun with spd := .image [((0x50, 2), 4#8), ((0x51, 2), 4#8)] }.imageWf = true := by decide

/-- One state for each way PH moves: the two resets, START in IDLE and elsewhere, a rest, an operation that gets stuck, an
operation, and the last one. -/
theorem witness_PhaseMovesByOne :
    answers (step { midRun with host := [.reset] }) (·.ph = .idle) = true ∧
    answers (step { midRun with host := [.resetWithin 9] }) (·.ph = .idle) = true ∧
    answers (step { midRun with delays := .inOrder [] }) (·.ph = .step 7) = true ∧
    answers (step { at_ .idle with host := [.start] }) (·.ph = .step 0) = true ∧
    answers (step { midRun with host := [.start] }) (·.ph = .step 7) = true ∧
    answers (step (at_ .done)) (·.ph = .done) = true ∧ answers (step midRun) (·.ph = .step 8) = true ∧
    answers (step (at_ (.step 17))) (·.ph = .done) = true := by decide

/-- Each register changed at each end of the steps it may change at. -/
theorem witness_RegistersWrittenOnlyAtTheirSteps : (at_ (.step 2)).host = [] ∧
    answers (step (fitted (.step 2) (singleSided 33#8) .empty)) (fun t => t.rp ≠ 0#8 ∧ t.ovs .s0) = true ∧
    answers (step (fitted (.step 5) (dualSided 2#8) .empty)) (·.st ≠ 0#16) = true ∧
    answers (step (sending (.step 6) 0#8 0#8)) (·.ct ≠ 0#8) = true ∧
    answers (step (sending (.step 17) 0#8 0#8)) (·.ct ≠ 0#8) = true ∧
    answers (step (sending (.step 6) 0#8 0x0D#8)) (·.dimmStart ≠ 0#16) = true ∧
    answers (step (sending (.step 16) 0#8 0xD0#8)) (·.dimmStart ≠ 0#16) = true ∧
    answers (step (asked (.step 0) [.byte 4#8, .byte 2#8, .byte 1#8])) (·.d0 ≠ .empty) = true ∧
    answers (step (asked (.step 1) [.byte 4#8, .byte 2#8, .byte 1#8])) (·.d1 ≠ .empty) = true ∧
    answers (step (asked (.step 3) [.byte 4#8, .byte 2#8, .byte 1#8])) (·.d0 ≠ .empty) = true ∧
    answers (step (asked (.step 4) [.byte 4#8, .byte 2#8, .byte 1#8])) (·.d1 ≠ .empty) = true := by decide

/-- Two states before a run that differ in every register of unspecified reset value, and two during a run that differ in
bits 4:0 of CT, in ST and in what the trace holds of CT. -/
theorem witness_DeadRegistersNeverRead :
    AgreeButDead (at_ .idle) { at_ .idle with
      rp := 0xA7#8, ct := 0xFF#8, st := 0xFFFF#16, d0 := dualSided 9#8, d1 := singleSided 1#8, dimmStart := 3#16 } ∧
    AgreeButDead { sending (.step 7) 0x80#8 0#8 with tr := [.regRead (.ct 0#8), .regWrite (.ct 0x80#8)] }
      { sending (.step 7) 0x9F#8 0#8 with st := 1#16, tr := [.regRead (.ct 0xFF#8), .regWrite (.ct 0x9F#8)] } := by
  refine ⟨?_, ?_⟩ <;> constructor <;> first | rfl | (intro h; revert h; decide)

/-- A provider and a delay service that grant just what a run needs at the most. -/
theorem witness_RunReachesDone : Cfg.boot.Admitted ∧ (at_ (.step 0)).host = [] ∧ (at_ (.step 0)).stall = none ∧
    (SpdSource.inOrder (List.replicate 12 (.byte 4#8))).grants 12 ∧
    (DelaySource.inOrder (List.replicate 12 0)).grantsAll 12 ∧ ∀ d, Cfg.boot.densityEntry d ≠ .invalid :=
  ⟨boot_admitted, rfl, rfl, (by decide : 12 ≤ (List.replicate 12 (SpdAnswer.byte 4#8)).length),
    (by decide : 12 ≤ (List.replicate 12 0).length), by decide⟩

end Sys2Proof.Tests
end

/-! # The configuration record and its admission (00_scope R6 to R8)

The statements on which configurations a step refuses, on the counts REF has no nibble for, on the sizes a density count
stands for, and on the strength tables a configuration can hold. -/

namespace Sys2Proof.Machine

/-! ## What a step refuses -/

/-- The one refusal an operation raises is that of a count the density table has no entry for (U5). -/
theorem densityNotInTable_of_exec_refused {s : State} {i : Instr} {r : Refusal} (ha : s.cfg.Admitted)
    (h : exec i s = .refused r) : ∃ d, r = .densityNotInTable d := by
  have ends : ∀ t, ¬ OperationEnds s i t := fun t ht => by simp [ht.exec ha] at h
  have command (x : AddrCommand) (hi : i = .ofCommand x.toCommand) : ∃ d, r = .densityNotInTable d := by
    subst hi
    by_cases hd : s.delays.grants
    · exact absurd (.command x hd) (ends _)
    · exact absurd (.commandStuck x hd) (ends _)
  cases i with
  | rddesc i cs =>
    by_cases hg : s.spd.grants (s.readCount i)
    · exact absurd (.rddesc i cs hg) (ends _)
    · obtain ⟨l, hl, hc⟩ := SpdSource.not_grants hg
      exact absurd (.rddescStuck i cs l hl hc) (ends _)
  | encrp =>
    by_cases hc : s.cfg.covers s.d0 ∧ s.cfg.covers s.d1
    · obtain ⟨h0, h1⟩ := hc
      exact absurd (.encrp h0 h1) (ends _)
    · obtain ⟨d, hd⟩ := execEncrp_refused hc
      exact ⟨d, Host.Outcome.refused.inj (h.symm.trans hd)⟩
  | encst => exact absurd .encst (ends _)
  | cmdNop => exact command .nop rfl
  | cmdPre => exact command .pre rfl
  | cmdRef => exact command .ref rfl
  | cmdMrs => exact command .mrs rfl
  | cmdNorm =>
    by_cases hd : s.delays.grants
    · exact absurd (.norm hd) (ends _)
    · exact absurd (.normStuck hd) (ends _)

/-- The block's own turn refuses nothing but a count without an entry. -/
theorem densityNotInTable_of_ownStep_refused {s : State} {r : Refusal} (ha : s.cfg.Admitted)
    (h : ownStep s = .refused r) : ∃ d, r = .densityNotInTable d := by
  unfold ownStep at h
  split at h
  · exact densityNotInTable_of_exec_refused ha h
  · cases h

/-- A reset within the block's own turn refuses nothing but a count without an entry (log 13). -/
theorem densityNotInTable_of_cutStep_refused {s : State} {r : Refusal} {k : Nat} (ha : s.cfg.Admitted)
    (h : cutStep k s = .refused r) : ∃ d, r = .densityNotInTable d := by
  unfold cutStep at h
  split at h
  · next i _ =>
    cases he : exec i s with
    | next t => simp [he, resetDuring] at h
    | fault f => simp [he, resetDuring] at h
    | refused why =>
      rw [he, resetDuring] at h
      exact densityNotInTable_of_exec_refused ha (he.trans h)
  · cases h

/-- Under an admitted configuration a step refuses nothing but a count without an entry. -/
theorem densityNotInTable_of_step_refused {s : State} {r : Refusal} (ha : s.cfg.Admitted)
    (h : step s = .refused r) : ∃ d, r = .densityNotInTable d := by
  rw [step_eq ha] at h
  split at h
  · exact densityNotInTable_of_ownStep_refused ha h
  · exact densityNotInTable_of_ownStep_refused (by exact ha) h
  · cases h
  · cases h
  · exact densityNotInTable_of_cutStep_refused (by exact ha) h

/-- A step that refuses the configuration has one that is not admitted (R8). -/
theorem not_admitted_of_step_refused {s : State} {k : Constraint} (h : step s = .refused (.cfgNotAdmitted k)) :
    ¬ s.cfg.Admitted := fun ha => by
  obtain ⟨d, hd⟩ := densityNotInTable_of_step_refused ha h
  cases hd

/-- Settles O12: a configuration that is not admitted is refused by a constraint it fails, and under an admitted one the
only refusal is that of a count without an entry. -/
theorem inadmissibleConfigurationRefused : Obligations.InadmissibleConfigurationRefused := by
  intro s
  refine ⟨⟨fun h => ?_, fun ⟨_, hk⟩ => not_admitted_of_step_refused hk⟩, fun k hk => ?_⟩
  · obtain ⟨k, -, hk⟩ := step_not_admitted h
    exact ⟨k, hk⟩
  · obtain ⟨k', hfails, hk'⟩ := step_not_admitted (not_admitted_of_step_refused hk)
    cases hk.symm.trans hk'
    exact hfails

/-! ## The counts without a nibble -/

/-- `ENCRP` is refused exactly where the configuration has no nibble for one of the descriptors (R87, U5). -/
theorem exec_encrp_refused_iff (s : State) :
    (∃ d, exec .encrp s = .refused (.densityNotInTable d)) ↔ ∃ i, ¬ s.cfg.covers (s.desc i) := by
  constructor
  · rintro ⟨d, hd⟩
    by_contra hc
    push Not at hc
    cases hd.symm.trans (execEncrp_eq (hc .s0) (hc .s1))
  · rintro ⟨i, hi⟩
    refine execEncrp_refused fun ⟨h0, h1⟩ => ?_
    cases i with
    | s0 => exact hi h0
    | s1 => exact hi h1

/-- An admitted configuration has no nibble for a descriptor exactly where it is REF and the module's clamped count is none
of the five with an entry (R56, U5). -/
theorem not_covers_iff {c : Cfg} (ha : c.Admitted) (d : Descriptor) :
    ¬ c.covers d ↔ c.isRef = true ∧ d.present = true ∧ d.sizeClass ∉ [2, 4, 8, 16, 32] := by
  by_cases hr : c.isRef = true
  · rw [covers_iff_of_isRef hr, Classical.not_imp, and_iff_right hr]
  · have hc := covers_of_not_isRef ha (Bool.not_eq_true _ ▸ hr) d
    exact iff_of_false (not_not_intro hc) fun h => hr h.1

/-- Settles O58, by the constraint checked first and by what `ENCRP` refuses under an admitted configuration. -/
theorem onlyReferenceLacksEntries : Obligations.OnlyReferenceLacksEntries := by
  refine fun s => ⟨fun hr ⟨d, hd⟩ => ?_, fun ha => ?_⟩
  · simp [step, State.turn, Cfg.violation_of_invalid hr hd]
  · simp only [exec_encrp_refused_iff, not_covers_iff ha, exists_and_left]

/-! ## The sizes a density count stands for -/

/-- The clamp of R85 in megabytes. -/
theorem Descriptor.sideMb_eq (d : Descriptor) : d.sideMb = 4 * min d.density.toNat 32 := rfl

/-- A present module loses size to the clamp exactly when it is oversized (R85, R86). -/
theorem Descriptor.oversize_iff_sideMb_lt {d : Descriptor} (hp : d.present = true) :
    d.oversize = true ↔ d.sideMb < d.rawSideMb := by
  have raw : d.rawSideMb = 4 * d.density.toNat := rfl
  rw [Descriptor.oversize, hp, Bool.true_and, decide_eq_true_eq, d.sideMb_eq, raw]
  omega

end Sys2Proof.Machine

namespace Sys2Proof

open Sys2Proof.Machine

/-- The nibble of a count whose entry is known (R56). -/
theorem Cfg.singleNibble_of_known {c : Cfg} {k : Fin 33} {n : Nibble} (h : c.densityEntry k = .known n) :
    c.singleNibble k = n := by
  simp [Cfg.singleNibble, Cfg.densityNibble?, h]

/-- A single-sided module is encoded with its count's nibble (R87). -/
theorem Cfg.encodedNibble_single (c : Cfg) {d : Descriptor} (hp : d.present = true) (hs : d.dual = false) :
    c.encodedNibble d = c.singleNibble (clampDensity d.density) := by
  simp [Cfg.encodedNibble, hp, hs]

/-- A dual-sided module is encoded with its count's nibble and 2 (R88). -/
theorem Cfg.encodedNibble_dual (c : Cfg) {d : Descriptor} (hp : d.present = true) (hd : d.dual = true) :
    c.encodedNibble d = c.singleNibble (clampDensity d.density) + 2#4 := by
  simp [Cfg.encodedNibble, hp, hd]

/-- The single-sided nibble of the largest count denotes one rank of 128 MB (R8 items 2 and 4). -/
theorem Cfg.Admitted.region_largest_single {c : Cfg} (h : c.Admitted) :
    c.region (c.singleNibble 32) = .oneRank 128 := by
  obtain ⟨total, bank0, -, -⟩ := h.sizePins
  rw [Cfg.singleNibble_of_known h.densityPins.1, Cfg.region, total, bank0]
  rfl

/-- The dual-sided nibble of count 16 denotes two ranks of 64 MB (R8 items 2 and 4). -/
theorem Cfg.Admitted.region_largest_dual {c : Cfg} (h : c.Admitted) :
    c.region (c.singleNibble 16 + 2#4) = .twoRanks 128 64 := by
  obtain ⟨-, -, total, bank0⟩ := h.sizePins
  rw [Cfg.singleNibble_of_known h.densityPins.2, (by rfl : 0xA#4 + 2#4 = 0xC#4), Cfg.region, total, bank0]
  rfl

/-- REF's tables give each of the five counts one side, or two, of that many times 4 MB (R56, R57; log 2). -/
theorem Cfg.region_ref : ∀ k : Fin 33, k.val ∈ [2, 4, 8, 16, 32] →
    Cfg.ref.region (Cfg.ref.singleNibble k) = .oneRank (4 * k) ∧
      Cfg.ref.region (Cfg.ref.singleNibble k + 2#4) = .twoRanks (2 * (4 * k)) (4 * k) := by
  decide

/-- Under REF the region of a module with a nibble has sides of the capped count times 4 MB (R6, R56, R57; log 2). -/
theorem Cfg.region_encodedNibble_of_isRef {c : Cfg} (hr : c.isRef = true) {d : Descriptor} (hp : d.present = true)
    (hc : c.covers d) : c.region (c.encodedNibble d) =
      if d.dual then .twoRanks (2 * d.sideMb) d.sideMb else .oneRank d.sideMb := by
  obtain ⟨single, dual⟩ := Cfg.region_ref (clampDensity d.density) ((covers_iff_of_isRef hr d).mp hc hp)
  rw [region_of_isRef hr, encodedNibble_of_isRef hr]
  cases hd : d.dual with
  | false => rw [Cfg.encodedNibble_single _ hp hd, single]; rfl
  | true => rw [Cfg.encodedNibble_dual _ hp hd, dual]; rfl

/-- Settles O59: the clamp by arithmetic, the two pinned regions by R8 items 2 and 4, the rest by REF's tables. -/
theorem spansAreDensityUnits : Obligations.SpansAreDensityUnits := by
  refine fun c d hp => ⟨d.sideMb_eq, Descriptor.oversize_iff_sideMb_lt hp, fun ha hs hk => ?_, fun ha hd hk => ?_,
    fun hr hc => Cfg.region_encodedNibble_of_isRef hr hp hc⟩
  · have clamp : clampDensity d.density = 32 := Fin.ext hk
    rw [c.encodedNibble_single hp hs, clamp, ha.region_largest_single, Descriptor.sideMb, hk]
    rfl
  · have clamp : clampDensity d.density = 16 := Fin.ext hk
    rw [c.encodedNibble_dual hp hd, clamp, ha.region_largest_dual, Descriptor.sideMb, hk]
    rfl

/-! ## The strength tables -/

/-- The open bits of a truth table over the two classes (R102). -/
def StrengthOpen.ofTable (f : SocketClass → SocketClass → Word16) : StrengthOpen where
  absentSingle := (f .absent .single).extractLsb' 1 15
  absentDual := (f .absent .dual).extractLsb' 1 15
  singleAbsentHigh := (f .single .absent).extractLsb' 10 6
  singleAbsentLow := (f .single .absent).extractLsb' 1 7
  singleDual := (f .single .dual).extractLsb' 1 15
  dualSingle := (f .dual .single).extractLsb' 1 15
  dualDual := (f .dual .dual).extractLsb' 1 15

/-- The one-bit slice at the bottom of a word is its bit 0. -/
theorem extractLsb'_zero_one (w : Word16) : w.extractLsb' 0 1 = BitVec.ofBool (w.getLsbD 0) := by
  ext i hi
  obtain rfl : i = 0 := by omega
  simp

/-- A word is its bits 15:10, 9:8, 7:1 and 0, as R100 and R101 divide it. -/
theorem extractLsb'_append_four_parts (w : Word16) :
    w.extractLsb' 10 6 ++ w.extractLsb' 8 2 ++ w.extractLsb' 1 7 ++ w.extractLsb' 0 1 = w := by
  rw [BitVec.extractLsb'_append_extractLsb'_eq_extractLsb' (by rfl : 10 = 8 + 2),
    BitVec.extractLsb'_append_extractLsb'_eq_extractLsb' (by rfl : 8 = 1 + 7)]
  exact BitVec.extractLsb'_append_extractLsb' (w := 15)

/-- Settles O30: the table's own open bits give it, since R8 item 10 fixes every other bit. -/
theorem everyStrengthTableRepresented : Obligations.EveryStrengthTableRepresented := by
  intro c f absent dual single bit0 bits9_8
  have low (a b : SocketClass) : (f a b).extractLsb' 0 1 = BitVec.ofBool (decide
      ((a, b) = (.dual, .dual) ∨ (a, b) = (.dual, .single) ∨ (a, b) = (.single, .dual))) := by
    rw [← Bool.eq_iff_iff.mpr ((bit0 a b).trans decide_eq_true_iff.symm), extractLsb'_zero_one]
  refine ⟨.ofTable f, fun a b => ?_⟩
  have parts := extractLsb'_append_four_parts (f a b)
  have whole : (f a b).extractLsb' 1 15 ++ (f a b).extractLsb' 0 1 = f a b :=
    BitVec.extractLsb'_append_extractLsb' (w := 15)
  rw [low] at parts whole
  cases a <;> cases b
  case absent.absent => exact absent.symm
  case dual.absent => exact dual.symm
  case single.single => exact single.symm
  case single.absent =>
    rw [bits9_8] at parts
    exact parts
  case absent.single | absent.dual | single.dual | dual.single | dual.dual => exact whole

end Sys2Proof

/-! # The state and its rules (10_state R13 to R29)

What an operation changes and what it leaves alone, the invariants of a run that start with an empty trace, the rules
every step keeps, reset and rest, and the registers of unspecified reset value. -/

namespace Sys2Proof.Machine

/-! ## What an operation changes and what it leaves alone -/

@[simp] theorem Instr.ofCommand_ne_rddesc (x : Command) (i : Socket) (cs : CallSite) :
    Instr.ofCommand x ≠ .rddesc i cs := by
  cases x <;> exact nofun

@[simp] theorem Instr.ofCommand_ne_encrp (x : Command) : Instr.ofCommand x ≠ .encrp := by
  cases x <;> exact nofun

/-- An operation moves PH one further, or is stuck where it stands: a reader on a read, a command on its `Wait` (R14, R163). -/
theorem OperationEnds.ph_stall {s t : State} {i : Instr} (h : OperationEnds s i t) :
    t.ph = s.ph.next ∧ t.stall = s.stall ∨
      t.ph = s.ph ∧ (t.stall = some .spdRead ∧ (∃ j cs, i = .rddesc j cs) ∨
        t.stall = some .wait ∧ ∃ x, i.command? = some x) := by
  cases h with
  | rddesc j cs hg => exact .inl (by simp [afterRddesc])
  | rddescStuck j cs l hl hc => exact .inr ⟨rfl, .inl ⟨rfl, j, cs, rfl⟩⟩
  | encrp h0 h1 => exact .inl ⟨rfl, rfl⟩
  | encst => exact .inl ⟨rfl, rfl⟩
  | command x hd => exact .inl ⟨rfl, rfl⟩
  | commandStuck x hd => exact .inr ⟨rfl, .inr ⟨rfl, x.toCommand, by simp⟩⟩
  | norm hd => exact .inl ⟨rfl, rfl⟩
  | normStuck hd => exact .inr ⟨rfl, .inr ⟨rfl, .norm, rfl⟩⟩

/-- RP is written by `ENCRP` alone (R21). -/
theorem OperationEnds.rp_eq {s t : State} {i : Instr} (h : OperationEnds s i t) (hi : i ≠ .encrp) : t.rp = s.rp := by
  cases h with
  | encrp h0 h1 => exact absurd rfl hi
  | rddesc j cs hg => simp [afterRddesc]
  | rddescStuck | encst | command | commandStuck | norm | normStuck => rfl

/-- ST is written by `ENCST` alone (R23). -/
theorem OperationEnds.st_eq {s t : State} {i : Instr} (h : OperationEnds s i t) (hi : i ≠ .encst) : t.st = s.st := by
  cases h with
  | encst => exact absurd rfl hi
  | rddesc j cs hg => simp [afterRddesc]
  | rddescStuck | encrp | command | commandStuck | norm | normStuck => rfl

/-- CT is written by the commands alone (R22). -/
theorem OperationEnds.ct_eq {s t : State} {i : Instr} (h : OperationEnds s i t) (hi : i.command? = none) :
    t.ct = s.ct := by
  cases h with
  | command x hd | commandStuck x hd => simp at hi
  | norm | normStuck => cases hi
  | rddesc j cs hg => simp [afterRddesc]
  | rddescStuck | encrp | encst => rfl

/-- DIMM_START is written by the delivered commands alone (R17). -/
theorem OperationEnds.dimmStart_eq {s t : State} {i : Instr} (h : OperationEnds s i t)
    (hi : ∀ x : AddrCommand, i ≠ .ofCommand x.toCommand) : t.dimmStart = s.dimmStart := by
  cases h with
  | command x hd | commandStuck x hd => exact absurd rfl (hi x)
  | rddesc j cs hg => simp [afterRddesc]
  | rddescStuck | encrp | encst | norm | normStuck => rfl

/-- The descriptor the answers give is EMPTY or present (R15, R80). -/
theorem moduleDescriptor_wf (c : Cfg) (cs : CallSite) (typ density sided : SpdAnswer) :
    (moduleDescriptor c cs typ density sided).wf = true := by
  unfold moduleDescriptor
  split
  · split <;> rfl
  · rfl

/-- D[j] is written by a reader of socket j that completes, with a descriptor that is EMPTY or present, and by nothing
else (R15). -/
theorem OperationEnds.desc_eq_or_written {s t : State} {i : Instr} (h : OperationEnds s i t) (j : Socket) :
    t.desc j = s.desc j ∧ (t.ph = s.ph ∨ ∀ cs, i ≠ .rddesc j cs) ∨
      (t.desc j).wf = true ∧ ∃ cs, i = .rddesc j cs := by
  cases h with
  | rddesc k cs hg =>
    by_cases hk : j = k
    · subst hk
      exact .inr ⟨by simp [afterRddesc, State.setDesc_desc, moduleDescriptor_wf], cs, rfl⟩
    · refine .inl ⟨?_, .inr fun cs' e => hk (by cases e; rfl)⟩
      rw [afterRddesc, State.setDesc_desc, if_neg hk]
      rfl
  | rddescStuck k cs l hl hc => exact .inl ⟨rfl, .inl rfl⟩
  | encrp | encst | norm | normStuck => exact .inl ⟨rfl, .inr nofun⟩
  | command x hd | commandStuck x hd => exact .inl ⟨rfl, .inr (Instr.ofCommand_ne_rddesc _ j)⟩

/-! ## The oversize flags and their diagnostics (R18, R86) -/

/-- `ENCRP` sets the flag of a socket with an oversized module. -/
theorem afterEncrp_ovs (s : State) (j : Socket) : (afterEncrp s).ovs j = (s.ovs j || (s.desc j).oversize) := by
  cases j <;> rfl

/-- The diagnostics of a socket's turn of `ENCRP` are its own. -/
theorem diag_mem_oversizeEvents {i j : Socket} {d : Descriptor} :
    Event.diag j ∈ oversizeEvents i d ↔ j = i ∧ d.oversize = true := by
  unfold oversizeEvents
  split <;> simp_all

/-- A reader has no diagnostic among its events. -/
theorem AllSpd.diag_not_mem {es : List Event} (h : AllSpd es) (j : Socket) : Event.diag j ∉ es := fun hm => by
  obtain ⟨dev, off, a, e⟩ := h _ hm
  cases e

/-- A command has no diagnostic among its events. -/
theorem diag_not_mem_actionEvents (c : Cfg) (x : AddrCommand) (ct rp : Byte) (j : Socket) :
    Event.diag j ∉ c.actionEvents x ct rp := fun hm => by
  rcases Cfg.mem_actionEvents hm with e | e | e | ⟨a, e⟩ <;> cases e

/-- An oversize flag is set by `ENCRP` at an oversized module, and by nothing else (R18, R86). -/
theorem OperationEnds.ovs_iff {s t : State} {i : Instr} (h : OperationEnds s i t) (j : Socket) :
    t.ovs j = true ↔ s.ovs j = true ∨ i = .encrp ∧ (s.desc j).oversize = true := by
  cases h with
  | encrp h0 h1 => simp [afterEncrp_ovs]
  | rddesc k cs hg => cases j <;> simp [afterRddesc]
  | rddescStuck | encst | command | commandStuck | norm | normStuck =>
    change s.ovs j = true ↔ _
    simp

/-- A diagnostic is emitted by `ENCRP` at an oversized module, and by nothing else (R86). -/
theorem OperationEnds.diag_mem_iff {s t : State} {i : Instr} (h : OperationEnds s i t) (j : Socket) :
    Event.diag j ∈ t.tr ↔ Event.diag j ∈ s.tr ∨ i = .encrp ∧ (s.desc j).oversize = true := by
  cases h with
  | encrp h0 h1 => cases j <;> simp [afterEncrp, diag_mem_oversizeEvents]
  | rddesc k cs hg => simp [afterRddesc, (s.readEvents_allSpd k cs).diag_not_mem]
  | rddescStuck k cs l hl hc => simp [stuckRddesc, ((s.readEvents_allSpd k cs).take l.length).diag_not_mem]
  | encst => simp [afterEncst]
  | command x hd => simp [afterCommand, Cfg.commandEvents, diag_not_mem_actionEvents]
  | commandStuck x hd => simp [stuckCommand, diag_not_mem_actionEvents]
  | norm hd => simp [afterNorm, Cfg.normEvents]
  | normStuck hd => simp [stuckNorm, Cfg.normEvents]

/-! ## The commands sent and the accesses to RP (R24, R90, R123) -/

/-- A run that is not stuck has sent the commands it has done. -/
theorem State.commandsBegun_of_not_stuck {s : State} (h : s.stall = none) : s.commandsBegun = s.ph.commandsDone := by
  rw [State.commandsBegun, State.stalledCommands_none h, List.append_nil]

/-- An operation of the run sends its own command, whether it completes or is stuck (R64, R126, R163). -/
theorem OperationEnds.commandsBegun {s t : State} {n : Fin 18} (hp : s.ph = .step n) (hs : s.stall = none)
    (h : OperationEnds s (seqRom n) t) : t.commandsBegun = s.commandsBegun ++ (seqRom n).command?.toList := by
  rw [State.commandsBegun_of_not_stuck hs, hp]
  rcases h.ph_stall with ⟨ph, stall⟩ | ⟨ph, ⟨stall, j, cs, hi⟩ | ⟨stall, -⟩⟩ <;> rw [hp] at ph
  · rw [State.commandsBegun_of_not_stuck (stall.trans hs), ph, Phase.commandsDone_next]
  · rw [State.commandsBegun, State.stalledCommands_spdRead stall, ph, hi]
    rfl
  · rw [State.commandsBegun, State.stalledCommands_wait stall ph, ph]

@[simp] theorem rpReads_regWrite (v : RegVal) : rpReads [.regWrite v] = [] := rfl
@[simp] theorem rpReads_wait (d : Nat) : rpReads [.wait d] = [] := rfl
@[simp] theorem rpWrites_rp (v : Byte) : rpWrites [.regWrite (.rp v)] = [v] := rfl
@[simp] theorem rpWrites_st (v : Word16) : rpWrites [.regWrite (.st v)] = [] := rfl
@[simp] theorem rpWrites_wait (d : Nat) : rpWrites [.wait d] = [] := rfl

section
variable (c : Cfg) (x : AddrCommand) (ct rp : Byte)

@[simp] theorem rpReads_commandEvents : rpReads (c.commandEvents x ct rp) = [rp, rp] := by simp [Cfg.commandEvents]
@[simp] theorem rpWrites_commandEvents : rpWrites (c.commandEvents x ct rp) = [] := by simp [Cfg.commandEvents]
@[simp] theorem rpReads_normEvents : rpReads (c.normEvents ct) = [] := rfl
@[simp] theorem rpWrites_normEvents : rpWrites (c.normEvents ct) = [] := rfl

end

/-- A delivered command reads RP twice, and no other operation reads it (R123). -/
theorem OperationEnds.rpReads_eq {s t : State} {i : Instr} (h : OperationEnds s i t) :
    rpReads t.tr = rpReads s.tr ++ List.replicate (2 * (i.command?.toList.filter (· ≠ .norm)).length) s.rp := by
  have delivered (x : AddrCommand) : x.toCommand ≠ .norm := by cases x <;> exact nofun
  cases h with
  | rddesc k cs hg => simp [afterRddesc, (s.readEvents_allSpd k cs).rpReads, Instr.command?]
  | rddescStuck k cs l hl hc =>
    simp [stuckRddesc, ((s.readEvents_allSpd k cs).take l.length).rpReads, Instr.command?]
  | encrp h0 h1 => simp [afterEncrp, Instr.command?]
  | encst => simp [afterEncst, Instr.command?]
  | command x hd => simp [afterCommand, delivered, List.replicate_succ]
  | commandStuck x hd => simp [stuckCommand, delivered, List.replicate_succ]
  | norm hd => simp [afterNorm, Instr.command?]
  | normStuck hd => simp [stuckNorm, Instr.command?]

/-- `ENCRP` writes RP once, with the value RP then holds, and no other operation writes it (R90). -/
theorem OperationEnds.rpWrites_eq {s t : State} {i : Instr} (h : OperationEnds s i t) :
    rpWrites t.tr = rpWrites s.tr ++ if i = .encrp then [t.rp] else [] := by
  cases h with
  | rddesc k cs hg => simp [afterRddesc, (s.readEvents_allSpd k cs).rpWrites]
  | rddescStuck k cs l hl hc => simp [stuckRddesc, ((s.readEvents_allSpd k cs).take l.length).rpWrites]
  | encrp h0 h1 => simp [afterEncrp]
  | encst => simp [afterEncst]
  | command x hd => simp [afterCommand]
  | commandStuck x hd => simp [stuckCommand]
  | norm hd => simp [afterNorm]
  | normStuck hd => simp [stuckNorm]

/-- No operation of a run is done in IDLE and at step 0 alone (R14). -/
theorem Phase.eq_of_index_zero {p : Phase} (h : p.index = 0) : p = .idle ∨ p = .step 0 := by
  cases p with
  | idle => exact .inl rfl
  | step n => exact .inr (congrArg _ (Fin.ext h))
  | done => cases h

/-- PH comes to step 3 by `ENCRP`, and leaves the steps from 3 on by no operation (R64). -/
theorem OperationEnds.reached_three_iff {s t : State} {n : Fin 18} (hp : s.ph = .step n)
    (h : OperationEnds s (seqRom n) t) : t.ph.reached 3 ↔ s.ph.reached 3 ∨ seqRom n = .encrp := by
  have encrp : seqRom n = .encrp ↔ n.val = 2 := ⟨seqRom_encrp n, fun h2 => by rw [show n = 2 from Fin.ext h2]; rfl⟩
  rcases h.ph_stall with ⟨ph, -⟩ | ⟨ph, ⟨-, j, cs, hi⟩ | ⟨-, x, hi⟩⟩
  · simp only [Phase.reached, ph, hp, encrp, Phase.index_next_step, Phase.index_step]
    omega
  · simp [ph, hi]
  · have ne : seqRom n ≠ .encrp := fun e => by rw [e] at hi; cases hi
    simp [ph, ne]

/-! ## The invariants of a run with nothing done and an empty trace -/

section
variable {s : State}

/-- Where no operation of a run is done, no command is sent. -/
theorem State.commandsDone_eq_nil (h : s.ph.index = 0) : s.ph.commandsDone = [] := by
  rcases Phase.eq_of_index_zero h with e | e <;> rw [e] <;> rfl

/-- Where no operation of a run is done, the block is stuck in no command. -/
theorem State.stalledCommands_eq_nil (h : s.ph.index = 0) : s.stalledCommands = [] := by
  rcases Phase.eq_of_index_zero h with e | e
  · exact State.stalledCommands_idle e
  · exact State.stalledCommands_first e

theorem State.commandsBegun_eq_nil (h : s.ph.index = 0) : s.commandsBegun = [] := by
  rw [State.commandsBegun, State.commandsDone_eq_nil h, State.stalledCommands_eq_nil h, List.append_nil]

theorem State.not_reached_of_index_zero (h : s.ph.index = 0) (k : Nat) : ¬ s.ph.reached (k + 1) := by
  simp [Phase.reached, h]

theorem State.descriptorsWritten_of_index_zero (h : s.ph.index = 0) : s.DescriptorsWritten :=
  ⟨fun hr => absurd hr (State.not_reached_of_index_zero h 0), fun hr => absurd hr (State.not_reached_of_index_zero h 1)⟩

theorem State.geometryLegal_of_index_zero (h : s.ph.index = 0) : s.GeometryLegal :=
  fun hr => absurd hr (State.not_reached_of_index_zero h 2)

variable (h : s.ph.index = 0) (ht : s.tr = [])
include h ht

theorem State.commandLog_of_index_zero : s.CommandLog := by
  rw [State.CommandLog, State.commandsBegun_eq_nil h, ht]
  rfl

theorem State.waitLog_of_index_zero : s.WaitLog := by
  rw [State.WaitLog, State.commandsDone_eq_nil h, State.stalledCommands_eq_nil h, ht]
  exact ⟨rfl, rfl⟩

theorem State.readLog_of_index_zero : s.ReadLog := by
  rw [State.ReadLog, State.commandsBegun_eq_nil h, ht]
  rfl

theorem State.liveReadLog_of_index_zero : s.LiveReadLog := by
  rw [State.LiveReadLog, State.commandsBegun_eq_nil h, ht]
  exact ⟨rfl, fun hr => absurd hr (State.not_reached_of_index_zero h 2), fun _ => rfl⟩

theorem State.encoderLog_of_index_zero : s.EncoderLog := by
  rw [State.EncoderLog, ht]
  exact ⟨fun hr => absurd hr (State.not_reached_of_index_zero h 2), fun _ => rfl,
    fun hr => absurd hr (State.not_reached_of_index_zero h 5), fun _ => rfl⟩

theorem State.eventBudget_of_index_zero : s.EventBudget := by
  have readers : s.ph.readersDone = 0 := by simp [Phase.readersDone, h]
  simp [State.EventBudget, State.commandsBegun_eq_nil h, State.stalledCommands_eq_nil h, readers, h, ht, spdCount, diagCount]

end

/-- With an empty trace and both flags clear no diagnostic was emitted (R86). -/
theorem State.oversizeLog_of_tr_nil {s : State} (ht : s.tr = []) (ho : ∀ i, s.ovs i = false) : s.OversizeLog :=
  ⟨fun _ => ht, fun i => by simp [ht, ho]⟩

/-- A block that is not stuck is stuck at no wrong place. -/
theorem State.stallPlaced_of_not_stuck {s : State} (h : s.stall = none) : s.StallPlaced := by
  simp [State.StallPlaced, h]

/-! ## Reset and rest (R27, R133, R138, R166) -/

theorem State.blockReset_afterReset (s : State) : s.blockReset.AfterReset := ⟨rfl, rfl, rfl, rfl, rfl⟩

theorem State.reset_afterReset : State.reset.AfterReset := ⟨rfl, rfl, rfl, rfl, rfl⟩

/-- After a reset both oversize flags are clear (R18, R27). -/
theorem State.AfterReset.ovs {s : State} (h : s.AfterReset) (i : Socket) : s.ovs i = false := by
  cases i
  · exact h.ovs0
  · exact h.ovs1

/-- Settles O11: the values of the reset state, and the check of its configuration. -/
theorem resetStateValues : Obligations.ResetStateValues := by
  have admitted : State.reset.cfg.Admitted := (Cfg.violation_eq_none_iff_admitted _).mp (by decide)
  exact ⟨State.reset_afterReset, admitted, rfl, rfl, rfl, rfl, rfl, rfl, rfl, rfl⟩

/-- Settles O47: at reset no operation of a run is done, the trace is empty, the flags are clear and the block is not
stuck. -/
theorem invariantsHoldAtReset : Obligations.InvariantsHoldAtReset := by
  have none_done : State.reset.ph.index = 0 := rfl
  have empty : State.reset.tr = [] := rfl
  exact ⟨State.commandLog_of_index_zero none_done empty, State.waitLog_of_index_zero none_done empty,
    State.readLog_of_index_zero none_done empty, State.liveReadLog_of_index_zero none_done empty,
    State.encoderLog_of_index_zero none_done empty, State.descriptorsWritten_of_index_zero none_done,
    State.geometryLegal_of_index_zero none_done, State.oversizeLog_of_tr_nil empty State.reset_afterReset.ovs,
    State.eventBudget_of_index_zero none_done empty, State.stallPlaced_of_not_stuck rfl⟩

/-- In IDLE and DONE no operation is pending (R14, R138). -/
theorem State.pending_of_idle_or_done {s : State} (h : s.ph = .idle ∨ s.ph = .done) : s.pending = none := by
  unfold State.pending State.fetch
  rcases h with e | e <;> rw [e] <;> cases s.stall <;> rfl

/-- Settles O8: no operation is pending in IDLE and DONE, so the block's own turn is a rest. -/
theorem blockRestsOutsideRun : Obligations.BlockRestsOutsideRun := by
  intro s ha hh hp
  rw [step_eq ha, hh]
  simp only [ownStep, State.pending_of_idle_or_done hp]

/-- Settles O10: the free values a reset leaves are the existential ones, and the time it takes is not negative. -/
theorem resetInputClearsBlock : Obligations.ResetInputClearsBlock := by
  intro s rest ha hh
  refine ⟨s.blockReset.d0, s.blockReset.d1, s.blockReset.dimmStart, s.blockReset.now, s.blockReset.freeIdx,
    Nat.le_add_right _ _, ?_⟩
  rw [step_eq ha, hh]
  rfl

/-! ## The logs of a run -/

/-- A run has written RP once, with the value RP holds, from step 3 on, and not before. -/
theorem State.liveReadLog_iff (s : State) : s.LiveReadLog ↔
    rpReads s.tr = List.replicate (2 * (s.commandsBegun.filter (· ≠ .norm)).length) s.rp ∧
      rpWrites s.tr = if s.ph.reached 3 then [s.rp] else [] := by
  rw [State.LiveReadLog]
  split <;> simp_all

/-- An operation keeps that RP was written once, with the value it holds, from step 3 on (R90, R137). -/
theorem OperationEnds.rpWrites_kept {s t : State} {n : Fin 18} (hp : s.ph = .step n) (h : OperationEnds s (seqRom n) t)
    (hs : rpWrites s.tr = if s.ph.reached 3 then [s.rp] else []) :
    rpWrites t.tr = if t.ph.reached 3 then [t.rp] else [] := by
  rw [h.rpWrites_eq, hs]
  by_cases hi : seqRom n = .encrp
  · have before : ¬ s.ph.reached 3 := by simp [Phase.reached, hp, seqRom_encrp n hi]
    rw [if_neg before, if_pos hi, if_pos ((h.reached_three_iff hp).mpr (.inr hi))]
    rfl
  · have same : t.ph.reached 3 ↔ s.ph.reached 3 := (h.reached_three_iff hp).trans (or_iff_left hi)
    simp only [if_neg hi, h.rp_eq hi, same, List.append_nil]

/-- No command is sent when the operation at PH is `ENCRP` (R64). -/
theorem State.commandsBegun_before_encrp {s : State} {n : Fin 18} (hp : s.ph = .step n) (hs : s.stall = none)
    (hi : seqRom n = .encrp) : s.commandsBegun = [] := by
  rw [State.commandsBegun_of_not_stuck hs, hp, Phase.commandsDone, seqRom_encrp n hi]
  rfl

/-- An operation keeps that RP was read twice for each delivered command, with the value it holds: `ENCRP`, which writes
it, comes before every read (R90, R123). -/
theorem OperationEnds.rpReads_kept {s t : State} {n : Fin 18} (hp : s.ph = .step n) (hs : s.stall = none)
    (h : OperationEnds s (seqRom n) t)
    (hr : rpReads s.tr = List.replicate (2 * (s.commandsBegun.filter (· ≠ .norm)).length) s.rp) :
    rpReads t.tr = List.replicate (2 * (t.commandsBegun.filter (· ≠ .norm)).length) t.rp := by
  rw [h.rpReads_eq, hr, h.commandsBegun hp hs]
  by_cases hi : seqRom n = .encrp
  · rw [State.commandsBegun_before_encrp hp hs hi, hi]
    rfl
  · rw [h.rp_eq hi, List.filter_append, List.length_append, Nat.mul_add, List.replicate_add]

/-- Settles O41: each operation keeps the reads and the writes of RP in step with the commands and with PH. -/
theorem liveReadLogKept : Obligations.LiveReadLogKept := by
  refine fun s t => step_keeps State.LiveReadLog (fun _ _ hs => hs)
    (fun _ _ _ => State.liveReadLog_of_index_zero rfl rfl) (fun _ _ _ _ => State.liveReadLog_of_index_zero rfl rfl)
    fun s t n _ hp hl hs h => ?_
  rw [State.liveReadLog_iff] at hs ⊢
  exact ⟨h.rpReads_kept hp hl hs.1, h.rpWrites_kept hp hs.2⟩

/-- An operation that takes PH past the step of a descriptor's reader has left the descriptor EMPTY or present, if it was
so from there on before (R15, R80). -/
theorem OperationEnds.desc_wf_kept {s t : State} {n m : Fin 18} {j : Socket} {cs : CallSite} (hm : seqRom m = .rddesc j cs)
    (hp : s.ph = .step n) (h : OperationEnds s (seqRom n) t) (hs : s.ph.reached (m.val + 1) → (s.desc j).wf = true)
    (ht : t.ph.reached (m.val + 1)) : (t.desc j).wf = true := by
  rcases h.desc_eq_or_written j with ⟨same, other⟩ | ⟨wf, -⟩
  · rw [same]
    refine hs ?_
    rcases other with ph | other
    · rwa [ph] at ht
    · have ne : n.val ≠ m.val := fun e => other cs (Fin.ext e ▸ hm)
      rcases h.ph_stall with ⟨ph, -⟩ | ⟨ph, -⟩
      · simp only [Phase.reached, ph, hp, Phase.index_next_step, Phase.index_step] at ht ⊢
        omega
      · rwa [ph] at ht
  · exact wf

/-- Settles O43: each descriptor is written by its first reader, and by readers alone. -/
theorem descriptorsWrittenKept : Obligations.DescriptorsWrittenKept :=
  fun _ _ => step_keeps State.DescriptorsWritten (fun _ _ hs => hs)
    (fun _ _ _ => State.descriptorsWritten_of_index_zero rfl) (fun _ _ _ _ => State.descriptorsWritten_of_index_zero rfl)
    fun _ _ _ _ hp _ ⟨h0, h1⟩ h =>
      ⟨h.desc_wf_kept (m := 0) (j := .s0) rfl hp h0, h.desc_wf_kept (m := 1) (j := .s1) rfl hp h1⟩

/-- An operation of the run does not lead to IDLE (R14). -/
theorem OperationEnds.ph_ne_idle {s t : State} {n : Fin 18} {i : Instr} (hp : s.ph = .step n) (h : OperationEnds s i t) :
    t.ph ≠ .idle := by
  rcases h.ph_stall with ⟨ph, -⟩ | ⟨ph, -⟩ <;> rw [ph, hp]
  · rw [Phase.next]
    split <;> exact nofun
  · exact nofun

/-- Settles O45: `ENCRP` sets a flag exactly where it emits the diagnostic, and the trace START empties was empty. -/
theorem oversizeLogKept : Obligations.OversizeLogKept := by
  refine fun s t => step_keeps State.OversizeLog (fun _ _ hs => hs) (fun s hs hp => ?start)
    (fun _ u _ _ => State.oversizeLog_of_tr_nil rfl u.blockReset_afterReset.ovs)
    fun s t n _ hp _ hs h => ?operation
  case start =>
    obtain ⟨empty, flags⟩ := hs
    exact State.oversizeLog_of_tr_nil rfl fun i => by
      have clear := flags i
      rw [empty hp] at clear
      exact Bool.eq_false_iff.mpr fun hi => List.not_mem_nil (clear.mp hi)
  case operation =>
    exact ⟨fun hi => absurd hi (h.ph_ne_idle hp), fun j => by rw [h.ovs_iff, h.diag_mem_iff, hs.2]⟩

/-! ## What every step keeps and moves -/

/-- The canonical form is that of the provider's image. -/
theorem State.imageWf_congr {s t : State} (h : t.spd = s.spd) : t.imageWf = s.imageWf := by
  rw [State.imageWf, State.imageWf, h]

/-- An operation keeps the configuration, the preserved bits of CT and the SPD image, and does not move the clock back. -/
theorem OperationEnds.interrupted {s t : State} {i : Instr} (h : OperationEnds s i t) : Interrupted s t := by
  refine ⟨?cfg, ?ctLow, h.now_le, ?imageWf⟩
  case cfg =>
    cases h with
    | rddesc j cs hg => simp [afterRddesc]
    | rddescStuck | encrp | encst | command | commandStuck | norm | normStuck => rfl
  case ctLow =>
    cases h with
    | rddesc j cs hg => simp [afterRddesc]
    | rddescStuck | encrp | encst => rfl
    | command | commandStuck | norm | normStuck => exact ctLow_ctByte _ _
  case imageWf =>
    cases h with
    | rddesc j cs hg =>
      rw [← s.setSpd_after_imageWf (s.readCount j)]
      exact State.imageWf_congr (by simp [afterRddesc])
    | rddescStuck j cs l hl hc => simp [State.imageWf, stuckRddesc, hl]
    | encrp | encst | command | commandStuck | norm | normStuck => rfl

/-- START keeps them too (R133). -/
theorem State.start_interrupted (s : State) : Interrupted s s.start := by
  by_cases hp : s.ph = .idle
  · rw [s.start_idle hp]
    exact ⟨rfl, rfl, le_rfl, rfl⟩
  · rw [s.start_ignored hp]
    exact .refl s

/-- Reset of the block keeps them too (R167; log 8). -/
theorem State.blockReset_interrupted (s : State) : Interrupted s s.blockReset :=
  ⟨rfl, rfl, Nat.le_add_right _ _, rfl⟩

/-- Every step keeps the configuration, the preserved bits of CT and the SPD image, and does not move the clock back. -/
theorem step_interrupted {s t : State} (h : step s = .next t) : Interrupted s t := by
  have input (rest : List HostInput) : Interrupted s (s.setHost rest) := ⟨rfl, rfl, le_rfl, rfl⟩
  rcases step_cases h with ⟨rest, -, rfl⟩ | ⟨rest, u, -, hu, rfl⟩ | ⟨rest, -, ⟨-, rfl⟩ | ⟨n, -, -, he⟩⟩
  · exact (input rest).trans (State.start_interrupted _)
  · exact ((input rest).trans hu).trans u.blockReset_interrupted
  · exact input rest
  · exact (input rest).trans he.interrupted

/-- Settles O48, from what every step keeps. -/
theorem configurationNeverWritten : Obligations.ConfigurationNeverWritten := fun _ _ h =>
  ⟨(step_interrupted h).cfg, fun hw => (step_interrupted h).imageWf.trans hw⟩

/-- Settles O49, from what every step keeps. -/
theorem clockNeverGoesBack : Obligations.ClockNeverGoesBack := fun _ _ h => (step_interrupted h).now

/-- Settles O50, from what every step keeps. -/
theorem preservedBitsNeverChange : Obligations.PreservedBitsNeverChange := fun _ _ h => (step_interrupted h).ctLow

/-- START moves PH in IDLE alone (R133). -/
theorem State.start_ph (s : State) : s.ph = .idle ∧ s.start.ph = .step 0 ∨ s.ph ≠ .idle ∧ s.start.ph = s.ph := by
  by_cases hp : s.ph = .idle
  · exact .inl ⟨hp, by rw [s.start_idle hp]⟩
  · exact .inr ⟨hp, by rw [s.start_ignored hp]⟩

/-- Settles O51, by the cases of a step: a host input, a rest in IDLE, in DONE or where the block is stuck, an operation. -/
theorem phaseMovesByOne : Obligations.PhaseMovesByOne := by
  intro s t h
  rcases step_cases h with ⟨rest, hh, rfl⟩ | ⟨rest, u, hh, -, rfl⟩ | ⟨rest, -, ⟨hp, rfl⟩ | ⟨n, -, -, he⟩⟩
  · exact .inr (.inl ⟨rest, hh, (s.setHost rest).start_ph⟩)
  · exact .inl ⟨rest, hh, rfl⟩
  · rcases State.pending_eq_none hp with idle | done | stuck
    · exact .inr (.inr (.inr (by simp [idle])))
    · exact .inr (.inr (.inr (by simp [done])))
    · exact .inr (.inr (.inl ⟨stuck, rfl⟩))
  · rcases he.ph_stall with ⟨ph, -⟩ | ⟨ph, ⟨stall, -⟩ | ⟨stall, -⟩⟩
    · exact .inr (.inr (.inr ph))
    · exact .inr (.inr (.inl ⟨by simp [stall], ph⟩))
    · exact .inr (.inr (.inl ⟨by simp [stall], ph⟩))

/-! ## Each register at its own steps -/

/-- The commands stand at steps 6 to 17 (R64). -/
theorem seqRom_command (n : Fin 18) (h : (seqRom n).command? ≠ none) : 6 ≤ n.val := by
  revert n
  decide

/-- The readers of a socket stand at two steps, one for each call site (R64). -/
theorem seqRom_reader (n : Fin 18) (i : Socket) (cs : CallSite) (h : seqRom n = .rddesc i cs) :
    n.val = socketIndex i ∨ n.val = 3 + socketIndex i := by
  rcases seqRom_rddesc n i cs h with ⟨hn, rfl⟩ | ⟨hn, rfl⟩ | ⟨hn, rfl⟩ | ⟨hn, rfl⟩ <;> simp [hn, socketIndex]

/-- What changes in a step that takes no reset, other than PH, the trace and the host's inputs, is changed by an operation. -/
theorem operation_of_change {α : Type} (f : State → α)
    (hf : ∀ (s : State) host p l, f { s with host := host, ph := p, tr := l } = f s) {s t : State}
    (h : step s = .next t) (no_reset : s.host.head? ≠ some .reset)
    (no_cut : ∀ k, s.host.head? ≠ some (.resetWithin k)) (change : f t ≠ f s) :
    ∃ n rest, s.ph = .step n ∧ OperationEnds (s.setHost rest) (seqRom n) t := by
  rcases step_cases h with ⟨rest, -, rfl⟩ | ⟨rest, u, reset | ⟨k, cut⟩, -, -⟩ | ⟨rest, -, ⟨-, rfl⟩ | ⟨n, hp, -, he⟩⟩
  · refine absurd ?_ change
    by_cases hp : (s.setHost rest).ph = .idle
    · rw [State.start_idle _ hp]
      exact hf s rest _ _
    · rw [State.start_ignored _ hp]
      exact hf s rest s.ph s.tr
  · simp [reset] at no_reset
  · simp [cut] at no_cut
  · exact absurd (hf s rest s.ph s.tr) change
  · exact ⟨n, rest, hp, he⟩

/-- An operation that changes D[j] is a reader of socket j. -/
theorem OperationEnds.reader_of_desc_ne {s t : State} {i : Instr} (h : OperationEnds s i t) {j : Socket}
    (change : t.desc j ≠ s.desc j) : ∃ cs, i = .rddesc j cs := by
  rcases h.desc_eq_or_written j with ⟨same, -⟩ | ⟨-, reader⟩
  · exact absurd same change
  · exact reader

/-- An operation that changes an oversize flag is `ENCRP`, and sets it (R18). -/
theorem OperationEnds.encrp_of_ovs_ne {s t : State} {i : Instr} (h : OperationEnds s i t) {j : Socket}
    (change : t.ovs j ≠ s.ovs j) : i = .encrp ∧ t.ovs j = true := by
  by_cases hi : i = .encrp ∧ (s.desc j).oversize = true
  · exact ⟨hi.1, (h.ovs_iff j).mpr (.inr hi)⟩
  · exact absurd (Bool.eq_iff_iff.mpr ((h.ovs_iff j).trans (or_iff_left hi))) change

/-- Settles O52: what changes is changed by an operation that writes it, and R64 says where that operation stands. -/
theorem registersWrittenOnlyAtTheirSteps : Obligations.RegistersWrittenOnlyAtTheirSteps := by
  intro s t h no_reset no_cut
  have at_step {n : Fin 18} {k : Nat} (hk : k < 18) (hp : s.ph = .step n) (hn : n.val = k) : s.ph = .step ⟨k, hk⟩ :=
    hp.trans (congrArg Phase.step (Fin.ext hn))
  refine ⟨fun change => ?rp, fun change => ?st, fun change => ?ct, fun change => ?dimmStart, fun change => ?d0,
    fun change => ?d1, fun i change => ?ovs⟩
  case rp =>
    obtain ⟨n, rest, hp, he⟩ := operation_of_change State.rp (fun _ _ _ _ => rfl) h no_reset no_cut change
    have encrp : seqRom n = .encrp := by_contra fun hi => change (he.rp_eq hi)
    exact at_step _ hp (seqRom_encrp n encrp)
  case st =>
    obtain ⟨n, rest, hp, he⟩ := operation_of_change State.st (fun _ _ _ _ => rfl) h no_reset no_cut change
    have encst : seqRom n = .encst := by_contra fun hi => change (he.st_eq hi)
    exact at_step _ hp (seqRom_encst n encst)
  case ct =>
    obtain ⟨n, rest, hp, he⟩ := operation_of_change State.ct (fun _ _ _ _ => rfl) h no_reset no_cut change
    exact ⟨n, hp, seqRom_command n fun hi => change (he.ct_eq hi)⟩
  case dimmStart =>
    obtain ⟨n, rest, hp, he⟩ := operation_of_change State.dimmStart (fun _ _ _ _ => rfl) h no_reset no_cut change
    have delivered : ∃ x : AddrCommand, seqRom n = .ofCommand x.toCommand := by
      by_contra other
      exact change (he.dimmStart_eq (not_exists.mp other))
    obtain ⟨x, hx⟩ := delivered
    exact ⟨n, hp, seqRom_delivered n x hx⟩
  case d0 =>
    obtain ⟨n, rest, hp, he⟩ := operation_of_change State.d0 (fun _ _ _ _ => rfl) h no_reset no_cut change
    obtain ⟨cs, reader⟩ := he.reader_of_desc_ne (j := .s0) change
    exact (seqRom_reader n .s0 cs reader).imp (at_step _ hp) (at_step _ hp)
  case d1 =>
    obtain ⟨n, rest, hp, he⟩ := operation_of_change State.d1 (fun _ _ _ _ => rfl) h no_reset no_cut change
    obtain ⟨cs, reader⟩ := he.reader_of_desc_ne (j := .s1) change
    exact (seqRom_reader n .s1 cs reader).imp (at_step _ hp) (at_step _ hp)
  case ovs =>
    obtain ⟨n, rest, hp, he⟩ := operation_of_change (·.ovs i) (fun _ _ _ _ => by cases i <;> rfl) h no_reset no_cut change
    obtain ⟨encrp, isSet⟩ := he.encrp_of_ovs_ne (j := i) (by cases i <;> exact change)
    exact ⟨at_step _ hp (seqRom_encrp n encrp), isSet⟩

/-! ## The registers of unspecified reset value (R28) -/

/-- Without the bits that R28 lets a run take from CT, the events of a command's actions do not show what stood there. -/
theorem map_maskCt_actionEvents (c : Cfg) (x : AddrCommand) (ct ct' rp : Byte) :
    (c.actionEvents x ct rp).map Event.maskCt = (c.actionEvents x ct' rp).map Event.maskCt := by
  simp [Cfg.actionEvents, Event.maskCt]

/-- A command has as many events whatever stood in CT. -/
theorem length_actionEvents_congr (c : Cfg) (x : AddrCommand) (ct ct' rp : Byte) :
    (c.actionEvents x ct rp).length = (c.actionEvents x ct' rp).length := by
  simpa using congrArg List.length (map_maskCt_actionEvents c x ct ct' rp)

/-- Nor do the events of normal operation's register write. -/
theorem map_maskCt_normEvents (c : Cfg) (ct ct' : Byte) :
    (c.normEvents ct).map Event.maskCt = (c.normEvents ct').map Event.maskCt := by
  simp [Cfg.normEvents, Event.maskCt]

/-- An operation takes PH past one step, so every other step that PH is past was so before (R14). -/
theorem Phase.reached_of_next {p : Phase} {n : Fin 18} {k : Nat} (hp : p = .step n) (hk : n.val + 1 ≠ k)
    (h : p.next.reached k) : p.reached k := by
  simp only [Phase.reached, hp, Phase.index_next_step, Phase.index_step] at h ⊢
  omega

/-- What a `Wait` that ends makes of a state (R113). -/
def State.waited (s : State) (d : Nat) : State :=
  (s.setDelays s.delays.after).record (.wait d) (d + s.overshoot)

/-- A delivered command that completes is its actions, its `Wait` and the move of PH (R109). -/
theorem afterCommand_eq (s : State) (x : AddrCommand) :
    afterCommand s x = ((commandActions s x).waited (s.cfg.delay x.toCommand)).advance := by
  simp only [afterCommand, Cfg.commandEvents, List.length_append, ← List.append_assoc]
  rfl

/-- Normal operation that completes is its register write, its `Wait` and the move of PH (R109, R119). -/
theorem afterNorm_eq (s : State) : afterNorm s = ((normActions s).waited s.cfg.delayNorm).advance := rfl

namespace AgreeButDead

section
variable {s s' : State} (h : AgreeButDead s s')
include h

/-! ### A reader -/

theorem answer : s'.answer = s.answer := by
  funext k dev off
  simp only [State.answer, h.spd, h.freeIdx]

theorem typeAnswer (i : Socket) : s'.typeAnswer i = s.typeAnswer i := by
  rw [State.typeAnswer, State.typeAnswer, h.answer, h.cfg]

theorem densityAnswer (i : Socket) : s'.densityAnswer i = s.densityAnswer i := by
  rw [State.densityAnswer, State.densityAnswer, h.answer, h.cfg]

theorem sidedAnswer (i : Socket) (cs : CallSite) : s'.sidedAnswer i cs = s.sidedAnswer i cs := by
  rw [State.sidedAnswer, State.sidedAnswer, h.answer, h.cfg]

theorem readCount (i : Socket) : s'.readCount i = s.readCount i := by
  rw [State.readCount, State.readCount, h.typeAnswer, h.densityAnswer, h.cfg]

theorem readEvents (i : Socket) (cs : CallSite) : s'.readEvents i cs = s.readEvents i cs := by
  rw [State.readEvents, State.readEvents, h.typeAnswer, h.densityAnswer, h.sidedAnswer, h.readCount, h.cfg]

/-- A reader that is stuck writes no register. -/
theorem stuckRddesc (i : Socket) (cs : CallSite) (l : List SpdAnswer) :
    AgreeButDead (stuckRddesc s i cs l) (stuckRddesc s' i cs l) := { h with
  now := by simp [Machine.stuckRddesc, h.now, h.freeIdx]
  tr := by simp [Machine.stuckRddesc, h.tr, h.readEvents]
  stall := rfl
  spd := rfl
  freeIdx := congrArg (· + l.length) h.freeIdx }

/-- A reader writes the same descriptor from both states. -/
theorem afterRddesc {n : Fin 18} {i : Socket} {cs : CallSite} (hp : s.ph = .step n) (hn : seqRom n = .rddesc i cs) :
    AgreeButDead (afterRddesc s i cs) (afterRddesc s' i cs) := by
  have stands := seqRom_rddesc n i cs hn
  have read : moduleDescriptor s'.cfg cs (s'.typeAnswer i) (s'.densityAnswer i) (s'.sidedAnswer i cs) =
      moduleDescriptor s.cfg cs (s.typeAnswer i) (s.densityAnswer i) (s.sidedAnswer i cs) := by
    rw [h.cfg, h.typeAnswer, h.densityAnswer, h.sidedAnswer]
  exact {
    cfg := by simp [Machine.afterRddesc, h.cfg]
    ph := by simp [Machine.afterRddesc, h.ph]
    ovs0 := by simp [Machine.afterRddesc, h.ovs0]
    ovs1 := by simp [Machine.afterRddesc, h.ovs1]
    now := by simp [Machine.afterRddesc, h.now, h.freeIdx, h.readCount]
    tr := by simp [Machine.afterRddesc, h.tr, h.readEvents]
    stall := by simp [Machine.afterRddesc, h.stall]
    spd := by simp [Machine.afterRddesc, h.spd, h.readCount]
    delays := by simp [Machine.afterRddesc, h.delays]
    host := by simp [Machine.afterRddesc, h.host]
    freeIdx := by simp [Machine.afterRddesc, h.freeIdx, h.readCount]
    d0 := fun hr => by
      simp only [Machine.afterRddesc, State.setDesc_ph] at hr
      cases i with
      | s0 => exact read
      | s1 => exact h.d0 (Phase.reached_of_next hp (by simp at stands; omega) hr)
    d1 := fun hr => by
      simp only [Machine.afterRddesc, State.setDesc_ph] at hr
      cases i with
      | s0 => exact h.d1 (Phase.reached_of_next hp (by simp at stands; omega) hr)
      | s1 => exact read
    rp := fun hr => by
      simp only [Machine.afterRddesc, State.setDesc_ph, State.setDesc_rp] at hr ⊢
      exact h.rp (Phase.reached_of_next hp (by omega) hr)
    ctCode := fun hr => by
      simp only [Machine.afterRddesc, State.setDesc_ph, State.setDesc_ct] at hr ⊢
      exact h.ctCode (Phase.reached_of_next hp (by omega) hr) }

/-! ### The encoders -/

/-- From step 2 on both descriptors are written. -/
theorem descriptors (hr : s.ph.reached 2) : s'.d0 = s.d0 ∧ s'.d1 = s.d1 := ⟨h.d0 (le_trans (by decide) hr), h.d1 hr⟩

/-- `ENCRP` encodes the two descriptors, which are written by then. -/
theorem afterEncrp {n : Fin 18} (hp : s.ph = .step n) (hn : seqRom n = .encrp) :
    AgreeButDead (afterEncrp s) (afterEncrp s') := by
  have step2 := seqRom_encrp n hn
  obtain ⟨d0, d1⟩ := h.descriptors (by simp [Phase.reached, hp, step2])
  exact {
    cfg := h.cfg
    ph := congrArg Phase.next h.ph
    ovs0 := by simp only [Machine.afterEncrp, h.ovs0, d0]
    ovs1 := by simp only [Machine.afterEncrp, h.ovs1, d1]
    now := by simp only [Machine.afterEncrp, h.now, h.freeIdx, d0, d1]
    tr := by simp only [Machine.afterEncrp, h.cfg, d0, d1, List.map_append, h.tr]
    stall := h.stall
    spd := h.spd
    delays := h.delays
    host := h.host
    freeIdx := by simp only [Machine.afterEncrp, h.freeIdx, d0, d1]
    d0 := fun _ => d0
    d1 := fun _ => d1
    rp := fun _ => by simp only [Machine.afterEncrp, h.cfg, d0, d1]
    ctCode := fun hr => by simp [Phase.reached, Machine.afterEncrp, hp, step2] at hr }

/-- `ENCST` encodes the classes of the two descriptors, which are written by then; ST, which it writes, is never read. -/
theorem afterEncst {n : Fin 18} (hp : s.ph = .step n) (hn : seqRom n = .encst) :
    AgreeButDead (afterEncst s) (afterEncst s') := by
  have step5 := seqRom_encst n hn
  obtain ⟨d0, d1⟩ := h.descriptors (by simp [Phase.reached, hp, step5])
  exact { h with
    ph := congrArg Phase.next h.ph
    now := by simp only [Machine.afterEncst, h.now, h.freeIdx]
    tr := by simp only [Machine.afterEncst, strengthWord, h.cfg, d0, d1, List.map_append, h.tr]
    freeIdx := congrArg (· + 1) h.freeIdx
    d0 := fun _ => d0
    d1 := fun _ => d1
    rp := fun _ => h.rp (by simp [Phase.reached, hp, step5])
    ctCode := fun hr => by simp [Phase.reached, Machine.afterEncst, hp, step5] at hr }

/-! ### The commands -/

/-- Getting stuck changes no register. -/
theorem stallOn (why : Stall) : AgreeButDead (s.stallOn why) (s'.stallOn why) := { h with stall := rfl }

/-- A `Wait` that ends takes as long. -/
theorem waited (d : Nat) : AgreeButDead (s.waited d) (s'.waited d) := by
  have overshoot : s'.overshoot = s.overshoot := by simp only [State.overshoot, h.delays, h.freeIdx]
  exact { h with
    now := by simp [State.waited, h.now, overshoot]
    tr := by simp [State.waited, h.tr]
    delays := by simp [State.waited, h.delays]
    freeIdx := by simp [State.waited, h.freeIdx] }

/-- PH moves on from a command with the descriptors and RP written before, and CT by the command. -/
theorem advance (hr : s.ph.reached 3) (hc : Sys2Proof.ctCode s'.ct = Sys2Proof.ctCode s.ct) :
    AgreeButDead s.advance s'.advance := { h with
  ph := congrArg Phase.next h.ph
  d0 := fun _ => h.d0 (le_trans (by decide) hr)
  d1 := fun _ => h.d1 (le_trans (by decide) hr)
  rp := fun _ => h.rp hr
  ctCode := fun _ => hc }

/-- The codes that a delivered command writes to CT agree. -/
theorem ctCode_commandActions (x : AddrCommand) :
    Sys2Proof.ctCode (commandActions s' x).ct = Sys2Proof.ctCode (commandActions s x).ct := by
  simp only [Machine.commandActions, ctCode_ctByte, h.cfg]

/-- A delivered command makes the reads that RP gives, which is written by then. -/
theorem commandActions (hr : s.ph.reached 3) (x : AddrCommand) :
    AgreeButDead (commandActions s x) (commandActions s' x) := by
  have events := map_maskCt_actionEvents s.cfg x s'.ct s.ct s.rp
  have count := length_actionEvents_congr s.cfg x s'.ct s.ct s.rp
  exact { h with
    now := by simp only [Machine.commandActions, h.now, h.freeIdx, h.cfg, h.rp hr, count]
    tr := by simp only [Machine.commandActions, h.cfg, h.rp hr, List.map_append, h.tr, events]
    freeIdx := by simp only [Machine.commandActions, h.freeIdx, h.cfg, h.rp hr, count]
    ctCode := fun _ => h.ctCode_commandActions x }

/-- The codes that normal operation writes to CT agree. -/
theorem ctCode_normActions : Sys2Proof.ctCode (normActions s').ct = Sys2Proof.ctCode (normActions s).ct := by
  simp only [Machine.normActions, ctCode_ctByte, h.cfg]

/-- Normal operation reads nothing but CT. -/
theorem normActions : AgreeButDead (normActions s) (normActions s') := { h with
  now := by simp only [Machine.normActions, h.now, h.freeIdx]
  tr := by simp only [Machine.normActions, h.cfg, List.map_append, h.tr, map_maskCt_normEvents s.cfg s'.ct s.ct]
  freeIdx := congrArg (· + 2) h.freeIdx
  ctCode := fun _ => h.ctCode_normActions }

theorem afterCommand (hr : s.ph.reached 3) (x : AddrCommand) : AgreeButDead (afterCommand s x) (afterCommand s' x) := by
  rw [afterCommand_eq, afterCommand_eq, h.cfg]
  exact ((h.commandActions hr x).waited _).advance hr (h.ctCode_commandActions x)

theorem afterNorm (hr : s.ph.reached 3) : AgreeButDead (afterNorm s) (afterNorm s') := by
  rw [afterNorm_eq, afterNorm_eq, h.cfg]
  exact (h.normActions.waited _).advance hr h.ctCode_normActions

/-! ### One operation -/

/-- An operation of the run that answers a next state does so from both, and the next states agree. -/
theorem operation {t : State} {n : Fin 18} (hp : s.ph = .step n) (he : OperationEnds s (seqRom n) t) :
    ∃ t', OperationEnds s' (seqRom n) t' ∧ AgreeButDead t t' := by
  generalize hi : seqRom n = i at he
  have delivered (x : AddrCommand) (hx : seqRom n = .ofCommand x.toCommand) : s.ph.reached 3 := by
    simp only [Phase.reached, hp, Phase.index_step]
    exact le_trans (by decide) (seqRom_delivered n x hx).1
  have norm (hn : seqRom n = .cmdNorm) : s.ph.reached 3 := by
    simp [Phase.reached, hp, seqRom_norm n hn]
  cases he with
  | rddesc i cs hg => exact ⟨_, .rddesc i cs (by rwa [h.spd, h.readCount]), h.afterRddesc hp hi⟩
  | rddescStuck i cs l hl hc =>
    exact ⟨_, .rddescStuck i cs l (h.spd.trans hl) (by rwa [h.readCount]), h.stuckRddesc i cs l⟩
  | encrp h0 h1 =>
    obtain ⟨d0, d1⟩ := h.descriptors (by simp [Phase.reached, hp, seqRom_encrp n hi])
    exact ⟨_, .encrp (by rwa [h.cfg, d0]) (by rwa [h.cfg, d1]), h.afterEncrp hp hi⟩
  | encst => exact ⟨_, .encst, h.afterEncst hp hi⟩
  | command x hd => exact ⟨_, .command x (by rwa [h.delays]), h.afterCommand (delivered x hi) x⟩
  | commandStuck x hd =>
    exact ⟨_, .commandStuck x (by rwa [h.delays]), (h.commandActions (delivered x hi) x).stallOn .wait⟩
  | norm hd => exact ⟨_, .norm (by rwa [h.delays]), h.afterNorm (norm hi)⟩
  | normStuck hd => exact ⟨_, .normStuck (by rwa [h.delays]), h.normActions.stallOn .wait⟩

/-! ### A host input -/

/-- An input taken from the host changes no register. -/
theorem setHost (rest : List HostInput) : AgreeButDead (s.setHost rest) (s'.setHost rest) := { h with host := rfl }

/-- START is honoured in both states or in neither, and at step 0 no register is written yet. -/
theorem start : AgreeButDead s.start s'.start := by
  by_cases hp : s.ph = .idle
  · rw [s.start_idle hp, s'.start_idle (h.ph.trans hp)]
    exact { h with
      ph := rfl
      tr := rfl
      d0 := fun hr => absurd hr (State.not_reached_of_index_zero rfl 0)
      d1 := fun hr => absurd hr (State.not_reached_of_index_zero rfl 1)
      rp := fun hr => absurd hr (State.not_reached_of_index_zero rfl 2)
      ctCode := fun hr => absurd hr (State.not_reached_of_index_zero rfl 6) }
  · rw [s.start_ignored hp, s'.start_ignored (h.ph ▸ hp)]
    exact h

end

end AgreeButDead

/-! ### A reset -/

/-- What a reset of the block leaves alone of a state, but for the controller's registers: the configuration, the clock and
the environment (R167; log 8). -/
def State.surroundings (s : State) : Cfg × Nat × SpdSource × DelaySource × List HostInput :=
  (s.cfg, s.now, s.spd, s.delays, s.host)

theorem AgreeButDead.surroundings {s s' : State} (h : AgreeButDead s s') : s.surroundings = s'.surroundings := by
  simp only [State.surroundings, h.cfg, h.now, h.spd, h.delays, h.host]

/-- After a reset the states agree if their surroundings did, since no register is written yet. -/
theorem agreeButDead_blockReset {u u' : State} (h : u.surroundings = u'.surroundings) (hf : u'.freeIdx = u.freeIdx) :
    AgreeButDead u.blockReset u'.blockReset := by
  simp only [State.surroundings, Prod.mk.injEq] at h
  obtain ⟨cfg, now, spd, delays, host⟩ := h
  exact {
    cfg := cfg.symm
    ph := rfl
    ovs0 := rfl
    ovs1 := rfl
    now := by simp only [State.blockReset_now, now, hf]
    tr := rfl
    stall := rfl
    spd := spd.symm
    delays := delays.symm
    host := host.symm
    freeIdx := congrArg (· + 2) hf
    d0 := fun hr => absurd hr (State.not_reached_of_index_zero rfl 0)
    d1 := fun hr => absurd hr (State.not_reached_of_index_zero rfl 1)
    rp := fun hr => absurd hr (State.not_reached_of_index_zero rfl 2)
    ctCode := fun hr => absurd hr (State.not_reached_of_index_zero rfl 6) }

/-- What an event does to the surroundings does not depend on the bits of CT it shows. -/
theorem State.replayEvent_surroundings {s s' : State} (h : s.surroundings = s'.surroundings) (e : Event) :
    (s.replayEvent e).surroundings = (s'.replayEvent e.maskCt).surroundings := by
  simp only [State.surroundings, Prod.mk.injEq] at h
  obtain ⟨cfg, now, spd, delays, host⟩ := h
  rcases e with ⟨dev, off, a⟩ | (v | v | v) | (v | v | v) | a | d | i <;>
    simp [State.replayEvent, Event.maskCt, State.surroundings, cfg, now, spd, delays, host]

theorem State.replay_maskCt_surroundings (es : List Event) : ∀ {s s' : State}, s.surroundings = s'.surroundings →
    (s.replay es).surroundings = (s'.replay (es.map Event.maskCt)).surroundings := by
  induction es with
  | nil => exact id
  | cons e es ih => exact fun h => ih (State.replayEvent_surroundings h e)

/-- Events that agree but for the bits of CT they show leave the same surroundings. -/
theorem State.replay_surroundings {s s' : State} (h : s.surroundings = s'.surroundings) {es es' : List Event}
    (he : es.map Event.maskCt = es'.map Event.maskCt) : (s.replay es).surroundings = (s'.replay es').surroundings :=
  calc (s.replay es).surroundings
    _ = (s'.replay (es.map Event.maskCt)).surroundings := State.replay_maskCt_surroundings es h
    _ = (s'.replay (es'.map Event.maskCt)).surroundings := by rw [he]
    _ = (s'.replay es').surroundings := (State.replay_maskCt_surroundings es' rfl).symm

/-- A reset within an operation finds the same surroundings in both states (R166). -/
theorem AgreeButDead.resetAfter {s s' t t' : State} (h : AgreeButDead s s') (ht : AgreeButDead t t') (k : Nat) :
    AgreeButDead (s.resetAfter k t) (s'.resetAfter k t') := by
  have length : s'.tr.length = s.tr.length := by simpa using congrArg List.length h.tr
  have events : ((t.tr.drop s.tr.length).take k).map Event.maskCt =
      ((t'.tr.drop s'.tr.length).take k).map Event.maskCt := by
    rw [length, List.map_take, List.map_drop, List.map_take, List.map_drop, ht.tr]
  exact agreeButDead_blockReset (by exact State.replay_surroundings h.surroundings events) ht.freeIdx

/-! ### One step -/

/-- Two results that agree: next states that agree, or one refusal. -/
inductive ResultsAgree : Result → Result → Prop where
  | next {t t' : State} (h : AgreeButDead t t') : ResultsAgree (.next t) (.next t')
  | refused (why : Refusal) : ResultsAgree (.refused why) (.refused why)

/-- An operation ends in a next state, but for an `ENCRP` without a nibble for one of its descriptors (U5). -/
theorem operationEnds_or_not_covered (s : State) (i : Instr) :
    (∃ t, OperationEnds s i t) ∨ i = .encrp ∧ ¬ (s.cfg.covers s.d0 ∧ s.cfg.covers s.d1) := by
  have command (x : AddrCommand) : ∃ t, OperationEnds s (.ofCommand x.toCommand) t := by
    by_cases hd : s.delays.grants
    · exact ⟨_, .command x hd⟩
    · exact ⟨_, .commandStuck x hd⟩
  cases i with
  | rddesc i cs =>
    by_cases hg : s.spd.grants (s.readCount i)
    · exact .inl ⟨_, .rddesc i cs hg⟩
    · obtain ⟨l, hl, hc⟩ := SpdSource.not_grants hg
      exact .inl ⟨_, .rddescStuck i cs l hl hc⟩
  | encrp =>
    by_cases hc : s.cfg.covers s.d0 ∧ s.cfg.covers s.d1
    · exact .inl ⟨_, .encrp hc.1 hc.2⟩
    · exact .inr ⟨rfl, hc⟩
  | encst => exact .inl ⟨_, .encst⟩
  | cmdNop => exact .inl (command .nop)
  | cmdPre => exact .inl (command .pre)
  | cmdRef => exact .inl (command .ref)
  | cmdMrs => exact .inl (command .mrs)
  | cmdNorm =>
    by_cases hd : s.delays.grants
    · exact .inl ⟨_, .norm hd⟩
    · exact .inl ⟨_, .normStuck hd⟩

open Classical in
/-- `ENCRP` is refused by the count of the first descriptor that has no nibble (R83, U5). -/
theorem execEncrp_refused_eq {s : State} (h : ¬ (s.cfg.covers s.d0 ∧ s.cfg.covers s.d1)) : execEncrp s =
    .refused (.densityNotInTable (clampDensity (if s.cfg.covers s.d0 then s.d1 else s.d0).density)) := by
  by_cases h0 : s.cfg.covers s.d0
  · have h1 : ¬ s.cfg.covers s.d1 := fun h1 => h ⟨h0, h1⟩
    rw [if_pos h0, execEncrp, encodeSocket_eq (i := .s0) h0]
    exact encodeSocket_refused (i := .s1) (by exact h1) _
  · rw [if_neg h0]
    exact encodeSocket_refused (i := .s0) h0 _

namespace AgreeButDead

section
variable {s s' : State} (h : AgreeButDead s s')
include h

/-- An operation of the run ends alike from both states. -/
theorem exec {n : Fin 18} (ha : s.cfg.Admitted) (hp : s.ph = .step n) :
    ResultsAgree (exec (seqRom n) s) (exec (seqRom n) s') := by
  rcases operationEnds_or_not_covered s (seqRom n) with ⟨t, he⟩ | ⟨hi, hc⟩
  · obtain ⟨t', he', ht⟩ := h.operation hp he
    rw [he.exec ha, he'.exec (h.cfg ▸ ha)]
    exact .next ht
  · obtain ⟨d0, d1⟩ := h.descriptors (by simp [Phase.reached, hp, seqRom_encrp n hi])
    have hc' : ¬ (s'.cfg.covers s'.d0 ∧ s'.cfg.covers s'.d1) := by rwa [h.cfg, d0, d1]
    have refusal : execEncrp s' = execEncrp s := by
      rw [execEncrp_refused_eq hc, execEncrp_refused_eq hc', h.cfg, d0, d1]
    obtain ⟨d, hd⟩ := execEncrp_refused hc
    rw [hi]
    change ResultsAgree (execEncrp s) (execEncrp s')
    rw [refusal, hd]
    exact .refused _

theorem pending : s'.pending = s.pending := by
  simp only [State.pending, State.fetch, h.stall, h.ph]

/-- The block's own turn ends alike. -/
theorem ownStep (ha : s.cfg.Admitted) : ResultsAgree (ownStep s) (ownStep s') := by
  rw [Machine.ownStep, Machine.ownStep, h.pending]
  cases hi : s.pending with
  | none => exact .next h
  | some i =>
    obtain ⟨n, hp, -, rfl⟩ := State.pending_eq_some hi
    exact h.exec ha hp

/-- A reset within an operation ends alike where the operation does. -/
theorem resetDuring {r r' : Result} (hr : ResultsAgree r r') (k : Nat) :
    ResultsAgree (resetDuring k s r) (resetDuring k s' r') := by
  cases hr with
  | next ht => exact .next (h.resetAfter ht k)
  | refused why => exact .refused why

/-- A reset within the block's own turn ends alike. -/
theorem cutStep (ha : s.cfg.Admitted) (k : Nat) : ResultsAgree (cutStep k s) (cutStep k s') := by
  rw [Machine.cutStep, Machine.cutStep, h.pending]
  cases hi : s.pending with
  | none => exact .next (agreeButDead_blockReset h.surroundings h.freeIdx)
  | some i =>
    obtain ⟨n, hp, -, rfl⟩ := State.pending_eq_some hi
    exact h.resetDuring (h.exec ha hp) k

/-- A step ends alike. -/
theorem step : ResultsAgree (step s) (step s') := by
  cases hv : s.cfg.violation with
  | some k =>
    have declined {u : State} (hu : u.cfg = s.cfg) : Machine.step u = .refused (.cfgNotAdmitted k) := by
      simp [Machine.step, State.turn, hu, hv]
    rw [declined rfl, declined h.cfg]
    exact .refused _
  | none =>
    have ha := (Cfg.violation_eq_none_iff_admitted _).mp hv
    rw [step_eq ha, step_eq (h.cfg ▸ ha), h.host]
    rcases s.host with _ | ⟨_ | _ | k | _, rest⟩
    · exact h.ownStep ha
    · exact .next (h.setHost rest).start
    · exact .next (agreeButDead_blockReset (h.setHost rest).surroundings h.freeIdx)
    · exact (h.setHost rest).cutStep ha k
    · exact (h.setHost rest).ownStep ha

end

end AgreeButDead

/-- Settles O53: states that agree but for dead registers step alike, and no step changes bits 4:0 of CT. -/
theorem deadRegistersNeverRead : Obligations.DeadRegistersNeverRead := by
  intro s s' h
  have hr := h.step
  refine ⟨fun t ht => ?next, fun r hs => ?refused⟩
  case next =>
    rw [ht] at hr
    cases hs' : step s' with
    | next t' =>
      rw [hs'] at hr
      cases hr with
      | next agree => exact ⟨t', rfl, agree, (step_interrupted ht).ctLow, (step_interrupted hs').ctLow⟩
    | fault f => cases f
    | refused r => rw [hs'] at hr; cases hr
  case refused =>
    rw [hs] at hr
    generalize step s' = r' at hr ⊢
    cases hr
    rfl

end Sys2Proof.Machine

/-! # The address spaces (20_memory R31 to R50)

The statements on a read of the SPD space that is never answered, and on the physical addresses a command is sent to. -/

namespace Sys2Proof.Machine

/-! ## The SPD space: a read that is never answered -/

/-- Settles O17: the reader is stuck where the list of answers ends, and the answered reads take their own time. -/
theorem rddescStuckWhenUnanswered : Obligations.RddescStuckWhenUnanswered := fun s _ cs l hs hshort =>
  ⟨s.now + elapsed s.freeIdx l.length, Nat.le_add_right .., execRddesc_stuck cs hs hshort⟩

end Sys2Proof.Machine

namespace Sys2Proof

open Sys2Proof.Machine

/-! ## The physical space: the addresses of the ranks -/

/-- A physical address that fits 32 bits is its base in bytes plus the offset, with no wrap (R62, R112). -/
theorem physAddr_toNat {base : Nat} {off : Addr} (h : base * 2 ^ 20 + off.toNat < 2 ^ 32) :
    (physAddr base off).toNat = base * 2 ^ 20 + off.toNat := by
  rw [physAddr, Config.megabyte, BitVec.toNat_add, BitVec.toNat_ofNat, Nat.mod_add_mod, Nat.mod_eq_of_lt h]

/-- A read of any width divides a megabyte, so a module's base is aligned to it (R39). -/
theorem ReadWidth.bytes_dvd_megabyte (w : ReadWidth) : w.bytes ∣ 2 ^ 20 := by
  cases w <;> decide

theorem ReadWidth.bytes_pos (w : ReadWidth) : 0 < w.bytes :=
  Nat.pos_of_dvd_of_pos w.bytes_dvd_megabyte (by decide)

theorem Cfg.offset_le_maxOffset (c : Cfg) (x : AddrCommand) (i : Socket) : (c.offset x i).toNat ≤ c.maxOffset := by
  cases x <;> cases i <;> simp [Cfg.offset, Cfg.maxOffset]

/-- The ranks of a region are at its start and, if there are two, the bank-0 size above it (R43, R58). -/
theorem Cfg.eq_of_mem_bases_region {c : Cfg} {n : Nibble} {start base : Nat}
    (h : base ∈ (c.region n).bases start) : base = start ∨ base = start + c.sizeBank0 n := by
  unfold Cfg.region at h
  split_ifs at h
  · cases h
  · exact .inl (List.mem_singleton.mp h)
  · simpa [Region.bases] using h

/-- A module starts at the total of some nibble: socket 0's at that of nibble 0, which is 0 (R8 item 3, R127). -/
theorem Cfg.Admitted.socketBase_eq_sizeTotal {c : Cfg} (ha : c.Admitted) (rp : Byte) (i : Socket) :
    ∃ n, c.socketBase rp i = c.sizeTotal n := by
  cases i with
  | s0 =>
    obtain ⟨total, -⟩ := ha.sizeSentinels
    exact ⟨0#4, total.symm⟩
  | s1 => exact ⟨nibbleOf rp .s0, rfl⟩

/-- The largest offset and a whole read fit above every populated rank's base: above the first rank's by the bound of R8
item 6 on totals, above the second's by the bound of R112 (log 24). -/
theorem Cfg.Admitted.rankBase_fits {c : Cfg} (ha : c.Admitted) {rp : Byte} {i : Socket} {base : Nat}
    (hb : base ∈ c.rankBases rp i) : base * 2 ^ 20 + c.maxOffset + c.readWidth.bytes ≤ 2 ^ 32 := by
  obtain ⟨n, start⟩ := ha.socketBase_eq_sizeTotal rp i
  obtain first | second := Cfg.eq_of_mem_bases_region hb
  · have fits := (ha.addressRange n 0#4).1
    rwa [ha.sizeSentinels.1, Nat.add_zero, ← start, ← first] at fits
  · have fits := ha.secondRankRange n (nibbleOf rp i)
    rwa [← start, ← second] at fits

/-- Settles O35: what is sent fits 32 bits, so it is the sum, and the read width divides a megabyte and every offset. -/
theorem commandAddressesExactAndAligned : Obligations.CommandAddressesExactAndAligned := by
  intro c rp x i ha base hb
  have fits : base * 2 ^ 20 + (c.offset x i).toNat + c.readWidth.bytes ≤ 2 ^ 32 :=
    le_trans (by gcongr; exact c.offset_le_maxOffset x i) (ha.rankBase_fits hb)
  have exact_sum : (physAddr base (c.offset x i)).toNat = base * 2 ^ 20 + (c.offset x i).toNat :=
    physAddr_toNat (lt_of_lt_of_le (Nat.lt_add_of_pos_right c.readWidth.bytes_pos) fits)
  have aligned : c.readWidth.bytes ∣ base * 2 ^ 20 + (c.offset x i).toNat :=
    Nat.dvd_add (c.readWidth.bytes_dvd_megabyte.mul_left base) (ha.offsetsAligned x i)
  rw [exact_sum]
  exact ⟨rfl, aligned, fits⟩

end Sys2Proof

/-! # The encodings (30_encoding R51 to R69)

The decoder and the encoder as inverses of each other, the operation a step executes, the offsets of the commands, the count
`ENCRP` has no nibble for, and the reserved nibble read back. -/

namespace Sys2Proof

open Sys2Proof.Machine

/-! ## The command codes (R60) -/

/-- Distinct codes tell the commands apart (R8 item 7). -/
theorem Cfg.code_injective {c : Cfg} (h : [c.codeNop, c.codePre, c.codeRef, c.codeMrs, c.codeNorm].Nodup) :
    Function.Injective c.code := by
  have all (x : Command) : x ∈ [Command.nop, .pre, .ref, .mrs, .norm] := by cases x <;> decide
  have nodup : ([Command.nop, .pre, .ref, .mrs, .norm].map c.code).Nodup := h
  exact fun x y => List.inj_on_of_nodup_map nodup (all x) (all y)

/-- A code selects a command only if it is that command's. -/
theorem Cfg.code_of_commandOf? {c : Cfg} {k : Code} {x : Command} (h : c.commandOf? k = some x) : c.code x = k := by
  simpa using List.find?_some h

/-- A code selects no command exactly where it is none of the five. -/
theorem Cfg.commandOf?_eq_none_iff {c : Cfg} {k : Code} : c.commandOf? k = none ↔ ∀ x, c.code x ≠ k := by
  simp only [Cfg.commandOf?, List.find?_eq_none, decide_eq_true_eq]
  exact ⟨fun h x => h x (by cases x <;> decide), fun h x _ => h x⟩

/-- Where the codes are distinct, a command's own code selects it. -/
theorem Cfg.commandOf?_code {c : Cfg} (h : Function.Injective c.code) (x : Command) :
    c.commandOf? (c.code x) = some x := by
  cases hy : c.commandOf? (c.code x) with
  | none => exact absurd rfl (Cfg.commandOf?_eq_none_iff.mp hy x)
  | some y => rw [h (Cfg.code_of_commandOf? hy)]

/-! ## The sequence ROM (R64) -/

theorem Instr.sequenceRom (i : Instr) : Laws.SequenceRom.Statement i := by
  cases i with
  | rddesc k cs => exact Laws.SequenceRom.rddesc k cs
  | encrp => exact Laws.SequenceRom.encrp
  | encst => exact Laws.SequenceRom.encst
  | cmdNop => exact Laws.SequenceRom.cmdNop
  | cmdPre => exact Laws.SequenceRom.cmdPre
  | cmdRef => exact Laws.SequenceRom.cmdRef
  | cmdMrs => exact Laws.SequenceRom.cmdMrs
  | cmdNorm => exact Laws.SequenceRom.cmdNorm

/-- The sequence ROM has a well-formed operation at its first step. -/
theorem seqRom_firstStep {i : Instr} (h : i.wellFormed = true) : seqRom i.firstStep = i := by
  rw [i.sequenceRom.2, Instr.firstStep]
  cases hs : i.steps with
  | nil => simp [Instr.wellFormed, hs] at h
  | cons p ps => exact List.mem_cons_self

/-! ## The two formats (R59, R63, R64) -/

/-- A step index decodes to the operation the sequence ROM has there; one above 17 does not decode. -/
theorem decodeSeq_eq_ok_iff {b : Byte} {i : Instr} :
    decodeSeq b = .ok i ↔ ∃ n : Fin 18, n.val = b.toNat ∧ seqRom n = i := by
  unfold decodeSeq
  split
  · next hb =>
    rw [Except.ok.injEq]
    exact ⟨fun h => ⟨⟨b.toNat, hb⟩, rfl, h⟩, fun ⟨n, hn, h⟩ => (Fin.ext hn : n = ⟨b.toNat, hb⟩) ▸ h⟩
  · next hb => exact iff_of_false nofun fun ⟨n, hn, _⟩ => hb (hn ▸ n.isLt)

@[simp] theorem decodeSeq_ofNat (n : Fin 18) : decodeSeq (BitVec.ofNat 8 n.val) = .ok (seqRom n) :=
  decodeSeq_eq_ok_iff.mpr ⟨n, (Nat.mod_eq_of_lt (by omega)).symm, rfl⟩

/-- The first byte decides what is decoded, and the others are left (R63). -/
theorem decode_seq_eq_ok_iff {c : Cfg} {b : Byte} {rest rest' : List Byte} {i : Instr} :
    decode c .seq (b :: rest) = .ok (i, rest') ↔ decodeSeq b = .ok i ∧ rest' = rest := by
  cases h : decodeSeq b <;> simp [decode, Except.map, h, eq_comm]

/-- A CT byte decodes to the operation whose command its code selects (R59, R60). -/
theorem decode_ct_eq_ok_iff {c : Cfg} {b : Byte} {rest rest' : List Byte} {i : Instr} :
    decode c .ct (b :: rest) = .ok (i, rest') ↔
      (∃ x, c.commandOf? (ctCode b) = some x ∧ i = .ofCommand x) ∧ rest' = rest := by
  cases h : c.commandOf? (ctCode b) <;> simp [decode, decodeCt, Except.map, h, eq_comm]

/-- An operation that sends a command is the one of that command (R63). -/
theorem Instr.eq_ofCommand {i : Instr} {x : Command} (h : i.command? = some x) : i = .ofCommand x := by
  cases i <;> cases h <;> rfl

theorem encode_ofCommand (c : Cfg) (low : CtLow) (x : Command) :
    encode c low (.ofCommand x) = [ctByte (c.code x) low] := by
  cases x <;> rfl

/-- An operation that sends no command is encoded by its first step (R64). -/
theorem encode_of_command?_eq_none {i : Instr} (h : i.command? = none) (c : Cfg) (low : CtLow) :
    encode c low i = [BitVec.ofNat 8 i.firstStep.val] := by
  simp [encode, h]

/-- Settles O1, format by format: the sequence ROM at an operation's first step, or the command its own code selects. -/
theorem decodeInvertsEncode : Obligations.DecodeInvertsEncode := by
  intro c low i rest distinct wf
  cases hc : i.command? with
  | none =>
    have format : i.format = .seq := by simp [Instr.format, hc]
    rw [format, encode_of_command?_eq_none hc, List.singleton_append, decode_seq_eq_ok_iff, decodeSeq_ofNat,
      seqRom_firstStep wf]
    exact ⟨rfl, rfl⟩
  | some x =>
    have format : i.format = .ct := by simp [Instr.format, hc]
    obtain rfl := Instr.eq_ofCommand hc
    rw [format, encode_ofCommand, List.singleton_append, decode_ct_eq_ok_iff, ctCode_ctByte]
    exact ⟨⟨x, Cfg.commandOf?_code (Cfg.code_injective distinct) x, rfl⟩, rfl⟩

/-- Settles O2: the code that selected the command is the command's own, and the byte is its two fields. -/
theorem encodeInvertsCtDecode : Obligations.EncodeInvertsCtDecode := by
  intro c b rest rest' i h
  obtain ⟨⟨x, hx, rfl⟩, hrest⟩ := decode_ct_eq_ok_iff.mp h
  rw [encode_ofCommand, Cfg.code_of_commandOf? hx, ctByte_ctCode_ctLow]
  exact ⟨rfl, hrest⟩

/-- Settles O3: the sequence ROM has an operation at exactly the steps its row lists. -/
theorem stepIndexDecodesByTable : Obligations.StepIndexDecodesByTable := by
  intro c b i
  rw [decode_seq_eq_ok_iff, decodeSeq_eq_ok_iff, and_iff_left rfl]
  simp only [i.sequenceRom.2, List.mem_map, and_comm]

/-- Settles O4: a code that is no command's selects none. -/
theorem otherCodesRefused : Obligations.OtherCodesRefused := by
  intro c b rest h
  simp [decode, decodeCt, Except.map, Cfg.commandOf?_eq_none_iff.mpr h]

/-- Settles O5, by the decoder at REF's codes. -/
theorem tableWordsDecode : Obligations.TableWordsDecode := by
  unfold Obligations.TableWordsDecode
  decide

/-! ## The operation a step executes (R64, R134) -/

/-- A table word that is a step index names the operation the sequence ROM has there (log 17). -/
theorem seqRom_of_decodeTableWord {nbits w : Nat} {i : Instr} (h : decodeTableWord nbits w = some i)
    (hf : tableFormat w = .seq) : ∃ n : Fin 18, n.val = w ∧ seqRom n = i := by
  have hw : w < 32 := by
    by_contra hw
    simp [tableFormat, hw] at hf
  unfold decodeTableWord at h
  rw [if_pos (by omega), hf] at h
  split at h
  · next j rest hd =>
    cases h
    obtain ⟨n, hn, hi⟩ := decodeSeq_eq_ok_iff.mp (decode_seq_eq_ok_iff.mp hd).1
    exact ⟨n, hn.trans (Nat.mod_eq_of_lt (by omega)), hi⟩
  · cases h

end Sys2Proof

namespace Sys2Proof.Machine

/-- With no host input to take, a step executes the pending operation (R134). -/
theorem step_of_pending {s : State} {i : Instr} (ha : s.cfg.Admitted) (hh : s.host = []) (hp : s.pending = some i) :
    step s = exec i s := by
  rw [step_eq ha, hh]
  simp only [ownStep, hp]

/-- A host that lets the block run makes it execute the pending operation (R134; log 14). -/
theorem step_of_pending_run {s : State} {i : Instr} {rest : List HostInput} (ha : s.cfg.Admitted)
    (hh : s.host = .run :: rest) (hp : s.pending = some i) : step s = exec i (s.setHost rest) := by
  rw [step_eq ha, hh]
  simp only [ownStep, State.setHost_pending, hp]

/-- Where a placed word stands: nothing is to come from the host, and its operation is pending (log 18). -/
theorem placeWord_pending {s : State} {nbits w : Nat} {i : Instr} (h : decodeTableWord nbits w = some i) :
    (placeWord s nbits w).cfg = s.cfg ∧ (placeWord s nbits w).host = [] ∧
      (placeWord s nbits w).pending = some i := by
  unfold placeWord
  rw [h]
  cases hf : tableFormat w with
  | seq =>
    obtain ⟨n, hn, hi⟩ := seqRom_of_decodeTableWord h hf
    have place : Fin.ofNat 18 w = n := Fin.ext (by simp [← hn])
    exact ⟨rfl, rfl, by rw [State.pending_step (n := n) (congrArg Phase.step place) rfl, hi]⟩
  | ct =>
    refine ⟨rfl, rfl, ?_⟩
    rw [State.pending_step (n := i.firstStep) rfl rfl, seqRom_firstStep i.sequenceRom.1]

/-- Settles O6: the placed word's operation is pending, so the next step executes it. -/
theorem withFetchWordPlacesOperation : Obligations.WithFetchWordPlacesOperation := by
  intro s w i ha h
  obtain ⟨cfg, host, pending⟩ := placeWord_pending (s := s) h
  exact step_of_pending (cfg ▸ ha) host pending

/-- Settles O7: the step index at PH decodes to the operation of the sequence ROM, which is the pending one. -/
theorem stepRunsDecodedOperation : Obligations.StepRunsDecodedOperation := by
  intro s n i ha hp hs hd
  have rom : seqRom n = i := by simpa [decode_seq_eq_ok_iff] using hd
  have pending : s.pending = some i := rom ▸ State.pending_step hp hs
  exact ⟨fun hh => step_of_pending ha hh pending, fun rest hh => step_of_pending_run ha hh pending⟩

/-! ## The offsets (R65, R66, R114) -/

/-- Settles O34: the masked bits are complemented by an exclusive or with the mask. -/
theorem offsetsByCommandAndSocket : Obligations.OffsetsByCommandAndSocket :=
  fun c _ => ⟨rfl, rfl, rfl, rfl, fun _ => BitVec.getLsbD_xor (x := c.mrsOff0) (y := c.mrsComplMask)⟩

/-! ## The counts with no nibble (R56, U5) -/

/-- Settles O20: `ENCRP` is refused where one of the two sockets is not covered. -/
theorem encrpRefusesInvalidCount : Obligations.EncrpRefusesInvalidCount := by
  intro s
  rw [exec_encrp_refused_iff, not_and_or]
  constructor
  · rintro ⟨i, hi⟩
    cases i with
    | s0 => exact .inl hi
    | s1 => exact .inr hi
  · exact fun h => h.elim (⟨.s0, ·⟩) (⟨.s1, ·⟩)

/-! ## The reserved nibble read back (R67, R124, R144, R147) -/

/-- The nibbles of two RP bytes denote the same sizes, socket by socket (R57). -/
def SameSizes (c : Cfg) (rp rp' : Byte) : Prop :=
  ∀ i, c.sizeTotal (nibbleOf rp' i) = c.sizeTotal (nibbleOf rp i) ∧
    c.sizeBank0 (nibbleOf rp' i) = c.sizeBank0 (nibbleOf rp i)

/-- Two traces differ in the values read from RP alone: the other events are the same, and there are as many in all. -/
def SameButRpReads (tr tr' : List Event) : Prop :=
  tr'.filter Event.notRpRead = tr.filter Event.notRpRead ∧ tr'.length = tr.length

theorem SameButRpReads.refl (tr : List Event) : SameButRpReads tr tr := ⟨rfl, rfl⟩

theorem SameButRpReads.append {a a' b b' : List Event} (h : SameButRpReads a a') (k : SameButRpReads b b') :
    SameButRpReads (a ++ b) (a' ++ b') := by
  simp only [SameButRpReads, List.filter_append, List.length_append, h.1, h.2, k.1, k.2, and_self]

@[simp] theorem nibbleOf_packRp_s0 (n0 n1 : Nibble) : nibbleOf (packRp n0 n1) .s0 = n0 := by
  revert n0 n1
  decide

@[simp] theorem nibbleOf_packRp_s1 (n0 n1 : Nibble) : nibbleOf (packRp n0 n1) .s1 = n1 := by
  revert n0 n1
  decide

/-- An admitted configuration gives the nibbles 2 and 0 the same sizes, no megabytes (R8 item 3). -/
theorem sameSizes_packRp {c : Cfg} (ha : c.Admitted) {n0 n0' n1 n1' : Nibble}
    (h0 : n0' = n0 ∨ n0 = 2#4 ∧ n0' = 0#4) (h1 : n1' = n1 ∨ n1 = 2#4 ∧ n1' = 0#4) :
    SameSizes c (packRp n0 n1) (packRp n0' n1') := by
  obtain ⟨total0, total2, bank0, bank2⟩ := ha.sizeSentinels
  have same {n n' : Nibble} (h : n' = n ∨ n = 2#4 ∧ n' = 0#4) :
      c.sizeTotal n' = c.sizeTotal n ∧ c.sizeBank0 n' = c.sizeBank0 n := by
    obtain rfl | ⟨rfl, rfl⟩ := h
    · exact ⟨rfl, rfl⟩
    · rw [total0, total2, bank0, bank2]
      exact ⟨rfl, rfl⟩
  intro i
  cases i with
  | s0 => simpa using same h0
  | s1 => simpa using same h1

section
variable {c : Cfg} {rp rp' : Byte} (same : SameSizes c rp rp')
include same

/-- The ranks a command is sent to are found by the sizes alone (R122, R124, R129). -/
theorem SameSizes.rankReads (x : AddrCommand) (i : Socket) : c.rankReads rp' x i = c.rankReads rp x i := by
  have base : c.socketBase rp' i = c.socketBase rp i := by
    cases i with
    | s0 => rfl
    | s1 => exact (same .s0).1
  simp only [Cfg.rankReads, Cfg.rankBases, Cfg.region, base, (same i).1, (same i).2]

/-- The events of a delivered command's actions depend on RP by its sizes, but for the values read from it (R111, R123). -/
theorem SameSizes.actionEvents (x : AddrCommand) (ct : Byte) :
    SameButRpReads (c.actionEvents x ct rp) (c.actionEvents x ct rp') := by
  simp [SameButRpReads, Cfg.actionEvents, List.filter_cons, Event.notRpRead, same.rankReads]

/-- What the actions make of a state depends on RP by its sizes, but for RP itself and those events (R111). -/
theorem SameSizes.commandActions {s : State} (hc : s.cfg = c) (hr : s.rp = rp) (x : AddrCommand) :
    commandActions { s with rp := rp' } x = { commandActions s x with
      rp := rp', tr := s.tr ++ s.cfg.actionEvents x s.ct rp' } := by
  subst hc hr
  simp only [Machine.commandActions, (same .s0).1, (same .s1).1, (same.actionEvents x s.ct).2]

end

/-- A delivered command that is stuck is stuck after its actions (R163). -/
theorem stuckCommand_eq (s : State) (x : AddrCommand) : stuckCommand s x = (commandActions s x).stallOn .wait := rfl

/-- A command from another RP byte of the same sizes ends as it did, but for RP itself and the values read from it; its
clock agrees too, since it makes as many accesses. -/
theorem OperationEnds.exchangeRp {s t : State} {i : Instr} (h : OperationEnds s i t) (hi : i.command? ≠ none) {rp : Byte}
    (same : SameSizes s.cfg s.rp rp) :
    ∃ tr, OperationEnds { s with rp := rp } i { t with rp := rp, tr := tr } ∧ SameButRpReads t.tr tr := by
  have acts (x : AddrCommand) : SameButRpReads (s.tr ++ s.cfg.actionEvents x s.ct s.rp)
      (s.tr ++ s.cfg.actionEvents x s.ct rp) := (SameButRpReads.refl s.tr).append (same.actionEvents x s.ct)
  cases h with
  | rddesc | rddescStuck | encrp | encst => exact absurd rfl hi
  | command x hd =>
    have ends := OperationEnds.command (s := { s with rp := rp }) x hd
    rw [afterCommand_eq, same.commandActions rfl rfl] at ends
    rw [afterCommand_eq]
    exact ⟨_, ends, (acts x).append (.refl _)⟩
  | commandStuck x hd =>
    have ends := OperationEnds.commandStuck (s := { s with rp := rp }) x hd
    rw [stuckCommand_eq, same.commandActions rfl rfl] at ends
    exact ⟨_, ends, acts x⟩
  | norm hd => exact ⟨_, .norm (s := { s with rp := rp }) hd, .refl _⟩
  | normStuck hd => exact ⟨_, .normStuck (s := { s with rp := rp }) hd, .refl _⟩

/-- An oversize flag is set by `ENCRP` alone (R18). -/
theorem OperationEnds.ovs_eq {s t : State} {i : Instr} (h : OperationEnds s i t) (hi : i ≠ .encrp) (j : Socket) :
    t.ovs j = s.ovs j :=
  not_imp_comm.mp (fun change => (h.encrp_of_ovs_ne change).1) hi

/-- Settles O37: nibbles 2 and 0 have the same sizes, and a command uses the sizes alone. -/
theorem reservedNibbleReadBackAsAbsent : Obligations.ReservedNibbleReadBackAsAbsent := by
  intro i hi s t n ha h rp hrp
  have command : i.command? ≠ none ∧ i ≠ .encrp := by
    simp only [List.mem_cons, List.not_mem_nil, or_false] at hi
    rcases hi with rfl | rfl | rfl | rfl | rfl <;> decide
  have same : SameSizes s.cfg s.rp rp := by
    obtain ⟨hs, rfl⟩ | ⟨hs, rfl⟩ | ⟨hs, rfl⟩ := hrp <;> rw [hs]
    · exact sameSizes_packRp ha (.inr ⟨rfl, rfl⟩) (.inl rfl)
    · exact sameSizes_packRp ha (.inl rfl) (.inr ⟨rfl, rfl⟩)
    · exact sameSizes_packRp ha (.inr ⟨rfl, rfl⟩) (.inr ⟨rfl, rfl⟩)
  have ends := exec_ends ha h
  obtain ⟨tr, ends', others, count⟩ := ends.exchangeRp command.1 same
  exact ⟨tr, t.now, ends'.exec ha, others, count, ends.ovs_eq command.2 .s0, ends.ovs_eq command.2 .s1⟩

end Sys2Proof.Machine

/-! # The descriptor reader (40_descriptor_reader R72 to R82)

The statements on one `RDDESC`: its reads, the descriptor it leaves and its two call sites; and the count of the events of a
run, of which the reads are the one part that is not fixed (44_top_sequence R142). -/

namespace Sys2Proof.Machine

/-! ## The reads of one `RDDESC` (R74, R81) -/

/-- An `RDDESC` makes one to three reads (R81). -/
theorem State.readCount_bounds (s : State) (i : Socket) : 1 ≤ s.readCount i ∧ s.readCount i ≤ 3 := by
  unfold State.readCount moduleReadCount
  split_ifs <;> omega

/-- Each read is one event (R11, R81). -/
@[simp] theorem State.length_readEvents (s : State) (i : Socket) (cs : CallSite) :
    (s.readEvents i cs).length = s.readCount i := by
  simpa [State.readEvents] using (s.readCount_bounds i).2

/-- A reader whose reads are answered makes of a state what `afterRddesc` says. -/
theorem eq_afterRddesc {s t : State} {i : Socket} {cs : CallSite} (h : exec (.rddesc i cs) s = .next t)
    (hg : s.spd.grants (s.readCount i)) : t = afterRddesc s i cs :=
  Host.Outcome.next.inj (h.symm.trans (execRddesc_eq cs hg))

/-- A reader appends its reads to the trace. -/
@[simp] theorem afterRddesc_tr (s : State) (i : Socket) (cs : CallSite) :
    (afterRddesc s i cs).tr = s.tr ++ s.readEvents i cs := by
  simp [afterRddesc]

/-- Settles O13: `afterRddesc` is what the answers make of the state, and the reads take their own time. -/
theorem rddescReadsModule : Obligations.RddescReadsModule := fun s i cs hg =>
  ⟨s.now + elapsed s.freeIdx (s.readCount i), Nat.le_add_right .., execRddesc_eq cs hg⟩

/-- Settles O16: the events are the reader's own, and each is a read of its device. -/
theorem rddescMakesOneToThreeReads : Obligations.RddescMakesOneToThreeReads := by
  intro s t i cs h hg
  obtain rfl := eq_afterRddesc h hg
  obtain ⟨pos, le⟩ := s.readCount_bounds i
  refine ⟨s.readEvents i cs, afterRddesc_tr s i cs, ?_, ?_, fun _ => State.mem_readEvents⟩
  · rwa [State.length_readEvents]
  · rwa [State.length_readEvents]

/-! ## The descriptor it leaves (R75 to R80) -/

/-- A reader leaves in its own register the descriptor the answers give. -/
@[simp] theorem afterRddesc_desc (s : State) (i : Socket) (cs : CallSite) : (afterRddesc s i cs).desc i =
    moduleDescriptor s.cfg cs (s.typeAnswer i) (s.densityAnswer i) (s.sidedAnswer i cs) := by
  simp [afterRddesc, State.setDesc_desc]

/-- Three answers of which none is FAIL or a foreign type give a present module (R76, R77). -/
theorem moduleDescriptor_found (c : Cfg) (cs : CallSite) (n b : Byte) :
    moduleDescriptor c cs (.byte c.typeSdram) (.byte n) (.byte b) =
      { present := true, dual := (sidedTest c cs).holds b, density := n } := by
  simp [moduleDescriptor]

/-- A present descriptor is not EMPTY, whatever its count (R80). -/
theorem Descriptor.ne_empty_of_present {d : Descriptor} (h : d.present = true) : d ≠ .empty := by
  rintro rfl
  cases h

/-- A meaningful descriptor is EMPTY or present (R15). -/
theorem Descriptor.wf_iff (d : Descriptor) : d.wf = true ↔ d = .empty ∨ d.present = true := by
  simp [Descriptor.wf, or_comm]

/-- The answers give EMPTY exactly when one that was read is FAIL or a foreign type (R79, R144). -/
theorem moduleDescriptor_eq_empty_iff (c : Cfg) (cs : CallSite) (typ density sided : SpdAnswer) :
    moduleDescriptor c cs typ density sided = .empty ↔ readCondition c typ density sided ≠ none := by
  by_cases htype : typ = .byte c.typeSdram
  · subst htype
    cases density with
    | fail => simp [moduleDescriptor, readCondition]
    | byte n =>
      cases sided with
      | fail => simp [moduleDescriptor, readCondition]
      | byte b => simp [moduleDescriptor_found, readCondition, Descriptor.ne_empty_of_present]
  · cases typ with
    | fail => simp [moduleDescriptor, readCondition]
    | byte t =>
      have foreign : t ≠ c.typeSdram := fun e => htype (congrArg _ e)
      simp [moduleDescriptor, readCondition, foreign]

/-- Settles O14: the fail-soft conditions are those under which the answers give EMPTY. -/
theorem rddescFailSoft : Obligations.RddescFailSoft := by
  intro s t i cs h hg
  obtain rfl := eq_afterRddesc h hg
  rw [afterRddesc_desc]
  refine ⟨(moduleDescriptor_eq_empty_iff ..).symm, fun dn b htype hdensity hsided => ?_⟩
  rw [htype, hdensity, hsided, moduleDescriptor_found]

/-- Settles O15: what the answers give is EMPTY or present, and a module that was found is present whatever its count. -/
theorem rddescKeepsDescriptorInvariant : Obligations.RddescKeepsDescriptorInvariant := by
  intro s t i cs h hg
  obtain rfl := eq_afterRddesc h hg
  rw [afterRddesc_desc]
  refine ⟨(Descriptor.wf_iff _).mp (moduleDescriptor_wf ..), fun b htype hdensity hsided => ?_⟩
  rw [htype, hdensity, hsided, moduleDescriptor_found]
  exact ⟨rfl, rfl, Descriptor.ne_empty_of_present rfl⟩

/-! ## The two call sites (R77, R78) -/

/-- Call sites with the same sidedness byte and the same test on it are the same operation, whether it completes or is stuck
(R73, R77, R78). -/
theorem exec_rddesc_congr {s : State} {i : Socket} {cs cs' : CallSite} (offset : sidedOffset s.cfg cs = sidedOffset s.cfg cs')
    (test : sidedTest s.cfg cs = sidedTest s.cfg cs') : exec (.rddesc i cs) s = exec (.rddesc i cs') s := by
  have sided : s.sidedAnswer i cs = s.sidedAnswer i cs' := by rw [State.sidedAnswer, offset, State.sidedAnswer]
  have events : s.readEvents i cs = s.readEvents i cs' := by rw [State.readEvents, offset, sided, State.readEvents]
  change execRddesc i cs s = execRddesc i cs' s
  by_cases hg : s.spd.grants (s.readCount i)
  · rw [execRddesc_eq cs hg, execRddesc_eq cs' hg]
    simp only [afterRddesc, moduleDescriptor, events, sided, test]
  · obtain ⟨l, hl, short⟩ := SpdSource.not_grants hg
    rw [execRddesc_stuck cs hl short, execRddesc_stuck cs' hl short, stuckRddesc, events, stuckRddesc]

/-- Settles O18: the default parameters give both call sites the same place and the same test. -/
theorem defaultSidednessMakesSitesEqual : Obligations.DefaultSidednessMakesSitesEqual :=
  fun _ _ offset test => exec_rddesc_congr offset test

end Sys2Proof.Machine

namespace Sys2Proof

/-! ## The events of a run by kind (R81, R142, R163) -/

/-- How many readers of R81 an operation is: one or none. -/
def Instr.readers : Instr → Nat
  | .rddesc _ _ => 1
  | .encrp | .encst | .cmdNop | .cmdPre | .cmdRef | .cmdMrs | .cmdNorm => 0

/-- How many writes of RP and of ST an operation makes (R90, R104). -/
def Instr.encoderWrites : Instr → Nat
  | .encrp | .encst => 1
  | .rddesc _ _ | .cmdNop | .cmdPre | .cmdRef | .cmdMrs | .cmdNorm => 0

@[simp] theorem Instr.readers_ofCommand (x : Command) : (Instr.ofCommand x).readers = 0 := by cases x <;> rfl

@[simp] theorem Instr.encoderWrites_ofCommand (x : Command) : (Instr.ofCommand x).encoderWrites = 0 := by cases x <;> rfl

end Sys2Proof

namespace Sys2Proof.Machine

/-- The readers done grow by the operation at PH where it is one (R64). -/
theorem Phase.readersDone_next (n : Fin 18) :
    (Phase.next (.step n)).readersDone = (Phase.step n).readersDone + (seqRom n).readers := by
  revert n
  decide

/-- How many writes of RP and of ST a run has made when PH has a value (R137). -/
def Phase.encoderWritesDone (p : Phase) : Nat := (if p.reached 3 then 1 else 0) + (if p.reached 6 then 1 else 0)

/-- The writes of RP and of ST done grow by those of the operation at PH (R64). -/
theorem Phase.encoderWritesDone_next (n : Fin 18) :
    (Phase.next (.step n)).encoderWritesDone = (Phase.step n).encoderWritesDone + (seqRom n).encoderWrites := by
  revert n
  decide

@[simp] theorem spdCount_regWrite (v : RegVal) : spdCount [.regWrite v] = 0 := rfl
@[simp] theorem spdCount_wait (d : Nat) : spdCount [.wait d] = 0 := rfl
@[simp] theorem spdCount_normEvents (c : Cfg) (ct : Byte) : spdCount (c.normEvents ct) = 0 := rfl
@[simp] theorem diagCount_regWrite (v : RegVal) : diagCount [.regWrite v] = 0 := rfl
@[simp] theorem diagCount_wait (d : Nat) : diagCount [.wait d] = 0 := rfl
@[simp] theorem diagCount_normEvents (c : Cfg) (ct : Byte) : diagCount (c.normEvents ct) = 0 := rfl

/-- A socket's turn of `ENCRP` emits one diagnostic at most (R86). -/
theorem length_oversizeEvents_le (i : Socket) (d : Descriptor) : (oversizeEvents i d).length ≤ 1 := by
  unfold oversizeEvents
  split <;> simp

/-- The reads an operation adds: one to three if it is a reader that completes, at most two if it is one that is stuck on a
read, and else none (R81, R163). -/
theorem OperationEnds.spdCount_bounds {s t : State} {i : Instr} (h : OperationEnds s i t) :
    t.ph = s.ph.next ∧ t.stall = s.stall ∧ spdCount s.tr + i.readers ≤ spdCount t.tr ∧
        spdCount t.tr ≤ spdCount s.tr + 3 * i.readers ∨
      t.ph = s.ph ∧ spdCount s.tr ≤ spdCount t.tr ∧
        spdCount t.tr ≤ spdCount s.tr + if t.stall = some .spdRead then 2 else 0 := by
  cases h with
  | rddesc j cs hg =>
    refine .inl ⟨by simp [afterRddesc], by simp [afterRddesc], ?_⟩
    simpa [(s.readEvents_allSpd j cs).spdCount, Instr.readers] using s.readCount_bounds j
  | rddescStuck j cs l hl short =>
    have le := (s.readCount_bounds j).2
    have added : spdCount ((s.readEvents j cs).take l.length) = l.length := by
      rw [((s.readEvents_allSpd j cs).take l.length).spdCount, List.length_take, State.length_readEvents,
        Nat.min_eq_left short.le]
    refine .inr ⟨rfl, ?_⟩
    simp only [stuckRddesc, spdCount_append, added, if_true]
    omega
  | encrp h0 h1 => exact .inl ⟨rfl, rfl, by simp [afterEncrp, Instr.readers]⟩
  | encst => exact .inl ⟨rfl, rfl, by simp [afterEncst, Instr.readers]⟩
  | command x hd => exact .inl ⟨rfl, rfl, by simp [afterCommand, Cfg.commandEvents]⟩
  | commandStuck x hd => exact .inr ⟨rfl, by simp [stuckCommand]⟩
  | norm hd => exact .inl ⟨rfl, rfl, by simp [afterNorm, Instr.readers]⟩
  | normStuck hd => exact .inr ⟨rfl, by simp [stuckNorm]⟩

/-- The diagnostics an operation adds: at most two if it is `ENCRP`, and else none (R86). -/
theorem OperationEnds.diagCount_le {s t : State} {i : Instr} (h : OperationEnds s i t) :
    diagCount t.tr ≤ diagCount s.tr + if i = .encrp then 2 else 0 := by
  cases h with
  | rddesc j cs hg => simp [(s.readEvents_allSpd j cs).diagCount]
  | rddescStuck j cs l hl short => simp [stuckRddesc, ((s.readEvents_allSpd j cs).take l.length).diagCount]
  | encrp h0 h1 =>
    have le0 := length_oversizeEvents_le .s0 s.d0
    have le1 := length_oversizeEvents_le .s1 s.d1
    simp only [afterEncrp, diagCount_append, diagCount_oversizeEvents, diagCount_regWrite, if_true]
    omega
  | encst => simp [afterEncst]
  | command x hd => simp [afterCommand, Cfg.commandEvents]
  | commandStuck x hd => simp [stuckCommand]
  | norm hd => simp [afterNorm]
  | normStuck hd => simp [stuckNorm]

/-- The events of a trace that are neither reads of the SPD space nor diagnostics. -/
def otherCount (tr : List Event) : Nat :=
  tr.countP fun e =>
    match e with
    | .spd _ _ _ | .diag _ => false
    | .regRead _ | .regWrite _ | .mem _ | .wait _ => true

/-- Every event is a read of the SPD space, a diagnostic or another one. -/
theorem length_eq_counts (tr : List Event) : tr.length = spdCount tr + diagCount tr + otherCount tr := by
  induction tr with
  | nil => rfl
  | cons e tr ih =>
    have one : spdCount [e] + diagCount [e] + otherCount [e] = 1 := by cases e <;> rfl
    have split : otherCount ([e] ++ tr) = otherCount [e] + otherCount tr := List.countP_append
    rw [← List.singleton_append, spdCount_append, diagCount_append, split, List.length_append, ih, List.length_singleton]
    omega

@[simp] theorem otherCount_append (a b : List Event) : otherCount (a ++ b) = otherCount a + otherCount b :=
  List.countP_append

theorem AllSpd.otherCount {es : List Event} (h : AllSpd es) : otherCount es = 0 := by
  have count := length_eq_counts es
  rw [h.spdCount, h.diagCount] at count
  omega

@[simp] theorem otherCount_oversizeEvents (i : Socket) (d : Descriptor) : otherCount (oversizeEvents i d) = 0 := by
  unfold oversizeEvents
  split <;> rfl

@[simp] theorem otherCount_regWrite (v : RegVal) : otherCount [.regWrite v] = 1 := rfl
@[simp] theorem otherCount_wait (d : Nat) : otherCount [.wait d] = 1 := rfl
@[simp] theorem otherCount_normEvents (c : Cfg) (ct : Byte) : otherCount (c.normEvents ct) = 2 := rfl

/-- R142 counts for a delivered command its actions and its delay. -/
theorem otherCount_actionEvents (c : Cfg) (x : AddrCommand) (ct rp : Byte) :
    otherCount (c.actionEvents x ct rp) + 1 = c.eventCount rp x.toCommand := by
  have count := length_eq_counts (c.actionEvents x ct rp)
  rw [spdCount_actionEvents, diagCount_actionEvents, Nat.zero_add] at count
  rw [← length_actionEvents c x ct, count]

/-- The events an operation adds beside its reads and its diagnostics: the encoders' writes, and what R142 counts for a
command but for the delay it is stuck on (R142, R163). -/
theorem OperationEnds.otherCount_eq {s t : State} {n : Fin 18} (hp : s.ph = .step n) (hs : s.stall = none)
    (h : OperationEnds s (seqRom n) t) :
    otherCount t.tr + t.stalledCommands.length = otherCount s.tr + (seqRom n).encoderWrites +
      ((seqRom n).command?.toList.map (s.cfg.eventCount s.rp)).sum := by
  have ended (u : State) (hu : u.stall = s.stall) : u.stalledCommands = [] := State.stalledCommands_none (hu.trans hs)
  have stuck (u : State) (hu : u.stall = some .wait) (ph : u.ph = s.ph) :
      u.stalledCommands = (seqRom n).command?.toList := State.stalledCommands_wait hu (ph.trans hp)
  generalize seqRom n = i at h stuck ⊢
  cases h with
  | rddesc j cs hg =>
    rw [ended (afterRddesc s j cs) (by simp [afterRddesc])]
    simp [(s.readEvents_allSpd j cs).otherCount, Instr.encoderWrites, Instr.command?]
  | rddescStuck j cs l hl short =>
    rw [State.stalledCommands_spdRead rfl]
    simp [stuckRddesc, ((s.readEvents_allSpd j cs).take l.length).otherCount, Instr.encoderWrites, Instr.command?]
  | encrp h0 h1 =>
    rw [ended (afterEncrp s) rfl]
    simp [afterEncrp, Instr.encoderWrites, Instr.command?]
  | encst =>
    rw [ended (afterEncst s) rfl]
    simp [afterEncst, Instr.encoderWrites, Instr.command?]
  | command x hd =>
    rw [ended (afterCommand s x) rfl]
    simp [afterCommand, Cfg.commandEvents, ← otherCount_actionEvents s.cfg x s.ct s.rp]
  | commandStuck x hd =>
    rw [stuck (stuckCommand s x) rfl rfl]
    simp [stuckCommand, ← otherCount_actionEvents s.cfg x s.ct s.rp, Nat.add_assoc]
  | norm hd =>
    rw [ended (afterNorm s) rfl]
    simp [afterNorm, Cfg.eventCount, Instr.encoderWrites, Instr.command?]
  | normStuck hd =>
    rw [stuck (stuckNorm s) rfl rfl]
    simp [stuckNorm, Cfg.eventCount, Instr.encoderWrites, Instr.command?]

/-- The events R142 counts for the commands sent grow by those of the operation at PH: RP is written before the first. -/
theorem OperationEnds.eventCount_commandsBegun {s t : State} {n : Fin 18} (hp : s.ph = .step n) (hs : s.stall = none)
    (h : OperationEnds s (seqRom n) t) :
    (t.commandsBegun.map (t.cfg.eventCount t.rp)).sum = (s.commandsBegun.map (s.cfg.eventCount s.rp)).sum +
      ((seqRom n).command?.toList.map (s.cfg.eventCount s.rp)).sum := by
  rw [h.commandsBegun hp hs, h.interrupted.cfg]
  by_cases hi : seqRom n = .encrp
  · rw [State.commandsBegun_before_encrp hp hs hi, hi]
    rfl
  · rw [h.rp_eq hi, List.map_append, List.sum_append]

/-- The encoders complete, so the writes of RP and of ST done grow by those of the operation at PH (R90, R104). -/
theorem OperationEnds.encoderWritesDone {s t : State} {n : Fin 18} (hp : s.ph = .step n)
    (h : OperationEnds s (seqRom n) t) :
    t.ph.encoderWritesDone = s.ph.encoderWritesDone + (seqRom n).encoderWrites := by
  rcases h.ph_stall with ⟨ph, -⟩ | ⟨ph, ⟨-, j, cs, hi⟩ | ⟨-, x, hi⟩⟩
  · rw [ph, hp, Phase.encoderWritesDone_next]
  · rw [ph, hi]
    rfl
  · rw [ph, Instr.eq_ofCommand hi, Instr.encoderWrites_ofCommand]
    rfl

/-- Each reader a run has done has added one to three reads, and one it is stuck in at most two (R81, R163). -/
def State.ReadBudget (s : State) : Prop :=
  s.ph.readersDone ≤ spdCount s.tr ∧
    spdCount s.tr ≤ 3 * s.ph.readersDone + (if s.stall = some .spdRead then 2 else 0)

/-- `ENCRP` emits at most two diagnostics, and nothing emits one before (R86). -/
def State.DiagBudget (s : State) : Prop := diagCount s.tr ≤ if s.ph.reached 3 then 2 else 0

/-- The other events are the writes of RP and ST and those of the commands, but for the delay of one that is stuck. -/
def State.OtherBudget (s : State) : Prop :=
  otherCount s.tr + s.stalledCommands.length =
    s.ph.encoderWritesDone + (s.commandsBegun.map (s.cfg.eventCount s.rp)).sum

/-- R142 bounds the reads and the diagnostics, and counts the rest. -/
theorem State.eventBudget_iff (s : State) : s.EventBudget ↔ s.ReadBudget ∧ s.DiagBudget ∧ s.OtherBudget := by
  have count := length_eq_counts s.tr
  simp only [State.EventBudget, State.ReadBudget, State.DiagBudget, State.OtherBudget, Phase.encoderWritesDone]
  omega

/-- An operation keeps the bounds on the reads. -/
theorem OperationEnds.readBudget {s t : State} {n : Fin 18} (hp : s.ph = .step n) (hs : s.stall = none)
    (h : OperationEnds s (seqRom n) t) (budget : s.ReadBudget) : t.ReadBudget := by
  obtain ⟨least, most⟩ := budget
  rw [hs, if_neg nofun, Nat.add_zero] at most
  rcases h.spdCount_bounds with ⟨ph, stall, more, le⟩ | ⟨ph, more, le⟩
  · rw [State.ReadBudget, ph, stall, hs, if_neg nofun, hp, Phase.readersDone_next, ← hp]
    omega
  · rw [State.ReadBudget, ph]
    omega

/-- An operation keeps the bound on the diagnostics: `ENCRP`, which emits them, takes PH to step 3. -/
theorem OperationEnds.diagBudget {s t : State} {n : Fin 18} (hp : s.ph = .step n) (h : OperationEnds s (seqRom n) t)
    (budget : s.DiagBudget) : t.DiagBudget := by
  have added := h.diagCount_le
  rw [State.DiagBudget] at budget ⊢
  by_cases hi : seqRom n = .encrp
  · have before : ¬ s.ph.reached 3 := by simp [Phase.reached, hp, seqRom_encrp n hi]
    rw [if_neg before] at budget
    rw [if_pos ((h.reached_three_iff hp).mpr (.inr hi))]
    rw [if_pos hi] at added
    omega
  · have same : t.ph.reached 3 ↔ s.ph.reached 3 := (h.reached_three_iff hp).trans (or_iff_left hi)
    simp only [if_neg hi] at added
    simp only [same]
    omega

/-- An operation keeps the count of the other events. -/
theorem OperationEnds.otherBudget {s t : State} {n : Fin 18} (hp : s.ph = .step n) (hs : s.stall = none)
    (h : OperationEnds s (seqRom n) t) (budget : s.OtherBudget) : t.OtherBudget := by
  have added := h.otherCount_eq hp hs
  rw [State.OtherBudget, State.stalledCommands_none hs, List.length_nil] at budget
  rw [State.OtherBudget, h.encoderWritesDone hp, h.eventCount_commandsBegun hp hs]
  omega

/-- Settles O46: an operation keeps the bounds on the reads and the diagnostics and the count of the other events, and START
and reset empty the trace. -/
theorem eventBudgetKept : Obligations.EventBudgetKept := by
  refine fun s t => step_keeps State.EventBudget (fun _ _ hs => hs)
    (fun _ _ _ => State.eventBudget_of_index_zero rfl rfl) (fun _ _ _ _ => State.eventBudget_of_index_zero rfl rfl)
    fun s t n _ hp hl hs h => ?_
  rw [State.eventBudget_iff] at hs ⊢
  obtain ⟨reads, diagnostics, others⟩ := hs
  exact ⟨h.readBudget hp hl reads, h.diagBudget hp diagnostics, h.otherBudget hp hl others⟩

end Sys2Proof.Machine

/-! # The Geometry Encoder (41_geometry_encoder R83 to R95)

The statements on `ENCRP`: what it makes of a state, the properties of the nibbles it writes, and what a run keeps of RP
and ST (44_top_sequence R137, R141). -/

namespace Sys2Proof

open Sys2Proof.Machine

/-! ## The nibbles of an admitted table (R8 items 1 and 5, R87, R88) -/

/-- A nibble of the table is between 1 and 13 (R87). -/
theorem Nibble.Encodable.bounds {n : Nibble} (h : n.Encodable) : 1 ≤ n.toNat ∧ n.toNat ≤ 13 := by
  obtain rfl | ⟨least, most⟩ := h
  · decide
  · exact ⟨le_trans (by decide) least, most⟩

theorem Nibble.Encodable.ne_absent {n : Nibble} (h : n.Encodable) : n ≠ 0#4 := by
  rintro rfl
  exact absurd h.bounds.1 (by decide)

theorem Nibble.Encodable.ne_reserved {n : Nibble} (h : n.Encodable) : n ≠ 2#4 := by
  rintro rfl
  exact absurd h (by unfold Nibble.Encodable; decide)

/-- The nibble of a dual-sided module does not wrap (R88, R93). -/
theorem Nibble.Encodable.toNat_add_two {n : Nibble} (h : n.Encodable) : (n + 2#4).toNat = n.toNat + 2 := by
  have most := h.bounds.2
  rw [BitVec.toNat_add, BitVec.toNat_ofNat]
  omega

/-- A dual-sided module's nibble is above 2, so it is neither an absent socket's nor the reserved one (R91, R94). -/
theorem Nibble.Encodable.two_lt_add_two {n : Nibble} (h : n.Encodable) : 2 < (n + 2#4).toNat := by
  have least := h.bounds.1
  rw [h.toNat_add_two]
  omega

/-- The nibble of a count of a covered module is one R8 item 1 admits. -/
theorem Cfg.Admitted.singleNibble_encodable {c : Cfg} (ha : c.Admitted) {d : Descriptor} (hc : c.covers d)
    (hp : d.present = true) : (c.singleNibble (clampDensity d.density)).Encodable :=
  Cfg.densityNibble_encodable ha (densityNibble_covered hc hp)

/-- A nibble the table of an admitted configuration gives has no bank-0 size (R8 item 5). -/
theorem Cfg.Admitted.densityNibble_singleSided {c : Cfg} (ha : c.Admitted) {k : Fin 33} {n : Nibble}
    (h : c.densityNibble? k = some n) : c.sizeBank0 n = 0 := by
  unfold Cfg.densityNibble? at h
  split at h
  case h_1 known =>
    cases h
    exact ha.sizeConsistency.2 _ _ known
  case h_2 =>
    cases h
    exact Cfg.openNibble_singleSided ha k
  case h_3 => cases h

/-! ## The nibble of a descriptor (R84, R91, R94) -/

/-- An absent socket contributes nibble 0 (R84). -/
theorem Cfg.encodedNibble_absent (c : Cfg) {d : Descriptor} (h : d.present = false) : c.encodedNibble d = 0#4 := by
  simp [Cfg.encodedNibble, h]

/-- A covered module is encoded neither as an absent socket nor by the reserved nibble. -/
theorem Cfg.Admitted.encodedNibble_present {c : Cfg} (ha : c.Admitted) {d : Descriptor} (hc : c.covers d)
    (hp : d.present = true) : c.encodedNibble d ≠ 0#4 ∧ c.encodedNibble d ≠ 2#4 := by
  have table := ha.singleNibble_encodable hc hp
  cases hd : d.dual with
  | false =>
    rw [c.encodedNibble_single hp hd]
    exact ⟨table.ne_absent, table.ne_reserved⟩
  | true =>
    rw [c.encodedNibble_dual hp hd]
    have above := table.two_lt_add_two
    exact ⟨fun e => absurd (e ▸ above) (by decide), fun e => absurd (e ▸ above) (by decide)⟩

/-- The reserved nibble encodes no descriptor (R94). -/
theorem Cfg.Admitted.encodedNibble_ne_reserved {c : Cfg} (ha : c.Admitted) {d : Descriptor} (hc : c.covers d) :
    c.encodedNibble d ≠ 2#4 := by
  cases hp : d.present with
  | false =>
    rw [c.encodedNibble_absent hp]
    decide
  | true => exact (ha.encodedNibble_present hc hp).2

/-- Settles O25: a table nibble has no bank-0 size, and the table nibble plus 2 has one by the premise. -/
theorem secondRankExactlyWhenDual : Obligations.SecondRankExactlyWhenDual := by
  intro c d ha hc hp second
  have table := densityNibble_covered hc hp
  cases hd : d.dual with
  | false => simp [c.encodedNibble_single hp hd, ha.densityNibble_singleSided table]
  | true => simpa [c.encodedNibble_dual hp hd] using second _ _ table

end Sys2Proof

namespace Sys2Proof.Machine

/-! ## What `ENCRP` makes of a state (R83) -/

/-- `ENCRP` completes exactly where the configuration has a nibble for both sockets, and `afterEncrp` is what it makes
of the state. -/
theorem exec_encrp_eq_next_iff {s t : State} :
    exec .encrp s = .next t ↔ (∀ i, s.cfg.covers (s.desc i)) ∧ t = afterEncrp s := by
  constructor
  · intro h
    obtain ⟨h0, h1⟩ := covers_of_execEncrp h
    refine ⟨fun i => ?_, Host.Outcome.next.inj (h.symm.trans (execEncrp_eq h0 h1))⟩
    cases i with
    | s0 => exact h0
    | s1 => exact h1
  · rintro ⟨hc, rfl⟩
    exact execEncrp_eq (hc .s0) (hc .s1)

/-- Each socket's nibble in RP is that of its descriptor (R89). -/
@[simp] theorem nibbleOf_afterEncrp_rp (s : State) (i : Socket) :
    nibbleOf (afterEncrp s).rp i = s.cfg.encodedNibble (s.desc i) := by
  cases i with
  | s0 => exact nibbleOf_packRp_s0 _ _
  | s1 => exact nibbleOf_packRp_s1 _ _

/-- Settles O19: `afterEncrp` is what the encoder makes of the state, and its primitives take their own time. -/
theorem encrpWritesRp : Obligations.EncrpWritesRp := fun _ h0 h1 =>
  ⟨_, Nat.le_add_right _ _, execEncrp_eq h0 h1⟩

/-! ## The nibbles it writes (R91, R93, R94) -/

/-- Settles O21: an absent socket's nibble is 0, and a module's is not. -/
theorem absencePurity : Obligations.AbsencePurity := by
  intro s t i ha h
  obtain ⟨hc, rfl⟩ := exec_encrp_eq_next_iff.mp h
  rw [nibbleOf_afterEncrp_rp]
  cases hp : (s.desc i).present with
  | false => simp [s.cfg.encodedNibble_absent hp]
  | true => simp [(ha.encodedNibble_present (hc i) hp).1]

/-- Settles O23: the two modules have one table nibble, and 2 more than it is no wrap. -/
theorem dualSidedOffsetLaw : Obligations.DualSidedOffsetLaw := by
  intro s t u i ha hp hsingle hdual
  obtain ⟨hc, rfl⟩ := exec_encrp_eq_next_iff.mp hsingle
  obtain ⟨-, rfl⟩ := exec_encrp_eq_next_iff.mp hdual
  have covered : s.cfg.covers { s.desc i with dual := false } := by simpa [State.setDesc_desc] using hc i
  have single := s.cfg.encodedNibble_single (d := { s.desc i with dual := false }) hp rfl
  have dual := s.cfg.encodedNibble_dual (d := { s.desc i with dual := true }) hp rfl
  simp only [nibbleOf_afterEncrp_rp, State.setDesc_cfg, State.setDesc_desc, if_true, single, dual]
  exact (ha.singleNibble_encodable covered hp).toNat_add_two

/-- Settles O24: a socket's nibble is 0, a table value or a table value plus 2, and none of these is 2. -/
theorem reservedNibbleNeverProduced : Obligations.ReservedNibbleNeverProduced := by
  intro s t i ha h
  obtain ⟨hc, rfl⟩ := exec_encrp_eq_next_iff.mp h
  rw [nibbleOf_afterEncrp_rp]
  refine ⟨ha.encodedNibble_ne_reserved (hc i), Cfg.encodedNibble_absent s.cfg, fun hp => ?_⟩
  have table := ha.singleNibble_encodable (hc i) hp
  refine ⟨_, densityNibble_covered (hc i) hp, table.ne_reserved, table.ne_absent, s.cfg.encodedNibble_single hp,
    fun hd => ?_⟩
  rw [s.cfg.encodedNibble_dual hp hd, table.toNat_add_two]

/-! ## The clamp (R85, R86, R92) -/

/-- A count above 32 is clamped as 32 is (R85). -/
theorem clampDensity_of_oversized {n : Byte} (h : 32 < n.toNat) : clampDensity n = clampDensity 32#8 :=
  Fin.ext (min_eq_right h.le)

/-- Encoding looks at the clamped count alone (R85, R87). -/
theorem encodedNibble_congr (c : Cfg) (d : Descriptor) {n : Byte} (h : clampDensity n = clampDensity d.density) :
    c.encodedNibble { d with density := n } = c.encodedNibble d := by
  simp only [Cfg.encodedNibble, h]

/-- So does the question whether the configuration has a nibble (U5). -/
theorem covers_congr (c : Cfg) (d : Descriptor) {n : Byte} (h : clampDensity n = clampDensity d.density) :
    c.covers { d with density := n } ↔ c.covers d := by
  simp only [Cfg.covers, h]

/-- Dropping a socket's diagnostics empties its own turn, and leaves the other's as it is (R86). -/
theorem filter_oversizeEvents (i j : Socket) (d : Descriptor) :
    (oversizeEvents j d).filter (· ≠ .diag i) = if j = i then [] else oversizeEvents j d := by
  unfold oversizeEvents
  by_cases hj : j = i <;> split <;> simp [hj]

/-- The events of `ENCRP`: the diagnostics in socket order, then the one write (R86, R90). -/
theorem afterEncrp_tr (s : State) : (afterEncrp s).tr = s.tr ++
    (oversizeEvents .s0 s.d0 ++ oversizeEvents .s1 s.d1 ++ [.regWrite (.rp (afterEncrp s).rp)]) := by
  simp [afterEncrp]

/-- `ENCRP` does not write the descriptors (R83). -/
theorem afterEncrp_desc (s : State) (j : Socket) : (afterEncrp s).desc j = s.desc j := by cases j <;> rfl

theorem State.setDesc_ovs (s : State) (i j : Socket) (d : Descriptor) : (s.setDesc i d).ovs j = s.ovs j := by
  cases i <;> cases j <;> rfl

section
variable {s : State} {i : Socket} {d : Descriptor} (nibble : s.cfg.encodedNibble d = s.cfg.encodedNibble (s.desc i))
include nibble

/-- A socket whose descriptor is replaced by one of the same nibble gets the same RP. -/
theorem afterEncrp_setDesc_rp : (afterEncrp (s.setDesc i d)).rp = (afterEncrp s).rp := by
  cases i with
  | s0 => exact congrArg (packRp · _) nibble
  | s1 => exact congrArg (packRp _) nibble

/-- Where the new descriptor is not oversized, the trace lacks that socket's diagnostic and nothing else. -/
theorem afterEncrp_setDesc_tr (fits : d.oversize = false) : (afterEncrp (s.setDesc i d)).tr =
    s.tr ++ ((afterEncrp s).tr.drop s.tr.length).filter (· ≠ .diag i) := by
  have silent : oversizeEvents i d = [] := by simp [oversizeEvents, fits]
  rw [afterEncrp_tr, afterEncrp_tr s, List.drop_left, afterEncrp_setDesc_rp nibble, List.filter_append,
    List.filter_append, filter_oversizeEvents, filter_oversizeEvents]
  cases i <;> simp [silent]

end

/-- Settles O22: a count above 32 is clamped to 32, and a count of 32 is not oversized. -/
theorem clampIdempotence : Obligations.ClampIdempotence := by
  intro s t i large h
  obtain ⟨hc, rfl⟩ := exec_encrp_eq_next_iff.mp h
  have clamp := (clampDensity_of_oversized large).symm
  have nibble := encodedNibble_congr s.cfg (s.desc i) clamp
  have fits : ({ s.desc i with density := 32#8 } : Descriptor).oversize = false := Bool.and_false _
  refine ⟨_, exec_encrp_eq_next_iff.mpr ⟨fun j => ?covers, rfl⟩, afterEncrp_setDesc_rp nibble,
    afterEncrp_setDesc_tr nibble fits, ?flag, fun j hj => ?other, ?frame⟩
  case covers =>
    rw [State.setDesc_cfg, State.setDesc_desc]
    split
    · exact (covers_congr s.cfg (s.desc i) clamp).mpr (hc i)
    · exact hc j
  case flag => rw [afterEncrp_ovs, State.setDesc_ovs, State.setDesc_desc, if_pos rfl, fits, Bool.or_false]
  case other =>
    simp only [afterEncrp_ovs, afterEncrp_desc, State.setDesc_ovs, State.setDesc_desc, if_neg hj, and_self]
  case frame => simp [afterEncrp]

/-! ## What a run keeps of RP and ST (R90, R94, R104, R137, R141) -/

@[simp] theorem stWrites_rp (v : Byte) : stWrites [.regWrite (.rp v)] = [] := rfl
@[simp] theorem stWrites_st (v : Word16) : stWrites [.regWrite (.st v)] = [v] := rfl
@[simp] theorem stWrites_wait (d : Nat) : stWrites [.wait d] = [] := rfl
@[simp] theorem stWrites_commandEvents (c : Cfg) (x : AddrCommand) (ct rp : Byte) :
    stWrites (c.commandEvents x ct rp) = [] := by simp [Cfg.commandEvents]
@[simp] theorem stWrites_normEvents (c : Cfg) (ct : Byte) : stWrites (c.normEvents ct) = [] := rfl

/-- `ENCST` writes ST once, with the word ST then holds, and no other operation writes it (R104). -/
theorem OperationEnds.stWrites_eq {s t : State} {i : Instr} (h : OperationEnds s i t) :
    stWrites t.tr = stWrites s.tr ++ if i = .encst then [t.st] else [] := by
  have command (x : Command) : Instr.ofCommand x ≠ .encst := by cases x <;> exact nofun
  cases h with
  | rddesc k cs hg => simp [(s.readEvents_allSpd k cs).stWrites]
  | rddescStuck k cs l hl hc => simp [stuckRddesc, ((s.readEvents_allSpd k cs).take l.length).stWrites]
  | encrp h0 h1 => simp [afterEncrp]
  | encst => simp [afterEncst]
  | command x hd => simp [afterCommand, command]
  | commandStuck x hd => simp [stuckCommand, command]
  | norm hd => simp [afterNorm]
  | normStuck hd => simp [stuckNorm]

/-- An operation at another step leaves PH on its side of the end of step `k` (R14). -/
theorem OperationEnds.reached_succ_iff {s t : State} {n : Fin 18} {i : Instr} {k : Nat} (hp : s.ph = .step n)
    (h : OperationEnds s i t) (hk : n.val ≠ k) : t.ph.reached (k + 1) ↔ s.ph.reached (k + 1) := by
  rcases h.ph_stall with ⟨ph, -⟩ | ⟨ph, -⟩
  · simp only [Phase.reached, ph, hp, Phase.index_next_step, Phase.index_step]
    omega
  · rw [ph]

/-- An operation keeps that ST was written once, with the word it holds, from step 6 on (R104, R137). -/
theorem OperationEnds.stWrites_kept {s t : State} {n : Fin 18} (ha : s.cfg.Admitted) (hp : s.ph = .step n)
    (h : OperationEnds s (seqRom n) t) (hs : stWrites s.tr = if s.ph.reached 6 then [s.st] else []) :
    stWrites t.tr = if t.ph.reached 6 then [t.st] else [] := by
  rw [h.stWrites_eq, hs]
  by_cases hi : seqRom n = .encst
  · have step5 := seqRom_encst n hi
    have before : ¬ s.ph.reached 6 := by simp [Phase.reached, hp, step5]
    have after : t.ph.reached 6 := by
      rw [hi] at h
      obtain rfl : afterEncst s = t := Host.Outcome.next.inj (h.exec ha)
      simp [Phase.reached, afterEncst, hp, step5]
    rw [if_neg before, if_pos hi, if_pos after]
    rfl
  · have step : n.val ≠ 5 := fun e => hi (by rw [show n = 5 from Fin.ext e]; rfl)
    simp only [if_neg hi, h.st_eq hi, h.reached_succ_iff hp step, List.append_nil]

/-- A run has written each register once, with the value it holds, from its own step on, and not before. -/
theorem State.encoderLog_iff (s : State) : s.EncoderLog ↔
    (rpWrites s.tr = if s.ph.reached 3 then [s.rp] else []) ∧
      stWrites s.tr = if s.ph.reached 6 then [s.st] else [] := by
  rw [State.EncoderLog]
  split <;> split <;> simp_all

/-- Settles O42: each operation keeps the writes of RP and of ST in step with PH. -/
theorem encoderLogKept : Obligations.EncoderLogKept := by
  refine fun s t => step_keeps State.EncoderLog (fun _ _ hs => hs)
    (fun _ _ _ => State.encoderLog_of_index_zero rfl rfl) (fun _ _ _ _ => State.encoderLog_of_index_zero rfl rfl)
    fun s t n ha hp _ hs h => ?_
  rw [State.encoderLog_iff] at hs ⊢
  obtain ⟨rp, st⟩ := hs
  exact ⟨h.rpWrites_kept hp rp, h.stWrites_kept ha hp st⟩

/-- An operation keeps RP free of the reserved nibble: `ENCRP` does not write it, and nothing else writes RP. -/
theorem OperationEnds.geometryLegal {s t : State} {n : Fin 18} (ha : s.cfg.Admitted) (hp : s.ph = .step n)
    (h : OperationEnds s (seqRom n) t) (hs : s.GeometryLegal) : t.GeometryLegal := by
  intro reached i
  by_cases hi : seqRom n = .encrp
  · rw [hi] at h
    obtain ⟨hc, rfl⟩ := exec_encrp_eq_next_iff.mp (h.exec ha)
    rw [nibbleOf_afterEncrp_rp]
    exact ha.encodedNibble_ne_reserved (hc i)
  · rw [h.rp_eq hi]
    exact hs (((h.reached_three_iff hp).mp reached).resolve_right hi) i

/-- Settles O44: RP is written by `ENCRP` alone, which never produces the reserved nibble. -/
theorem geometryLegalKept : Obligations.GeometryLegalKept :=
  fun _ _ => step_keeps State.GeometryLegal (fun _ _ hs => hs)
    (fun _ _ _ => State.geometryLegal_of_index_zero rfl) (fun _ _ _ _ => State.geometryLegal_of_index_zero rfl)
    fun _ _ _ ha hp _ hs h => h.geometryLegal ha hp hs

end Sys2Proof.Machine

/-! # The strength encoder (42_strength_encoder R96 to R108)

The six flags and the class of a socket determine each other, the given bits of the word by class pair, and `ENCST`. -/

namespace Sys2Proof.Machine

/-! ## The flags and the classes (R12, R97) -/

/-- The class of a socket is read off its two sidedness flags. -/
theorem Descriptor.socketClass_eq_of_flags (d : Descriptor) :
    d.socketClass = if d.ds then .dual else if d.ss then .single else .absent := by
  obtain ⟨present, dual, density⟩ := d
  cases present <;> cases dual <;> rfl

theorem Descriptor.ds_eq (d : Descriptor) : d.ds = decide (d.socketClass = .dual) := by
  obtain ⟨present, dual, density⟩ := d
  cases present <;> cases dual <;> rfl

theorem Descriptor.ss_eq (d : Descriptor) : d.ss = decide (d.socketClass = .single) := by
  obtain ⟨present, dual, density⟩ := d
  cases present <;> cases dual <;> rfl

theorem Descriptor.size_eq (d : Descriptor) : d.size = decide (d.socketClass ≠ .absent) := by
  obtain ⟨present, dual, density⟩ := d
  cases present <;> cases dual <;> rfl

/-- Sockets with the same flags have the same class. -/
theorem Descriptor.socketClass_congr {d d' : Descriptor} (ds : d.ds = d'.ds) (ss : d.ss = d'.ss) :
    d.socketClass = d'.socketClass := by
  rw [d.socketClass_eq_of_flags, d'.socketClass_eq_of_flags, ds, ss]

end Sys2Proof.Machine

namespace Sys2Proof

open Sys2Proof.Machine

/-! ## The word of a class pair (R99 to R101) -/

/-- Settles O27: the source gives these three words whole, and no open bit enters them. -/
theorem strengthWordsGiven : Obligations.StrengthWordsGiven := fun _ => ⟨rfl, rfl, rfl⟩

/-- Bit 0 is set for two modules of which one at least is dual-sided (R100). -/
theorem Cfg.strength_getLsbD_zero (c : Cfg) (a b : SocketClass) : (c.strength a b).getLsbD 0 =
    (a = .dual && b = .dual || a = .dual && b = .single || a = .single && b = .dual) := by
  obtain ⟨absent, dual, single⟩ := strengthWordsGiven c
  cases a <;> cases b
  case absent.absent => rw [absent]; decide
  case dual.absent => rw [dual]; decide
  case single.single => rw [single]; decide
  case absent.single | absent.dual | single.absent | single.dual | dual.single | dual.dual =>
    exact BitVec.getLsbD_append.trans rfl

/-- Bits 9:8 of a word divided as R101 divides it. -/
theorem extractLsb'_bits9_8_append (high : BitVec 6) (mid : BitVec 2) (low : BitVec 7) (bit0 : BitVec 1) :
    (high ++ mid ++ low ++ bit0).extractLsb' 8 2 = mid := by
  rw [BitVec.extractLsb'_append_eq_of_le (by decide), BitVec.extractLsb'_append_eq_of_le (by decide)]
  exact BitVec.extractLsb'_append_eq_right

/-- Bits 9:8 are both set for a module in socket 0 alone (R101). -/
theorem Cfg.strength_bits9_8_absent (c : Cfg) {a : SocketClass} (ha : a ≠ .absent) :
    (c.strength a .absent).extractLsb' 8 2 = 3#2 := by
  obtain ⟨-, dual, -⟩ := strengthWordsGiven c
  cases a with
  | absent => exact absurd rfl ha
  | single => exact extractLsb'_bits9_8_append _ _ _ _
  | dual => rw [dual]; decide

end Sys2Proof

namespace Sys2Proof.Machine

/-- Settles O28: the flags say which class pair it is, and the table has the given bits at each pair. -/
theorem strengthFixedBits : Obligations.StrengthFixedBits := by
  intro c a b
  obtain ⟨absent, -, single⟩ := strengthWordsGiven c
  refine ⟨?bit0, fun ha hb => ?bits9_8, by rw [absent]; decide, by rw [single]; decide⟩
  case bit0 => rw [a.ds_eq, a.ss_eq, b.ds_eq, b.ss_eq, c.strength_getLsbD_zero]
  case bits9_8 =>
    rw [a.size_eq, decide_eq_true_eq] at ha
    rw [b.size_eq, decide_eq_false_iff_not, not_not] at hb
    rw [hb]
    exact c.strength_bits9_8_absent ha

/-! ## `ENCST` (R96, R98, R104, R107) -/

/-- `ENCST` completes in every state. -/
theorem exec_encst (s : State) : exec .encst s = .next (afterEncst s) := rfl

/-- The word depends on the configuration and on the sockets' flags alone (R98). -/
theorem strengthWord_congr {s s' : State} (cfg : s.cfg = s'.cfg)
    (flags : ∀ i, (s.desc i).ds = (s'.desc i).ds ∧ (s.desc i).ss = (s'.desc i).ss) :
    strengthWord s = strengthWord s' := by
  have same (i : Socket) : (s.desc i).socketClass = (s'.desc i).socketClass :=
    Descriptor.socketClass_congr (flags i).1 (flags i).2
  have d0 : s.d0.socketClass = s'.d0.socketClass := same .s0
  have d1 : s.d1.socketClass = s'.d1.socketClass := same .s1
  rw [strengthWord, strengthWord, cfg, d0, d1]

/-- Settles O29: what `ENCST` leaves in ST is the word, which the flags determine. -/
theorem strengthDependsOnFlagsOnly : Obligations.StrengthDependsOnFlagsOnly := by
  intro s t s' t' cfg flags h h'
  obtain rfl : afterEncst s = t := Host.Outcome.next.inj h
  obtain rfl : afterEncst s' = t' := Host.Outcome.next.inj h'
  exact strengthWord_congr cfg fun i => (flags i).2

/-- Settles O26: `afterEncst` is what the encoder makes of the state, and its one write takes its own time. -/
theorem encstWritesSt : Obligations.EncstWritesSt := fun s =>
  ⟨_, Nat.le_add_right _ _, exec_encst s⟩

end Sys2Proof.Machine

/-! # The command sequencer (43_command_sequencer R109 to R132)

What the commands of a run leave in the trace: their writes of CT, their PHYS reads and their delays; how each command ends,
by its `Wait`; the running base; and a run from step 0 to DONE. -/

namespace Sys2Proof.Machine

/-! ## The writes of CT (R110, R126) -/

@[simp] theorem ctWrites_rp (v : Byte) : ctWrites [.regWrite (.rp v)] = [] := rfl
@[simp] theorem ctWrites_st (v : Word16) : ctWrites [.regWrite (.st v)] = [] := rfl
@[simp] theorem ctWrites_wait (d : Nat) : ctWrites [.wait d] = [] := rfl
@[simp] theorem ctWrites_normEvents (c : Cfg) (ct : Byte) :
    ctWrites (c.normEvents ct) = [ctByte c.codeNorm (ctLow ct)] := rfl

/-- A command writes CT once, its code above the preserved bits, and no other operation writes it (R110). -/
theorem OperationEnds.ctWrites_eq {s t : State} {i : Instr} (h : OperationEnds s i t) :
    ctWrites t.tr = ctWrites s.tr ++ i.command?.toList.map fun x => ctByte (s.cfg.code x) (ctLow s.ct) := by
  cases h with
  | rddesc j cs hg => simp [(s.readEvents_allSpd j cs).ctWrites, Instr.command?]
  | rddescStuck j cs l hl hc => simp [stuckRddesc, ((s.readEvents_allSpd j cs).take l.length).ctWrites, Instr.command?]
  | encrp h0 h1 => simp [afterEncrp, Instr.command?]
  | encst => simp [afterEncst, Instr.command?]
  | command x hd => simp [afterCommand, Cfg.commandEvents]
  | commandStuck x hd => simp [stuckCommand]
  | norm hd => simp [afterNorm, Instr.command?, Cfg.code]
  | normStuck hd => simp [stuckNorm, Instr.command?, Cfg.code]

/-- Settles O38: an operation adds the write of its own command, and keeps the preserved bits of CT and the codes. -/
theorem commandLogKept : Obligations.CommandLogKept := by
  refine fun s t => step_keeps State.CommandLog (fun _ _ hs => hs)
    (fun _ _ _ => State.commandLog_of_index_zero rfl rfl) (fun _ _ _ _ => State.commandLog_of_index_zero rfl rfl)
    fun s t n _ hp hl hs h => ?_
  rw [State.CommandLog] at hs ⊢
  rw [h.ctWrites_eq, hs, h.commandsBegun hp hl, List.map_append, h.interrupted.cfg, h.interrupted.ctLow]

/-! ## The acts of a command and its delay (R109, R113, R128) -/

@[simp] theorem commandActs_rp (v : Byte) : commandActs [.regWrite (.rp v)] = [] := rfl
@[simp] theorem commandActs_st (v : Word16) : commandActs [.regWrite (.st v)] = [] := rfl
@[simp] theorem commandActs_wait (d : Nat) : commandActs [.wait d] = [.hold d] := rfl
@[simp] theorem waits_regWrite (v : RegVal) : waits [.regWrite v] = [] := rfl
@[simp] theorem waits_wait (d : Nat) : waits [.wait d] = [d] := rfl
@[simp] theorem waits_normEvents (c : Cfg) (ct : Byte) : waits (c.normEvents ct) = [] := rfl

/-- Normal operation reads and writes CT and makes no PHYS read, whatever RP says (R119). -/
theorem commandActs_normEvents (c : Cfg) (ct rp : Byte) :
    commandActs (c.normEvents ct) = c.actsOf (ctLow ct) rp .norm := rfl

end Sys2Proof.Machine

namespace Sys2Proof

open Sys2Proof.Machine

/-- What a command that completes does: the acts it is sent by, then its own delay (R109). -/
def Cfg.actsAndDelay (c : Cfg) (low : CtLow) (rp : Byte) (x : Command) : List CommandAct :=
  c.actsOf low rp x ++ [.hold (c.delay x)]

end Sys2Proof

namespace Sys2Proof.Machine

/-- An operation that completes adds the acts and the delay of its command; one that is stuck adds the acts alone
(R109, R163). -/
theorem OperationEnds.acts_and_waits {s t : State} {i : Instr} (h : OperationEnds s i t) :
    t.ph = s.ph.next ∧ t.stall = s.stall ∧
        commandActs t.tr = commandActs s.tr ++ i.command?.toList.flatMap (s.cfg.actsAndDelay (ctLow s.ct) s.rp) ∧
        waits t.tr = waits s.tr ++ i.command?.toList.map s.cfg.delay ∨
      t.ph = s.ph ∧ (t.stall = some .spdRead ∧ i.command? = none ∨ t.stall = some .wait) ∧
        commandActs t.tr = commandActs s.tr ++ i.command?.toList.flatMap (s.cfg.actsOf (ctLow s.ct) s.rp) ∧
        waits t.tr = waits s.tr := by
  cases h with
  | rddesc j cs hg =>
    have reads := s.readEvents_allSpd j cs
    exact .inl ⟨by simp [afterRddesc], by simp [afterRddesc], by simp [reads.commandActs, Instr.command?],
      by simp [reads.waits, Instr.command?]⟩
  | rddescStuck j cs l hl hc =>
    have reads := (s.readEvents_allSpd j cs).take l.length
    exact .inr ⟨rfl, .inl ⟨rfl, rfl⟩, by simp [stuckRddesc, reads.commandActs, Instr.command?],
      by simp [stuckRddesc, reads.waits]⟩
  | encrp h0 h1 => exact .inl ⟨rfl, rfl, by simp [afterEncrp, Instr.command?], by simp [afterEncrp, Instr.command?]⟩
  | encst => exact .inl ⟨rfl, rfl, by simp [afterEncst, Instr.command?], by simp [afterEncst, Instr.command?]⟩
  | command x hd =>
    exact .inl ⟨rfl, rfl, by simp [afterCommand, Cfg.commandEvents, Cfg.actsAndDelay],
      by simp [afterCommand, Cfg.commandEvents]⟩
  | commandStuck x hd => exact .inr ⟨rfl, .inr rfl, by simp [stuckCommand], by simp [stuckCommand]⟩
  | norm hd =>
    have acts := commandActs_normEvents s.cfg s.ct s.rp
    exact .inl ⟨rfl, rfl, by simp [afterNorm, Instr.command?, Cfg.actsAndDelay, Cfg.delay, acts],
      by simp [afterNorm, Instr.command?, Cfg.delay]⟩
  | normStuck hd =>
    have acts := commandActs_normEvents s.cfg s.ct s.rp
    exact .inr ⟨rfl, .inr rfl, by simp [stuckNorm, Instr.command?, acts], by simp [stuckNorm]⟩

/-- The operation that is stuck is the one whose command the block is stuck in (R163). -/
theorem State.stalledCommands_eq {s : State} {n : Fin 18} (hp : s.ph = .step n)
    (hs : s.stall = some .spdRead ∧ (seqRom n).command? = none ∨ s.stall = some .wait) :
    s.stalledCommands = (seqRom n).command?.toList := by
  obtain ⟨read, none⟩ | wait := hs
  · rw [State.stalledCommands_spdRead read, none]
    rfl
  · exact State.stalledCommands_wait wait hp

/-- RP is written before the first command is sent, so every command is sent as RP still says (R137). -/
theorem OperationEnds.rp_eq_or_commandsBegun_eq_nil {s t : State} {n : Fin 18} (hp : s.ph = .step n)
    (hs : s.stall = none) (h : OperationEnds s (seqRom n) t) : t.rp = s.rp ∨ t.commandsBegun = [] := by
  by_cases hi : seqRom n = .encrp
  · rw [h.commandsBegun hp hs, State.commandsBegun_before_encrp hp hs hi, hi]
    exact .inr rfl
  · exact .inl (h.rp_eq hi)

/-- An operation keeps the log of acts and delays, told by the CT and the RP that stood before it: one that completes adds
its command to those done, and one that is stuck makes it the command the block is stuck in. -/
theorem OperationEnds.waitLog_before {s t : State} {n : Fin 18} (hp : s.ph = .step n) (hl : s.stall = none)
    (h : OperationEnds s (seqRom n) t) (hs : s.WaitLog) :
    commandActs t.tr = t.ph.commandsDone.flatMap (s.cfg.actsAndDelay (ctLow s.ct) s.rp) ++
        t.stalledCommands.flatMap (s.cfg.actsOf (ctLow s.ct) s.rp) ∧
      waits t.tr = t.ph.commandsDone.map s.cfg.delay := by
  obtain ⟨acts, delays⟩ := hs
  rw [State.stalledCommands_none hl, List.flatMap_nil, List.append_nil, hp] at acts
  rw [hp] at delays
  rcases h.acts_and_waits with ⟨ph, stall, acts', delays'⟩ | ⟨ph, stall, acts', delays'⟩ <;> rw [hp] at ph
  · rw [acts', acts, delays', delays, State.stalledCommands_none (stall.trans hl), ph, Phase.commandsDone_next,
      List.flatMap_append, List.map_append, List.flatMap_nil, List.append_nil]
    exact ⟨rfl, rfl⟩
  · rw [acts', acts, delays', delays, State.stalledCommands_eq ph stall, ph]
    exact ⟨rfl, rfl⟩

/-- Settles O39: an operation keeps the log, and RP, CT and the configuration say after it what they said before. -/
theorem waitLogKept : Obligations.WaitLogKept := by
  refine fun s t => step_keeps State.WaitLog (fun _ _ hs => hs)
    (fun _ _ _ => State.waitLog_of_index_zero rfl rfl) (fun _ _ _ _ => State.waitLog_of_index_zero rfl rfl)
    fun s t n _ hp hl hs h => ?_
  have kept := h.waitLog_before hp hl hs
  rw [← h.interrupted.cfg, ← h.interrupted.ctLow] at kept
  obtain same | none := h.rp_eq_or_commandsBegun_eq_nil hp hl
  · rwa [← same] at kept
  · obtain ⟨done, stuck⟩ := List.append_eq_nil_iff.mp none
    rw [State.WaitLog, done, stuck]
    rwa [done, stuck] at kept

/-! ## The PHYS reads (R111, R112, R129) -/

/-- A longer trace shows the PHYS reads of both its parts, those of the second by the code that stands at its start. -/
theorem sentFrom_append (tr : List Event) : ∀ code, ∃ code', ∀ es,
    sentFrom code (tr ++ es) = sentFrom code tr ++ sentFrom code' es := by
  induction tr with
  | nil => exact fun code => ⟨code, fun _ => rfl⟩
  | cons e tr ih =>
    intro code
    rcases e with ⟨dev, off, a⟩ | v | (v | v | v) | a | d | i
    case regWrite.ct => exact ih (some (ctCode v))
    case mem =>
      obtain ⟨code', h⟩ := ih code
      exact ⟨code', fun es => congrArg ((code, a) :: ·) (h es)⟩
    all_goals exact ih code

/-- Reads of PHYS alone are made by one code. -/
theorem sentFrom_mem (code : Option Code) (l : List Addr) (es : List Event) :
    sentFrom code (l.map .mem ++ es) = l.map (code, ·) ++ sentFrom code es := by
  induction l with
  | nil => rfl
  | cons a l ih => exact congrArg ((code, a) :: ·) ih

/-- Events without a PHYS read show none. -/
theorem sentFrom_eq_nil : ∀ {es : List Event} (_ : ∀ a, .mem a ∉ es) (code : Option Code), sentFrom code es = []
  | [], _, _ => rfl
  | e :: es, h, code => by
    have rest (code : Option Code) := sentFrom_eq_nil (es := es) (fun a ha => h a (List.mem_cons_of_mem _ ha)) code
    rcases e with ⟨dev, off, a⟩ | v | (v | v | v) | a | d | i
    case mem => exact absurd List.mem_cons_self (h a)
    all_goals exact rest _

/-- A reader makes no PHYS read. -/
theorem AllSpd.sentFrom {es : List Event} (h : AllSpd es) (code : Option Code) : sentFrom code es = [] :=
  sentFrom_eq_nil (fun a ha => by obtain ⟨dev, off, b, e⟩ := h _ ha; cases e) code

/-- A delivered command is sent to the ranks of socket 0, then to those of socket 1 (R111). -/
theorem commandReads_toCommand (c : Cfg) (rp : Byte) (x : AddrCommand) :
    c.commandReads rp x.toCommand = c.rankReads rp x .s0 ++ c.rankReads rp x .s1 := by
  cases x <;> rfl

/-- A delivered command reads the populated ranks under its own code, whatever code stood in CT before (R110, R129). -/
theorem sentFrom_actionEvents (c : Cfg) (x : AddrCommand) (ct rp : Byte) (es : List Event) (code : Option Code) :
    sentFrom code (c.actionEvents x ct rp ++ es) =
      c.sentBy rp x.toCommand ++ sentFrom (some (c.code x.toCommand)) es := by
  simp only [Cfg.actionEvents, List.append_assoc, List.cons_append, List.nil_append, sentFrom, sentFrom_mem,
    ctCode_ctByte, Cfg.sentBy, commandReads_toCommand, List.map_append]

/-- The PHYS reads an operation adds are those of its command, under its own code (R119, R129). -/
theorem OperationEnds.reads {s t : State} {i : Instr} (h : OperationEnds s i t) : ∃ es, t.tr = s.tr ++ es ∧
    ∀ code, sentFrom code es = i.command?.toList.flatMap (s.cfg.sentBy s.rp) := by
  cases h with
  | rddesc j cs hg => exact ⟨_, afterRddesc_tr s j cs, (s.readEvents_allSpd j cs).sentFrom⟩
  | rddescStuck j cs l hl hc => exact ⟨_, rfl, ((s.readEvents_allSpd j cs).take l.length).sentFrom⟩
  | encrp h0 h1 =>
    exact ⟨_, by simp only [afterEncrp, List.append_assoc]; rfl, sentFrom_eq_nil fun a => by simp [oversizeEvents]⟩
  | encst => exact ⟨_, rfl, fun _ => rfl⟩
  | command x hd => exact ⟨_, rfl, fun code => by simp [Cfg.commandEvents, sentFrom_actionEvents, sentFrom]⟩
  | commandStuck x hd =>
    exact ⟨_, rfl, fun code => by simpa [sentFrom] using sentFrom_actionEvents s.cfg x s.ct s.rp [] code⟩
  | norm hd => exact ⟨_, List.append_assoc .., fun _ => rfl⟩
  | normStuck hd => exact ⟨_, rfl, fun _ => rfl⟩

/-- Settles O40: an operation adds the reads of its own command, and RP and the configuration say after it what they said
before. -/
theorem readLogKept : Obligations.ReadLogKept := by
  refine fun s t => step_keeps State.ReadLog (fun _ _ hs => hs)
    (fun _ _ _ => State.readLog_of_index_zero rfl rfl) (fun _ _ _ _ => State.readLog_of_index_zero rfl rfl)
    fun s t n _ hp hl hs h => ?_
  obtain ⟨es, tr, reads⟩ := h.reads
  obtain ⟨code, longer⟩ := sentFrom_append s.tr none
  have kept : sentFrom none t.tr = t.commandsBegun.flatMap (s.cfg.sentBy s.rp) := by
    rw [tr, longer, reads, h.commandsBegun hp hl, List.flatMap_append, hs]
  rw [← h.interrupted.cfg] at kept
  obtain same | none := h.rp_eq_or_commandsBegun_eq_nil hp hl
  · rwa [← same] at kept
  · rw [State.ReadLog, none]
    rwa [none] at kept

/-! ## How a command ends (R109 to R124, R163) -/

/-- The four delivered commands of the operations that send them (R115 to R118). -/
theorem eq_ofCommand_of_mem {p : Instr × AddrCommand}
    (h : p ∈ [(Instr.cmdNop, AddrCommand.nop), (.cmdPre, .pre), (.cmdRef, .ref), (.cmdMrs, .mrs)]) :
    p.1 = .ofCommand p.2.toCommand := by
  simp only [List.mem_cons, List.not_mem_nil, or_false] at h
  rcases h with rfl | rfl | rfl | rfl <;> rfl

/-- Settles O31: `afterCommand` is what the command makes of the state, and its clock counts the accesses and the `Wait`. -/
theorem deliveredCommandsComplete : Obligations.DeliveredCommandsComplete := by
  intro p hp s ha hd
  refine ⟨(afterCommand s p.2).now, ?clock, ?ends⟩
  case clock =>
    simp only [afterCommand]
    omega
  case ends =>
    rw [eq_ofCommand_of_mem hp]
    exact (OperationEnds.command p.2 hd).exec ha

/-- Settles O32: `afterNorm` is what the command makes of the state, and its clock counts the accesses and the `Wait`. -/
theorem normalCommandCompletes : Obligations.NormalCommandCompletes := by
  intro s hd
  refine ⟨(afterNorm s).now, ?clock, execCmdNorm_eq hd⟩
  simp only [afterNorm]
  omega

/-- Settles O33: `stuckCommand` and `stuckNorm` are what such a command makes of the state. -/
theorem commandsStuckWhenWaitNeverEnds : Obligations.CommandsStuckWhenWaitNeverEnds := by
  constructor
  · intro p hp s ha hd
    refine ⟨(stuckCommand s p.2).now, Nat.le_add_right .., ?_⟩
    rw [eq_ofCommand_of_mem hp]
    exact (OperationEnds.commandStuck p.2 hd).exec ha
  · exact fun s hd => ⟨(stuckNorm s).now, Nat.le_add_right .., execCmdNorm_stuck hd⟩

/-! ## The running base (R121, R127) -/

/-- Settles O36: each turn adds the span of its socket, and the sum of two fits DIMM_START and 32 bits of bytes. -/
theorem runningBaseIsSumOfSpans : Obligations.RunningBaseIsSumOfSpans := by
  intro s x ha
  have first : (deliverSocket x .s0 (s.setDimmStart 0#16)).dimmStart.toNat = s.cfg.sizeTotal (nibbleOf s.rp .s0) := by
    simp [deliverSocket_eq, -BitVec.toNat_ofNat, sizeTotal_toNat ha]
  have both : (deliver x s).dimmStart.toNat =
      s.cfg.sizeTotal (nibbleOf s.rp .s0) + s.cfg.sizeTotal (nibbleOf s.rp .s1) := by
    rw [deliver_eq ha]
    exact (BitVec.toNat_ofNat ..).trans (Nat.mod_eq_of_lt (ha.addressRange _ _).2)
  have bytes : (physAddr (s.cfg.sizeTotal (nibbleOf s.rp .s0)) 0#32).toNat =
      s.cfg.sizeTotal (nibbleOf s.rp .s0) * 2 ^ 20 := by
    have fits := (ha.addressRange (nibbleOf s.rp .s0) (nibbleOf s.rp .s1)).1
    have positive := s.cfg.readWidth.bytes_pos
    rw [physAddr_toNat] <;> simp only [BitVec.toNat_ofNat] <;> omega
  rw [first, both]
  exact ⟨rfl, rfl, Nat.le_add_right _ _, bytes⟩

/-! ## A run to DONE (R128, R134, R141) -/

/-- A delay service that ends `k + 1` `Wait`s ends the next one, and `k` after it. -/
theorem DelaySource.grantsAll_succ {src : DelaySource} {k : Nat} (h : src.grantsAll (k + 1)) :
    src.grants ∧ src.after.grantsAll k := by
  rcases src with _ | _ | ⟨o, l⟩
  · exact ⟨trivial, trivial⟩
  · exact absurd h (Nat.not_succ_le_zero k)
  · exact ⟨List.cons_ne_nil o l, Nat.le_of_succ_le_succ h⟩

/-- Three reads are enough for a reader, so three granted beside `m` others leave those (R81). -/
theorem State.grants_readCount {s : State} {m : Nat} (h : s.spd.grants (m + 3)) (i : Socket) :
    s.spd.grants (s.readCount i) ∧ (s.spd.after (s.readCount i)).grants m := by
  have most := (s.readCount_bounds i).2
  exact ⟨SpdSource.grants_mono h (by omega), SpdSource.grants_after (SpdSource.grants_mono h (by omega))⟩

/-- From `s` to `t` an operation has completed: it moved PH, its own delay has passed, and the provider grants `m` more
reads and the delay service `k` more `Wait`s. -/
structure Completed (i : Instr) (m k : Nat) (s t : State) : Prop where
  ph : t.ph = s.ph.next
  stall : t.stall = s.stall
  host : t.host = s.host
  spd : t.spd.grants m
  delays : t.delays.grantsAll k
  now : s.now + (i.command?.toList.map s.cfg.delay).sum ≤ t.now

/-- An operation completes where its reads are answered and its `Wait` ends (R141, R163). -/
theorem OperationEnds.completed {s t : State} {i : Instr} {m k : Nat} (h : OperationEnds s i t)
    (hs : s.spd.grants (m + 3 * i.readers)) (hd : s.delays.grantsAll (k + i.command?.toList.length)) :
    Completed i m k s t := by
  cases h with
  | rddesc j cs hg =>
    exact { ph := by simp [afterRddesc], stall := by simp [afterRddesc], host := by simp [afterRddesc],
            spd := by simpa [afterRddesc] using (State.grants_readCount hs j).2,
            delays := by simpa [afterRddesc, Instr.command?] using hd,
            now := by simp [afterRddesc, Instr.command?] }
  | rddescStuck j cs l hl short =>
    have granted := (State.grants_readCount hs j).1
    rw [hl] at granted
    exact absurd granted (Nat.not_le_of_lt short)
  | encrp h0 h1 => exact ⟨rfl, rfl, rfl, hs, hd, Nat.le_add_right ..⟩
  | encst => exact ⟨rfl, rfl, rfl, hs, hd, Nat.le_add_right ..⟩
  | command x ends =>
    rw [Instr.readers_ofCommand] at hs
    rw [Instr.command?_ofCommand] at hd
    refine ⟨rfl, rfl, rfl, hs, (DelaySource.grantsAll_succ hd).2, ?_⟩
    simp only [afterCommand, Instr.command?_ofCommand, Option.toList_some, List.map_singleton, List.sum_singleton]
    omega
  | commandStuck x stuck =>
    rw [Instr.command?_ofCommand] at hd
    exact absurd (DelaySource.grantsAll_succ hd).1 stuck
  | norm ends =>
    refine ⟨rfl, rfl, rfl, hs, (DelaySource.grantsAll_succ hd).2, ?_⟩
    simp only [afterNorm, Instr.command?, Option.toList_some, List.map_singleton, List.sum_singleton, Cfg.delay]
    omega
  | normStuck stuck => exact absurd (DelaySource.grantsAll_succ hd).1 stuck

/-- A run from `s` that has come to `u` without a stop: the delays of the commands done have passed, and what is left of the
twelve reads and the twelve `Wait`s is still granted. -/
structure OnCourse (s u : State) : Prop where
  cfg : u.cfg = s.cfg
  running : u.ph ≠ .idle
  stall : u.stall = none
  host : u.host = []
  spd : u.spd.grants (12 - 3 * u.ph.readersDone)
  delays : u.delays.grantsAll (12 - u.ph.commandsDone.length)
  now : s.now + (u.ph.commandsDone.map s.cfg.delay).sum ≤ u.now

/-- A run has four readers and twelve commands (R64, R126). -/
theorem Phase.readers_and_commands_next_le (n : Fin 18) :
    (Phase.next (.step n)).readersDone ≤ 4 ∧ (Phase.next (.step n)).commandsDone.length ≤ 12 := by
  revert n
  decide

section
variable {s u : State} {n : Fin 18} (h : OnCourse s u) (hp : u.ph = .step n)
include h hp

/-- What is granted to a run on course is enough for its next operation, and leaves enough for those after it. -/
theorem OnCourse.completed {t : State} (ends : OperationEnds u (seqRom n) t) :
    Completed (seqRom n) (12 - 3 * t.ph.readersDone) (12 - t.ph.commandsDone.length) u t := by
  obtain ⟨readers_le, commands_le⟩ := Phase.readers_and_commands_next_le n
  have readers := Phase.readersDone_next n
  have commands := congrArg List.length (Phase.commandsDone_next n)
  rw [List.length_append] at commands
  have reads : 12 - 3 * u.ph.readersDone = 12 - 3 * (Phase.next (.step n)).readersDone + 3 * (seqRom n).readers := by
    rw [hp]
    omega
  have waits : 12 - u.ph.commandsDone.length =
      12 - (Phase.next (.step n)).commandsDone.length + (seqRom n).command?.toList.length := by
    rw [hp]
    omega
  have done := ends.completed (reads ▸ h.spd) (waits ▸ h.delays)
  have ph : t.ph = Phase.next (.step n) := hp ▸ done.ph
  rwa [ph]

/-- The next operation keeps a run on course. -/
theorem OnCourse.next {t : State} (ends : OperationEnds u (seqRom n) t) : OnCourse s t := by
  have done := h.completed hp ends
  refine ⟨ends.interrupted.cfg.trans h.cfg, ends.ph_ne_idle hp, done.stall.trans h.stall, done.host.trans h.host,
    done.spd, done.delays, ?_⟩
  have before := h.now
  have elapsed := done.now
  rw [h.cfg] at elapsed
  rw [done.ph, hp, Phase.commandsDone_next, List.map_append, List.sum_append, ← hp]
  omega

/-- A run on course makes its next step, where the configuration has a nibble for every count (R134, U5). -/
theorem OnCourse.step (ha : s.cfg.Admitted) (hc : ∀ d, s.cfg.densityEntry d ≠ .invalid) :
    ∃ t, step u = .next t ∧ t.ph = u.ph.next ∧ OnCourse s t := by
  have admitted : u.cfg.Admitted := h.cfg ▸ ha
  have covers (d : Descriptor) : u.cfg.covers d := fun _ => h.cfg ▸ hc _
  obtain ⟨t, ends⟩ := (operationEnds_or_not_covered u (seqRom n)).resolve_right fun hn => hn.2 ⟨covers _, covers _⟩
  refine ⟨t, ?_, (h.completed hp ends).ph, h.next hp ends⟩
  rw [step_of_pending admitted h.host (State.pending_step hp h.stall)]
  exact ends.exec admitted

end

/-- A run that does not stop at once is its first step and the run from there. -/
theorem run_succ {M : Host.Core} {s t : M.State} {k : Nat} (h : M.step s = .next t) : M.run (k + 1) s = M.run k t := by
  simp only [Host.Core.run, h]

/-- A run on course comes to DONE in as many steps as it has operations left (R138). -/
theorem OnCourse.run {s : State} (ha : s.cfg.Admitted) (hc : ∀ d, s.cfg.densityEntry d ≠ .invalid) (k : Nat) :
    ∀ {u : State}, OnCourse s u → u.ph.index + k = 18 →
      ∃ t, Sys2Proof.core.run k u = .next t ∧ t.ph = .done ∧ OnCourse s t := by
  induction k with
  | zero =>
    intro u h left
    refine ⟨u, rfl, ?_, h⟩
    cases hp : u.ph with
    | idle => exact absurd hp h.running
    | step n =>
      rw [hp, Phase.index_step] at left
      omega
    | done => rfl
  | succ k ih =>
    intro u h left
    cases hp : u.ph with
    | idle => exact absurd hp h.running
    | step n =>
      obtain ⟨t, one, ph, course⟩ := h.step hp ha hc
      have fewer : t.ph.index + k = 18 := by
        rw [hp, Phase.index_step] at left
        rw [ph, hp, Phase.index_next_step]
        omega
      obtain ⟨v, rest, done⟩ := ih course fewer
      exact ⟨v, (run_succ (M := core) one).trans rest, done⟩
    | done =>
      rw [hp, Phase.index_done] at left
      omega

/-- The delays of a run's twelve commands (R128). -/
theorem Cfg.sum_delay_runCommands (c : Cfg) : (runCommands.map c.delay).sum =
    c.delayNop + c.delayPre + 8 * c.delayRef + c.delayMrs + c.delayNorm := by
  simp only [runCommands, Config.nRefresh, Cfg.delay, List.map_append, List.map_cons, List.map_nil, List.map_replicate,
    List.sum_append, List.sum_cons, List.sum_nil, List.sum_replicate, smul_eq_mul]
  omega

/-- Settles O54: a run at step 0 is on course, and each step keeps it so. -/
theorem runReachesDone : Obligations.RunReachesDone := by
  intro s ha hh hp hl hs hd hc
  have course : OnCourse s s := by
    refine ⟨rfl, by simp [hp], hl, hh, ?_, ?_, ?_⟩ <;> rw [hp]
    · exact hs
    · exact hd
    · exact Nat.le_refl _
  obtain ⟨t, run, done, arrived⟩ := OnCourse.run ha hc 18 course (by rw [hp]; rfl)
  have elapsed := arrived.now
  rw [done, Phase.commandsDone, Cfg.sum_delay_runCommands] at elapsed
  exact ⟨t, run, done, by omega⟩

end Sys2Proof.Machine

/-! # The top sequence (44_top_sequence R133 to R142)

START, and what moves a block that is stuck. -/

namespace Sys2Proof.Machine

/-! ## A block with no operation to go on with (R138, R163) -/

/-- A stuck block has no operation to go on with (R163). -/
theorem State.pending_of_stuck {s : State} (h : s.stall ≠ none) : s.pending = none := by
  obtain ⟨why, hs⟩ := Option.ne_none_iff_exists'.mp h
  rw [State.pending, hs]

/-- With nothing pending the block's own turn is a rest. -/
theorem ownStep_of_not_pending {s : State} (h : s.pending = none) : ownStep s = .next s := by
  rw [ownStep, h]

/-- With nothing pending a reset within an operation is one where the block stands (R166). -/
theorem cutStep_of_not_pending {s : State} (h : s.pending = none) (k : Nat) : cutStep k s = .next s.blockReset := by
  rw [cutStep, h]

/-- With nothing pending both resets clear the block where it stands (R166). -/
theorem step_reset_of_not_pending {s : State} {rest : List HostInput} (ha : s.cfg.Admitted) (h : s.pending = none)
    (hh : s.host = .reset :: rest ∨ ∃ k, s.host = .resetWithin k :: rest) :
    step s = .next (s.setHost rest).blockReset := by
  rw [step_eq ha]
  obtain hh | ⟨k, hh⟩ := hh <;> rw [hh]
  exact cutStep_of_not_pending (s := s.setHost rest) h k

/-! ## START, and the block when it is stuck (R133, R163, R166) -/

/-- Settles O9: the input is taken, and `State.start` says what START does. -/
theorem startHonouredOnlyInIdle : Obligations.StartHonouredOnlyInIdle := by
  intro s rest ha hh
  rw [step_eq ha, hh]
  constructor
  · intro idle
    exact congrArg Host.Outcome.next ((s.setHost rest).start_idle idle)
  · intro elsewhere
    exact congrArg Host.Outcome.next ((s.setHost rest).start_ignored elsewhere)

/-- Settles O56: nothing is pending, so the block rests and both resets clear it where it stands; PH is not IDLE, so START
is ignored. -/
theorem stuckBlockWaitsForReset : Obligations.StuckBlockWaitsForReset := by
  intro s n ha hp stuck
  have pending : s.pending = none := State.pending_of_stuck stuck
  have running : s.ph ≠ .idle := by simp [hp]
  constructor
  · intro hh
    rw [step_eq ha, hh]
    exact ownStep_of_not_pending pending
  · intro rest
    constructor
    · rintro (run | start)
      · rw [step_eq ha, run]
        exact ownStep_of_not_pending (s := s.setHost rest) pending
      · exact (startHonouredOnlyInIdle s rest ha start).2 running
    · intro reset
      exact ⟨(s.setHost rest).blockReset, step_reset_of_not_pending ha pending reset, State.blockReset_afterReset _,
        rfl, rfl, rfl, rfl⟩

end Sys2Proof.Machine

/-! # Exceptions (60_exceptions R163)

The two services a block can be stuck on, and where. -/

namespace Sys2Proof.Machine

theorem State.fetch_idle {s : State} (hp : s.ph = .idle) : s.fetch = none := by rw [State.fetch, hp]

theorem State.fetch_step {s : State} {n : Fin 18} (hp : s.ph = .step n) : s.fetch = some (seqRom n) := by
  rw [State.fetch, hp]

/-- In IDLE there is no operation to be stuck in (R14, R163). -/
theorem State.StallPlaced.not_stuck_of_idle {s : State} (h : s.StallPlaced) (hp : s.ph = .idle) : s.stall = none := by
  obtain ⟨read, wait⟩ := h
  have nothing := State.fetch_idle hp
  cases hs : s.stall with
  | none => rfl
  | some why =>
    cases why with
    | spdRead =>
      obtain ⟨i, cs, fetched⟩ := read hs
      cases nothing.symm.trans fetched
    | wait =>
      obtain ⟨i, x, fetched, -⟩ := wait hs
      cases nothing.symm.trans fetched

/-- An operation of a block that is not stuck leaves it stuck in that very operation, or not at all (R163). -/
theorem OperationEnds.stallPlaced {s t : State} {n : Fin 18} (hp : s.ph = .step n) (hs : s.stall = none)
    (h : OperationEnds s (seqRom n) t) : t.StallPlaced := by
  rcases h.ph_stall with ⟨-, stall⟩ | ⟨ph, ⟨stall, reader⟩ | ⟨stall, x, command⟩⟩
  · exact State.stallPlaced_of_not_stuck (stall.trans hs)
  · obtain ⟨j, cs, hi⟩ := reader
    have fetched : t.fetch = some (.rddesc j cs) := hi ▸ State.fetch_step (ph.trans hp)
    exact ⟨fun _ => ⟨j, cs, fetched⟩, by simp [stall]⟩
  · exact ⟨by simp [stall], fun _ => ⟨seqRom n, x, State.fetch_step (ph.trans hp), command⟩⟩

/-- Settles O55: START is honoured in IDLE alone, where the block is not stuck; a reset leaves it not stuck; and an
operation leaves it stuck at most in itself. -/
theorem stallPlacedKept : Obligations.StallPlacedKept := fun _ _ =>
  step_keeps State.StallPlaced (fun _ _ hs => hs)
    (fun _ hs idle => State.stallPlaced_of_not_stuck (hs.not_stuck_of_idle idle))
    (fun _ _ _ _ => State.stallPlaced_of_not_stuck rfl)
    (fun _ _ _ _ hp hl _ h => h.stallPlaced hp hl)

end Sys2Proof.Machine

/-! # Reset and hazards (70_reset_and_hazards R166, R167)

What a reset finds of an operation that it cuts short. -/

namespace Sys2Proof.Machine

/-! ## What a list of events leaves of a state (R10, R166) -/

/-- A state after the effects of some events: each register holds the last value written to it, the two services have
given the answers and delays used up, and the time waited has passed. -/
def State.afterEvents (s : State) (es : List Event) : State := { s with
  rp := (rpWrites es).getLastD s.rp
  ct := (ctWrites es).getLastD s.ct
  st := (stWrites es).getLastD s.st
  now := s.now + (waits es).sum
  spd := s.spd.after (spdCount es)
  delays := DelaySource.after^[(waits es).length] s.delays }

theorem State.afterEvents_nil (s : State) : s.afterEvents [] = s := by
  simp [State.afterEvents, rpWrites, ctWrites, stWrites, waits, spdCount, SpdSource.after_zero]

theorem State.afterEvents_append (s : State) (a b : List Event) :
    s.afterEvents (a ++ b) = (s.afterEvents a).afterEvents b := by
  simp [State.afterEvents, SpdSource.after_after, Nat.add_assoc, ← Function.iterate_add_apply, Nat.add_comm]

theorem State.replayEvent_eq (s : State) (e : Event) : s.replayEvent e = s.afterEvents [e] := by
  rcases e with ⟨dev, off, a⟩ | v | (v | v | v) | a | d | i <;>
    simp [State.replayEvent, State.afterEvents, rpWrites, ctWrites, stWrites, waits, spdCount, SpdSource.after_zero,
      State.setSpd, State.setRp, State.setCt, State.setSt, State.setDelays]

/-- Events replayed one by one leave what their projections say of them together. -/
theorem State.replay_eq (es : List Event) : ∀ s : State, s.replay es = s.afterEvents es := by
  induction es with
  | nil => exact fun s => s.afterEvents_nil.symm
  | cons e es ih =>
    intro s
    calc s.replay (e :: es)
      _ = (s.replayEvent e).replay es := rfl
      _ = (s.afterEvents [e]).afterEvents es := by rw [ih, State.replayEvent_eq]
      _ = s.afterEvents (e :: es) := (s.afterEvents_append [e] es).symm

/-! ## A reset within an operation (R166, R167) -/

/-- A reset within an operation clears a block that the first `k` events of the operation have left. -/
theorem State.resetAfter_eq {s t : State} {es : List Event} (h : t.tr = s.tr ++ es) (k : Nat) :
    s.resetAfter k t = { s.afterEvents (es.take k) with freeIdx := t.freeIdx }.blockReset := by
  rw [State.resetAfter, h, List.drop_left, State.replay_eq]

/-- A step that a reset cuts short resets the block within its pending operation (R166). -/
theorem step_resetWithin {s t : State} {n : Fin 18} {k : Nat} {rest : List HostInput} (ha : s.cfg.Admitted)
    (hp : s.ph = .step n) (hs : s.stall = none) (hh : s.host = .resetWithin k :: rest)
    (hx : exec (seqRom n) (s.setHost rest) = .next t) : step s = .next ((s.setHost rest).resetAfter k t) := by
  have pending : (s.setHost rest).pending = some (seqRom n) := State.pending_step hp hs
  rw [step_eq ha, hh]
  simp only [cutStep, pending, hx, resetDuring]

/-- Settles O57: the operation only appends to the trace, and a reset clears the block that the prefix of what it appends
has left. -/
theorem resetWithinOperation : Obligations.ResetWithinOperation := by
  intro s t n k rest ha hp hs hh hx
  obtain ⟨es, events, -⟩ := (exec_ends (s := s.setHost rest) ha hx).events
  have reset := State.resetAfter_eq events k
  exact ⟨es, _, events, (step_resetWithin ha hp hs hh hx).trans (congrArg _ reset), State.blockReset_afterReset _,
    rfl, rfl, rfl, Nat.le_add_right _ _, rfl, rfl, rfl⟩

end Sys2Proof.Machine
